-- ==== Sys2Proof/Word.lean ====
section
/-! DEFINITION. The two word types of the core: 8-bit data and 16-bit addresses (00_scope.md R7). -/

namespace Sys2Proof

/-- An 8-bit value: A, X, Y, S, P and every byte of memory (R7). -/
abbrev Byte := BitVec 8

/-- A 16-bit value: PC and every effective address (R7). -/
abbrev Addr := BitVec 16

end Sys2Proof
end

