-- ==== Sys2Proof/Syntax.lean ====
section
/-! DEFINITION. The instruction set as data: the 56 mnemonics, the 13 addressing modes with their operand bytes, and one
constructor of `Instr` per row of spec/opcode_table.json (30_encoding.md R91, R95, R96). A constructor's argument is the
operand as 30_encoding.md R92 assembles it: an 8-bit imm8, zp8 or disp8, or a 16-bit addr16. -/

namespace Sys2Proof

/-- The 56 mnemonics (30_encoding.md R96). -/
inductive Mnemonic where
  | lda | ldx | ldy | sta | stx | sty | tax | tay
  | txa | tya | tsx | txs | adc | sbc | and | ora
  | eor | asl | lsr | rol | ror | bit | inc | dec
  | inx | iny | dex | dey | cmp | cpx | cpy | jmp
  | jsr | rts | bcc | bcs | beq | bmi | bne | bpl
  | bvc | bvs | pha | pla | php | plp | clc | sec
  | cli | sei | cld | sed | clv | nop | brk | rti
  deriving DecidableEq, Repr

/-- The closed enumeration of 13 addressing modes (30_encoding.md R91). -/
inductive Mode where
  | accumulator | implied | immediate
  | zeroPage | zeroPageXIndex | zeroPageYIndex | relative | preIndexIndirect | postIndexIndirect
  | absolute | absoluteXIndex | absoluteYIndex | indirect
  deriving DecidableEq, Repr

/-- A mode together with the operand it carries (30_encoding.md R91, R92). -/
inductive Operand where
  | accumulator
  | implied
  | immediate (imm8 : Byte)
  | zeroPage (zp8 : Byte)
  | zeroPageXIndex (zp8 : Byte)
  | zeroPageYIndex (zp8 : Byte)
  | relative (disp8 : Byte)
  | preIndexIndirect (zp8 : Byte)
  | postIndexIndirect (zp8 : Byte)
  | absolute (addr16 : Addr)
  | absoluteXIndex (addr16 : Addr)
  | absoluteYIndex (addr16 : Addr)
  | indirect (addr16 : Addr)
  deriving DecidableEq, Repr

/-- The mode tag of an operand. -/
def Operand.mode : Operand → Mode
  | .accumulator => .accumulator
  | .implied => .implied
  | .immediate _ => .immediate
  | .zeroPage _ => .zeroPage
  | .zeroPageXIndex _ => .zeroPageXIndex
  | .zeroPageYIndex _ => .zeroPageYIndex
  | .relative _ => .relative
  | .preIndexIndirect _ => .preIndexIndirect
  | .postIndexIndirect _ => .postIndexIndirect
  | .absolute _ => .absolute
  | .absoluteXIndex _ => .absoluteXIndex
  | .absoluteYIndex _ => .absoluteYIndex
  | .indirect _ => .indirect

/-- One constructor per row of spec/opcode_table.json. Suffixes: Acc Accumulator, Imm Immediate, Zp ZeroPage, ZpX
ZeroPageXIndex, ZpY ZeroPageYIndex, IndX PreIndexIndirect, IndY PostIndexIndirect, Abs Absolute, AbsX AbsoluteXIndex, AbsY
AbsoluteYIndex, Ind Indirect; Implied and Relative rows bear no suffix. -/
inductive Instr where
  | ldaImm (imm : Byte) | ldaZp (zp : Byte) | ldaZpX (zp : Byte) | ldaIndX (zp : Byte) | ldaIndY (zp : Byte)
  | ldaAbs (addr : Addr) | ldaAbsX (addr : Addr) | ldaAbsY (addr : Addr)
  | ldxImm (imm : Byte) | ldxZp (zp : Byte) | ldxZpY (zp : Byte) | ldxAbs (addr : Addr) | ldxAbsY (addr : Addr)
  | ldyImm (imm : Byte) | ldyZp (zp : Byte) | ldyZpX (zp : Byte) | ldyAbs (addr : Addr) | ldyAbsX (addr : Addr)
  | staZp (zp : Byte) | staZpX (zp : Byte) | staIndX (zp : Byte) | staIndY (zp : Byte) | staAbs (addr : Addr)
  | staAbsX (addr : Addr) | staAbsY (addr : Addr)
  | stxZp (zp : Byte) | stxZpY (zp : Byte) | stxAbs (addr : Addr)
  | styZp (zp : Byte) | styZpX (zp : Byte) | styAbs (addr : Addr)
  | tax
  | tay
  | txa
  | tya
  | tsx
  | txs
  | adcImm (imm : Byte) | adcZp (zp : Byte) | adcZpX (zp : Byte) | adcIndX (zp : Byte) | adcIndY (zp : Byte)
  | adcAbs (addr : Addr) | adcAbsX (addr : Addr) | adcAbsY (addr : Addr)
  | sbcImm (imm : Byte) | sbcZp (zp : Byte) | sbcZpX (zp : Byte) | sbcIndX (zp : Byte) | sbcIndY (zp : Byte)
  | sbcAbs (addr : Addr) | sbcAbsX (addr : Addr) | sbcAbsY (addr : Addr)
  | andImm (imm : Byte) | andZp (zp : Byte) | andZpX (zp : Byte) | andIndX (zp : Byte) | andIndY (zp : Byte)
  | andAbs (addr : Addr) | andAbsX (addr : Addr) | andAbsY (addr : Addr)
  | oraImm (imm : Byte) | oraZp (zp : Byte) | oraZpX (zp : Byte) | oraIndX (zp : Byte) | oraIndY (zp : Byte)
  | oraAbs (addr : Addr) | oraAbsX (addr : Addr) | oraAbsY (addr : Addr)
  | eorImm (imm : Byte) | eorZp (zp : Byte) | eorZpX (zp : Byte) | eorIndX (zp : Byte) | eorIndY (zp : Byte)
  | eorAbs (addr : Addr) | eorAbsX (addr : Addr) | eorAbsY (addr : Addr)
  | aslAcc | aslZp (zp : Byte) | aslZpX (zp : Byte) | aslAbs (addr : Addr) | aslAbsX (addr : Addr)
  | lsrAcc | lsrZp (zp : Byte) | lsrZpX (zp : Byte) | lsrAbs (addr : Addr) | lsrAbsX (addr : Addr)
  | rolAcc | rolZp (zp : Byte) | rolZpX (zp : Byte) | rolAbs (addr : Addr) | rolAbsX (addr : Addr)
  | rorAcc | rorZp (zp : Byte) | rorZpX (zp : Byte) | rorAbs (addr : Addr) | rorAbsX (addr : Addr)
  | bitZp (zp : Byte) | bitAbs (addr : Addr)
  | incZp (zp : Byte) | incZpX (zp : Byte) | incAbs (addr : Addr) | incAbsX (addr : Addr)
  | decZp (zp : Byte) | decZpX (zp : Byte) | decAbs (addr : Addr) | decAbsX (addr : Addr)
  | inx
  | iny
  | dex
  | dey
  | cmpImm (imm : Byte) | cmpZp (zp : Byte) | cmpZpX (zp : Byte) | cmpIndX (zp : Byte) | cmpIndY (zp : Byte)
  | cmpAbs (addr : Addr) | cmpAbsX (addr : Addr) | cmpAbsY (addr : Addr)
  | cpxImm (imm : Byte) | cpxZp (zp : Byte) | cpxAbs (addr : Addr)
  | cpyImm (imm : Byte) | cpyZp (zp : Byte) | cpyAbs (addr : Addr)
  | jmpAbs (addr : Addr) | jmpInd (addr : Addr)
  | jsrAbs (addr : Addr)
  | rts
  | bcc (disp : Byte)
  | bcs (disp : Byte)
  | beq (disp : Byte)
  | bmi (disp : Byte)
  | bne (disp : Byte)
  | bpl (disp : Byte)
  | bvc (disp : Byte)
  | bvs (disp : Byte)
  | pha
  | pla
  | php
  | plp
  | clc
  | sec
  | cli
  | sei
  | cld
  | sed
  | clv
  | nop
  | brk
  | rti
  deriving DecidableEq, Repr

/-- A mnemonic with an operand in some mode: what a decoder "built another way" could hand to a handler
(30_encoding.md R98). -/
structure Form where
  mnemonic : Mnemonic
  operand : Operand
  deriving DecidableEq, Repr

/-- The mnemonic and the operand of each row (30_encoding.md R96). -/
def Instr.form : Instr → Form
  | .ldaImm imm => ⟨.lda, .immediate imm⟩
  | .ldaZp zp => ⟨.lda, .zeroPage zp⟩
  | .ldaZpX zp => ⟨.lda, .zeroPageXIndex zp⟩
  | .ldaIndX zp => ⟨.lda, .preIndexIndirect zp⟩
  | .ldaIndY zp => ⟨.lda, .postIndexIndirect zp⟩
  | .ldaAbs addr => ⟨.lda, .absolute addr⟩
  | .ldaAbsX addr => ⟨.lda, .absoluteXIndex addr⟩
  | .ldaAbsY addr => ⟨.lda, .absoluteYIndex addr⟩
  | .ldxImm imm => ⟨.ldx, .immediate imm⟩
  | .ldxZp zp => ⟨.ldx, .zeroPage zp⟩
  | .ldxZpY zp => ⟨.ldx, .zeroPageYIndex zp⟩
  | .ldxAbs addr => ⟨.ldx, .absolute addr⟩
  | .ldxAbsY addr => ⟨.ldx, .absoluteYIndex addr⟩
  | .ldyImm imm => ⟨.ldy, .immediate imm⟩
  | .ldyZp zp => ⟨.ldy, .zeroPage zp⟩
  | .ldyZpX zp => ⟨.ldy, .zeroPageXIndex zp⟩
  | .ldyAbs addr => ⟨.ldy, .absolute addr⟩
  | .ldyAbsX addr => ⟨.ldy, .absoluteXIndex addr⟩
  | .staZp zp => ⟨.sta, .zeroPage zp⟩
  | .staZpX zp => ⟨.sta, .zeroPageXIndex zp⟩
  | .staIndX zp => ⟨.sta, .preIndexIndirect zp⟩
  | .staIndY zp => ⟨.sta, .postIndexIndirect zp⟩
  | .staAbs addr => ⟨.sta, .absolute addr⟩
  | .staAbsX addr => ⟨.sta, .absoluteXIndex addr⟩
  | .staAbsY addr => ⟨.sta, .absoluteYIndex addr⟩
  | .stxZp zp => ⟨.stx, .zeroPage zp⟩
  | .stxZpY zp => ⟨.stx, .zeroPageYIndex zp⟩
  | .stxAbs addr => ⟨.stx, .absolute addr⟩
  | .styZp zp => ⟨.sty, .zeroPage zp⟩
  | .styZpX zp => ⟨.sty, .zeroPageXIndex zp⟩
  | .styAbs addr => ⟨.sty, .absolute addr⟩
  | .tax => ⟨.tax, .implied⟩
  | .tay => ⟨.tay, .implied⟩
  | .txa => ⟨.txa, .implied⟩
  | .tya => ⟨.tya, .implied⟩
  | .tsx => ⟨.tsx, .implied⟩
  | .txs => ⟨.txs, .implied⟩
  | .adcImm imm => ⟨.adc, .immediate imm⟩
  | .adcZp zp => ⟨.adc, .zeroPage zp⟩
  | .adcZpX zp => ⟨.adc, .zeroPageXIndex zp⟩
  | .adcIndX zp => ⟨.adc, .preIndexIndirect zp⟩
  | .adcIndY zp => ⟨.adc, .postIndexIndirect zp⟩
  | .adcAbs addr => ⟨.adc, .absolute addr⟩
  | .adcAbsX addr => ⟨.adc, .absoluteXIndex addr⟩
  | .adcAbsY addr => ⟨.adc, .absoluteYIndex addr⟩
  | .sbcImm imm => ⟨.sbc, .immediate imm⟩
  | .sbcZp zp => ⟨.sbc, .zeroPage zp⟩
  | .sbcZpX zp => ⟨.sbc, .zeroPageXIndex zp⟩
  | .sbcIndX zp => ⟨.sbc, .preIndexIndirect zp⟩
  | .sbcIndY zp => ⟨.sbc, .postIndexIndirect zp⟩
  | .sbcAbs addr => ⟨.sbc, .absolute addr⟩
  | .sbcAbsX addr => ⟨.sbc, .absoluteXIndex addr⟩
  | .sbcAbsY addr => ⟨.sbc, .absoluteYIndex addr⟩
  | .andImm imm => ⟨.and, .immediate imm⟩
  | .andZp zp => ⟨.and, .zeroPage zp⟩
  | .andZpX zp => ⟨.and, .zeroPageXIndex zp⟩
  | .andIndX zp => ⟨.and, .preIndexIndirect zp⟩
  | .andIndY zp => ⟨.and, .postIndexIndirect zp⟩
  | .andAbs addr => ⟨.and, .absolute addr⟩
  | .andAbsX addr => ⟨.and, .absoluteXIndex addr⟩
  | .andAbsY addr => ⟨.and, .absoluteYIndex addr⟩
  | .oraImm imm => ⟨.ora, .immediate imm⟩
  | .oraZp zp => ⟨.ora, .zeroPage zp⟩
  | .oraZpX zp => ⟨.ora, .zeroPageXIndex zp⟩
  | .oraIndX zp => ⟨.ora, .preIndexIndirect zp⟩
  | .oraIndY zp => ⟨.ora, .postIndexIndirect zp⟩
  | .oraAbs addr => ⟨.ora, .absolute addr⟩
  | .oraAbsX addr => ⟨.ora, .absoluteXIndex addr⟩
  | .oraAbsY addr => ⟨.ora, .absoluteYIndex addr⟩
  | .eorImm imm => ⟨.eor, .immediate imm⟩
  | .eorZp zp => ⟨.eor, .zeroPage zp⟩
  | .eorZpX zp => ⟨.eor, .zeroPageXIndex zp⟩
  | .eorIndX zp => ⟨.eor, .preIndexIndirect zp⟩
  | .eorIndY zp => ⟨.eor, .postIndexIndirect zp⟩
  | .eorAbs addr => ⟨.eor, .absolute addr⟩
  | .eorAbsX addr => ⟨.eor, .absoluteXIndex addr⟩
  | .eorAbsY addr => ⟨.eor, .absoluteYIndex addr⟩
  | .aslAcc => ⟨.asl, .accumulator⟩
  | .aslZp zp => ⟨.asl, .zeroPage zp⟩
  | .aslZpX zp => ⟨.asl, .zeroPageXIndex zp⟩
  | .aslAbs addr => ⟨.asl, .absolute addr⟩
  | .aslAbsX addr => ⟨.asl, .absoluteXIndex addr⟩
  | .lsrAcc => ⟨.lsr, .accumulator⟩
  | .lsrZp zp => ⟨.lsr, .zeroPage zp⟩
  | .lsrZpX zp => ⟨.lsr, .zeroPageXIndex zp⟩
  | .lsrAbs addr => ⟨.lsr, .absolute addr⟩
  | .lsrAbsX addr => ⟨.lsr, .absoluteXIndex addr⟩
  | .rolAcc => ⟨.rol, .accumulator⟩
  | .rolZp zp => ⟨.rol, .zeroPage zp⟩
  | .rolZpX zp => ⟨.rol, .zeroPageXIndex zp⟩
  | .rolAbs addr => ⟨.rol, .absolute addr⟩
  | .rolAbsX addr => ⟨.rol, .absoluteXIndex addr⟩
  | .rorAcc => ⟨.ror, .accumulator⟩
  | .rorZp zp => ⟨.ror, .zeroPage zp⟩
  | .rorZpX zp => ⟨.ror, .zeroPageXIndex zp⟩
  | .rorAbs addr => ⟨.ror, .absolute addr⟩
  | .rorAbsX addr => ⟨.ror, .absoluteXIndex addr⟩
  | .bitZp zp => ⟨.bit, .zeroPage zp⟩
  | .bitAbs addr => ⟨.bit, .absolute addr⟩
  | .incZp zp => ⟨.inc, .zeroPage zp⟩
  | .incZpX zp => ⟨.inc, .zeroPageXIndex zp⟩
  | .incAbs addr => ⟨.inc, .absolute addr⟩
  | .incAbsX addr => ⟨.inc, .absoluteXIndex addr⟩
  | .decZp zp => ⟨.dec, .zeroPage zp⟩
  | .decZpX zp => ⟨.dec, .zeroPageXIndex zp⟩
  | .decAbs addr => ⟨.dec, .absolute addr⟩
  | .decAbsX addr => ⟨.dec, .absoluteXIndex addr⟩
  | .inx => ⟨.inx, .implied⟩
  | .iny => ⟨.iny, .implied⟩
  | .dex => ⟨.dex, .implied⟩
  | .dey => ⟨.dey, .implied⟩
  | .cmpImm imm => ⟨.cmp, .immediate imm⟩
  | .cmpZp zp => ⟨.cmp, .zeroPage zp⟩
  | .cmpZpX zp => ⟨.cmp, .zeroPageXIndex zp⟩
  | .cmpIndX zp => ⟨.cmp, .preIndexIndirect zp⟩
  | .cmpIndY zp => ⟨.cmp, .postIndexIndirect zp⟩
  | .cmpAbs addr => ⟨.cmp, .absolute addr⟩
  | .cmpAbsX addr => ⟨.cmp, .absoluteXIndex addr⟩
  | .cmpAbsY addr => ⟨.cmp, .absoluteYIndex addr⟩
  | .cpxImm imm => ⟨.cpx, .immediate imm⟩
  | .cpxZp zp => ⟨.cpx, .zeroPage zp⟩
  | .cpxAbs addr => ⟨.cpx, .absolute addr⟩
  | .cpyImm imm => ⟨.cpy, .immediate imm⟩
  | .cpyZp zp => ⟨.cpy, .zeroPage zp⟩
  | .cpyAbs addr => ⟨.cpy, .absolute addr⟩
  | .jmpAbs addr => ⟨.jmp, .absolute addr⟩
  | .jmpInd addr => ⟨.jmp, .indirect addr⟩
  | .jsrAbs addr => ⟨.jsr, .absolute addr⟩
  | .rts => ⟨.rts, .implied⟩
  | .bcc disp => ⟨.bcc, .relative disp⟩
  | .bcs disp => ⟨.bcs, .relative disp⟩
  | .beq disp => ⟨.beq, .relative disp⟩
  | .bmi disp => ⟨.bmi, .relative disp⟩
  | .bne disp => ⟨.bne, .relative disp⟩
  | .bpl disp => ⟨.bpl, .relative disp⟩
  | .bvc disp => ⟨.bvc, .relative disp⟩
  | .bvs disp => ⟨.bvs, .relative disp⟩
  | .pha => ⟨.pha, .implied⟩
  | .pla => ⟨.pla, .implied⟩
  | .php => ⟨.php, .implied⟩
  | .plp => ⟨.plp, .implied⟩
  | .clc => ⟨.clc, .implied⟩
  | .sec => ⟨.sec, .implied⟩
  | .cli => ⟨.cli, .implied⟩
  | .sei => ⟨.sei, .implied⟩
  | .cld => ⟨.cld, .implied⟩
  | .sed => ⟨.sed, .implied⟩
  | .clv => ⟨.clv, .implied⟩
  | .nop => ⟨.nop, .implied⟩
  | .brk => ⟨.brk, .implied⟩
  | .rti => ⟨.rti, .implied⟩

/-- The mnemonic of an instruction. -/
def Instr.mnemonic (i : Instr) : Mnemonic := i.form.mnemonic

/-- The operand of an instruction. -/
def Instr.operand (i : Instr) : Operand := i.form.operand

/-- The addressing mode of an instruction. -/
def Instr.mode (i : Instr) : Mode := i.form.operand.mode

end Sys2Proof
end

