-- ==== Sys2Proof/WellFormed.lean ====
section
/-! DEFINITION. The check on a mnemonic with an operand: is there an opcode for the pair (30_encoding.md R96, R98)? The
constructors of `Instr` are the 151 pairs of R96, so every instruction passes it; a `Form` need not. -/

namespace Sys2Proof

/-- The modes each mnemonic allows: the non-empty cells of its row in 30_encoding.md R96. -/
def Mnemonic.modes : Mnemonic → List Mode
  | .lda =>
    [.immediate, .zeroPage, .zeroPageXIndex, .preIndexIndirect,
      .postIndexIndirect, .absolute, .absoluteXIndex, .absoluteYIndex]
  | .ldx =>
    [.immediate, .zeroPage, .zeroPageYIndex, .absolute, .absoluteYIndex]
  | .ldy =>
    [.immediate, .zeroPage, .zeroPageXIndex, .absolute, .absoluteXIndex]
  | .sta =>
    [.zeroPage, .zeroPageXIndex, .preIndexIndirect, .postIndexIndirect, .absolute, .absoluteXIndex, .absoluteYIndex]
  | .stx =>
    [.zeroPage, .zeroPageYIndex, .absolute]
  | .sty =>
    [.zeroPage, .zeroPageXIndex, .absolute]
  | .tax | .tay | .txa | .tya | .tsx | .txs =>
    [.implied]
  | .adc | .sbc | .and | .ora | .eor =>
    [.immediate, .zeroPage, .zeroPageXIndex, .preIndexIndirect,
      .postIndexIndirect, .absolute, .absoluteXIndex, .absoluteYIndex]
  | .asl | .lsr | .rol | .ror =>
    [.accumulator, .zeroPage, .zeroPageXIndex, .absolute, .absoluteXIndex]
  | .bit =>
    [.zeroPage, .absolute]
  | .inc | .dec =>
    [.zeroPage, .zeroPageXIndex, .absolute, .absoluteXIndex]
  | .inx | .iny | .dex | .dey =>
    [.implied]
  | .cmp =>
    [.immediate, .zeroPage, .zeroPageXIndex, .preIndexIndirect,
      .postIndexIndirect, .absolute, .absoluteXIndex, .absoluteYIndex]
  | .cpx | .cpy =>
    [.immediate, .zeroPage, .absolute]
  | .jmp =>
    [.absolute, .indirect]
  | .jsr =>
    [.absolute]
  | .rts =>
    [.implied]
  | .bcc | .bcs | .beq | .bmi | .bne | .bpl | .bvc | .bvs =>
    [.relative]
  | .pha | .pla | .php | .plp | .clc | .sec | .cli | .sei | .cld | .sed
  | .clv | .nop | .brk | .rti =>
    [.implied]

/-- Does some opcode select this mnemonic with this mode (30_encoding.md R96)? -/
def Mnemonic.allows (mn : Mnemonic) (m : Mode) : Bool := mn.modes.contains m

/-- A form is well formed when some opcode selects its mnemonic with its mode (30_encoding.md R98). -/
def Form.wellFormed (f : Form) : Bool := f.mnemonic.allows f.operand.mode

/-- An instruction is well formed when its form is; `Instr.wellFormed_all` (Laws/Syntax.lean) says that each one is. -/
def Instr.wellFormed (i : Instr) : Bool := i.form.wellFormed

end Sys2Proof
end

