-- ==== Sys2Proof/Decode.lean ====
section
/-! DEFINITION. The decoder (30_encoding.md R90 to R95, R97) on any list of bytes, rejecting by name, and the encoder written
from the table of R96. -/

namespace Sys2Proof

/-! ### Byte order and operand-byte counts -/

/-- The little-endian word of two bytes, the low byte first (20_memory.md R62, R64). -/
def wordOfBytes (lo hi : Byte) : Addr := hi ++ lo

/-- `lo(w) = w[7:0]` (00_scope.md R9). -/
def loByte (w : Addr) : Byte := w.setWidth 8

/-- `hi(w) = w[15:8]` (00_scope.md R9). -/
def hiByte (w : Addr) : Byte := (w >>> 8).setWidth 8

/-- `len(mode)`, the operand-byte count of a mode (30_encoding.md R91). -/
def Mode.len : Mode → Nat
  | .accumulator | .implied => 0
  | .immediate | .zeroPage | .zeroPageXIndex | .zeroPageYIndex | .relative | .preIndexIndirect | .postIndexIndirect => 1
  | .absolute | .absoluteXIndex | .absoluteYIndex | .indirect => 2

/-- The length of an instruction, `1 + len(mode)` (30_encoding.md R90, R94). -/
def Instr.length (i : Instr) : Nat := 1 + i.mode.len

/-! ### Decoding -/

/-- What an opcode selects: an instruction still lacking its operand, by the byte layouts of 30_encoding.md R90. -/
inductive Row where
  | plain (i : Instr)
  | byte (f : Byte → Instr)
  | word (f : Addr → Instr)

/-- Row 0 of the opcode map, by column (30_encoding.md R95). -/
def opcodesRow0 (column : Nat) : Option Row :=
  match column with
  | 0x0 => some (.plain .brk)
  | 0x1 => some (.byte .oraIndX)
  | 0x5 => some (.byte .oraZp)
  | 0x6 => some (.byte .aslZp)
  | 0x8 => some (.plain .php)
  | 0x9 => some (.byte .oraImm)
  | 0xA => some (.plain .aslAcc)
  | 0xD => some (.word .oraAbs)
  | 0xE => some (.word .aslAbs)
  | _ => none

/-- Row 1 of the opcode map, by column (30_encoding.md R95). -/
def opcodesRow1 (column : Nat) : Option Row :=
  match column with
  | 0x0 => some (.byte .bpl)
  | 0x1 => some (.byte .oraIndY)
  | 0x5 => some (.byte .oraZpX)
  | 0x6 => some (.byte .aslZpX)
  | 0x8 => some (.plain .clc)
  | 0x9 => some (.word .oraAbsY)
  | 0xD => some (.word .oraAbsX)
  | 0xE => some (.word .aslAbsX)
  | _ => none

/-- Row 2 of the opcode map, by column (30_encoding.md R95). -/
def opcodesRow2 (column : Nat) : Option Row :=
  match column with
  | 0x0 => some (.word .jsrAbs)
  | 0x1 => some (.byte .andIndX)
  | 0x4 => some (.byte .bitZp)
  | 0x5 => some (.byte .andZp)
  | 0x6 => some (.byte .rolZp)
  | 0x8 => some (.plain .plp)
  | 0x9 => some (.byte .andImm)
  | 0xA => some (.plain .rolAcc)
  | 0xC => some (.word .bitAbs)
  | 0xD => some (.word .andAbs)
  | 0xE => some (.word .rolAbs)
  | _ => none

/-- Row 3 of the opcode map, by column (30_encoding.md R95). -/
def opcodesRow3 (column : Nat) : Option Row :=
  match column with
  | 0x0 => some (.byte .bmi)
  | 0x1 => some (.byte .andIndY)
  | 0x5 => some (.byte .andZpX)
  | 0x6 => some (.byte .rolZpX)
  | 0x8 => some (.plain .sec)
  | 0x9 => some (.word .andAbsY)
  | 0xD => some (.word .andAbsX)
  | 0xE => some (.word .rolAbsX)
  | _ => none

/-- Row 4 of the opcode map, by column (30_encoding.md R95). -/
def opcodesRow4 (column : Nat) : Option Row :=
  match column with
  | 0x0 => some (.plain .rti)
  | 0x1 => some (.byte .eorIndX)
  | 0x5 => some (.byte .eorZp)
  | 0x6 => some (.byte .lsrZp)
  | 0x8 => some (.plain .pha)
  | 0x9 => some (.byte .eorImm)
  | 0xA => some (.plain .lsrAcc)
  | 0xC => some (.word .jmpAbs)
  | 0xD => some (.word .eorAbs)
  | 0xE => some (.word .lsrAbs)
  | _ => none

/-- Row 5 of the opcode map, by column (30_encoding.md R95). -/
def opcodesRow5 (column : Nat) : Option Row :=
  match column with
  | 0x0 => some (.byte .bvc)
  | 0x1 => some (.byte .eorIndY)
  | 0x5 => some (.byte .eorZpX)
  | 0x6 => some (.byte .lsrZpX)
  | 0x8 => some (.plain .cli)
  | 0x9 => some (.word .eorAbsY)
  | 0xD => some (.word .eorAbsX)
  | 0xE => some (.word .lsrAbsX)
  | _ => none

/-- Row 6 of the opcode map, by column (30_encoding.md R95). -/
def opcodesRow6 (column : Nat) : Option Row :=
  match column with
  | 0x0 => some (.plain .rts)
  | 0x1 => some (.byte .adcIndX)
  | 0x5 => some (.byte .adcZp)
  | 0x6 => some (.byte .rorZp)
  | 0x8 => some (.plain .pla)
  | 0x9 => some (.byte .adcImm)
  | 0xA => some (.plain .rorAcc)
  | 0xC => some (.word .jmpInd)
  | 0xD => some (.word .adcAbs)
  | 0xE => some (.word .rorAbs)
  | _ => none

/-- Row 7 of the opcode map, by column (30_encoding.md R95). -/
def opcodesRow7 (column : Nat) : Option Row :=
  match column with
  | 0x0 => some (.byte .bvs)
  | 0x1 => some (.byte .adcIndY)
  | 0x5 => some (.byte .adcZpX)
  | 0x6 => some (.byte .rorZpX)
  | 0x8 => some (.plain .sei)
  | 0x9 => some (.word .adcAbsY)
  | 0xD => some (.word .adcAbsX)
  | 0xE => some (.word .rorAbsX)
  | _ => none

/-- Row 8 of the opcode map, by column (30_encoding.md R95). -/
def opcodesRow8 (column : Nat) : Option Row :=
  match column with
  | 0x1 => some (.byte .staIndX)
  | 0x4 => some (.byte .styZp)
  | 0x5 => some (.byte .staZp)
  | 0x6 => some (.byte .stxZp)
  | 0x8 => some (.plain .dey)
  | 0xA => some (.plain .txa)
  | 0xC => some (.word .styAbs)
  | 0xD => some (.word .staAbs)
  | 0xE => some (.word .stxAbs)
  | _ => none

/-- Row 9 of the opcode map, by column (30_encoding.md R95). -/
def opcodesRow9 (column : Nat) : Option Row :=
  match column with
  | 0x0 => some (.byte .bcc)
  | 0x1 => some (.byte .staIndY)
  | 0x4 => some (.byte .styZpX)
  | 0x5 => some (.byte .staZpX)
  | 0x6 => some (.byte .stxZpY)
  | 0x8 => some (.plain .tya)
  | 0x9 => some (.word .staAbsY)
  | 0xA => some (.plain .txs)
  | 0xD => some (.word .staAbsX)
  | _ => none

/-- Row A of the opcode map, by column (30_encoding.md R95). -/
def opcodesRowA (column : Nat) : Option Row :=
  match column with
  | 0x0 => some (.byte .ldyImm)
  | 0x1 => some (.byte .ldaIndX)
  | 0x2 => some (.byte .ldxImm)
  | 0x4 => some (.byte .ldyZp)
  | 0x5 => some (.byte .ldaZp)
  | 0x6 => some (.byte .ldxZp)
  | 0x8 => some (.plain .tay)
  | 0x9 => some (.byte .ldaImm)
  | 0xA => some (.plain .tax)
  | 0xC => some (.word .ldyAbs)
  | 0xD => some (.word .ldaAbs)
  | 0xE => some (.word .ldxAbs)
  | _ => none

/-- Row B of the opcode map, by column (30_encoding.md R95). -/
def opcodesRowB (column : Nat) : Option Row :=
  match column with
  | 0x0 => some (.byte .bcs)
  | 0x1 => some (.byte .ldaIndY)
  | 0x4 => some (.byte .ldyZpX)
  | 0x5 => some (.byte .ldaZpX)
  | 0x6 => some (.byte .ldxZpY)
  | 0x8 => some (.plain .clv)
  | 0x9 => some (.word .ldaAbsY)
  | 0xA => some (.plain .tsx)
  | 0xC => some (.word .ldyAbsX)
  | 0xD => some (.word .ldaAbsX)
  | 0xE => some (.word .ldxAbsY)
  | _ => none

/-- Row C of the opcode map, by column (30_encoding.md R95). -/
def opcodesRowC (column : Nat) : Option Row :=
  match column with
  | 0x0 => some (.byte .cpyImm)
  | 0x1 => some (.byte .cmpIndX)
  | 0x4 => some (.byte .cpyZp)
  | 0x5 => some (.byte .cmpZp)
  | 0x6 => some (.byte .decZp)
  | 0x8 => some (.plain .iny)
  | 0x9 => some (.byte .cmpImm)
  | 0xA => some (.plain .dex)
  | 0xC => some (.word .cpyAbs)
  | 0xD => some (.word .cmpAbs)
  | 0xE => some (.word .decAbs)
  | _ => none

/-- Row D of the opcode map, by column (30_encoding.md R95). -/
def opcodesRowD (column : Nat) : Option Row :=
  match column with
  | 0x0 => some (.byte .bne)
  | 0x1 => some (.byte .cmpIndY)
  | 0x5 => some (.byte .cmpZpX)
  | 0x6 => some (.byte .decZpX)
  | 0x8 => some (.plain .cld)
  | 0x9 => some (.word .cmpAbsY)
  | 0xD => some (.word .cmpAbsX)
  | 0xE => some (.word .decAbsX)
  | _ => none

/-- Row E of the opcode map, by column (30_encoding.md R95). -/
def opcodesRowE (column : Nat) : Option Row :=
  match column with
  | 0x0 => some (.byte .cpxImm)
  | 0x1 => some (.byte .sbcIndX)
  | 0x4 => some (.byte .cpxZp)
  | 0x5 => some (.byte .sbcZp)
  | 0x6 => some (.byte .incZp)
  | 0x8 => some (.plain .inx)
  | 0x9 => some (.byte .sbcImm)
  | 0xA => some (.plain .nop)
  | 0xC => some (.word .cpxAbs)
  | 0xD => some (.word .sbcAbs)
  | 0xE => some (.word .incAbs)
  | _ => none

/-- Row F of the opcode map, by column (30_encoding.md R95). -/
def opcodesRowF (column : Nat) : Option Row :=
  match column with
  | 0x0 => some (.byte .beq)
  | 0x1 => some (.byte .sbcIndY)
  | 0x5 => some (.byte .sbcZpX)
  | 0x6 => some (.byte .incZpX)
  | 0x8 => some (.plain .sed)
  | 0x9 => some (.word .sbcAbsY)
  | 0xD => some (.word .sbcAbsX)
  | 0xE => some (.word .incAbsX)
  | _ => none

/-- The opcode map of 30_encoding.md R95, by row (bits 7..4) and column (bits 3..0): the 151 defined opcodes, and none for
the 105 others (R97). -/
def opcodeRow (op : Byte) : Option Row :=
  match op.toNat / 16 with
  | 0x0 => opcodesRow0 (op.toNat % 16)
  | 0x1 => opcodesRow1 (op.toNat % 16)
  | 0x2 => opcodesRow2 (op.toNat % 16)
  | 0x3 => opcodesRow3 (op.toNat % 16)
  | 0x4 => opcodesRow4 (op.toNat % 16)
  | 0x5 => opcodesRow5 (op.toNat % 16)
  | 0x6 => opcodesRow6 (op.toNat % 16)
  | 0x7 => opcodesRow7 (op.toNat % 16)
  | 0x8 => opcodesRow8 (op.toNat % 16)
  | 0x9 => opcodesRow9 (op.toNat % 16)
  | 0xA => opcodesRowA (op.toNat % 16)
  | 0xB => opcodesRowB (op.toNat % 16)
  | 0xC => opcodesRowC (op.toNat % 16)
  | 0xD => opcodesRowD (op.toNat % 16)
  | 0xE => opcodesRowE (op.toNat % 16)
  | 0xF => opcodesRowF (op.toNat % 16)
  | _ => none

/-- The instruction of a row, given the two bytes that follow the opcode; a row uses as many of them as its mode has. -/
def Row.build : Row → Byte → Byte → Instr
  | .plain i, _, _ => i
  | .byte f, b1, _ => f b1
  | .word f, b1, b2 => f (wordOfBytes b1 b2)

/-- `Decode(op)` of 30_encoding.md R93: the mnemonic and mode an opcode selects, or none (`Undefined`). -/
def decodeOpcode (op : Byte) : Option (Mnemonic × Mode) :=
  (opcodeRow op).map fun r => ((r.build 0 0).mnemonic, (r.build 0 0).mode)

/-- Why bytes are no instruction. -/
inductive DecodeError where
  /-- There is no opcode byte. -/
  | empty
  /-- The opcode is one of the 105 the table leaves undefined (30_encoding.md R97). -/
  | undefined (op : Byte)
  /-- The opcode is defined and its operand bytes are not all there. -/
  | truncated (op : Byte)
  deriving DecidableEq, Repr

/-- Decode the instruction at the head of a list of bytes, and give back the bytes after it (30_encoding.md R90 to R94). -/
def decode : List Byte → Except DecodeError (Instr × List Byte)
  | [] => .error .empty
  | op :: rest =>
    match opcodeRow op, rest with
    | none, _ => .error (.undefined op)
    | some (.plain i), rest => .ok (i, rest)
    | some (.byte f), b :: rest => .ok (f b, rest)
    | some (.word f), lo :: hi :: rest => .ok (f (wordOfBytes lo hi), rest)
    | some _, _ => .error (.truncated op)

/-- The three bytes of a table word, the longest instruction's length: bit 0 of `w` is the least significant bit of the first
byte, a later byte's bits count on, and the bits from `nbits` up are 0. -/
def tableWordBytes (nbits w : Nat) : Byte × Byte × Byte :=
  let v := w % 2 ^ nbits
  (BitVec.ofNat 8 v, BitVec.ofNat 8 (v / 256), BitVec.ofNat 8 (v / 65536))

/-- The instruction the decoder reads from a word of spec/opcode_table.json's numbering. -/
def decodeTableWord (nbits w : Nat) : Option Instr :=
  let b := tableWordBytes nbits w
  match decode [b.1, b.2.1, b.2.2] with
  | .ok (i, _) => some i
  | .error _ => none

/-! ### Encoding -/

/-- The opcode of each instruction, cell by cell from the table of 30_encoding.md R96. -/
def Instr.opcode : Instr → Byte
  | .ldaImm _ => 0xA9
  | .ldaZp _ => 0xA5
  | .ldaZpX _ => 0xB5
  | .ldaIndX _ => 0xA1
  | .ldaIndY _ => 0xB1
  | .ldaAbs _ => 0xAD
  | .ldaAbsX _ => 0xBD
  | .ldaAbsY _ => 0xB9
  | .ldxImm _ => 0xA2
  | .ldxZp _ => 0xA6
  | .ldxZpY _ => 0xB6
  | .ldxAbs _ => 0xAE
  | .ldxAbsY _ => 0xBE
  | .ldyImm _ => 0xA0
  | .ldyZp _ => 0xA4
  | .ldyZpX _ => 0xB4
  | .ldyAbs _ => 0xAC
  | .ldyAbsX _ => 0xBC
  | .staZp _ => 0x85
  | .staZpX _ => 0x95
  | .staIndX _ => 0x81
  | .staIndY _ => 0x91
  | .staAbs _ => 0x8D
  | .staAbsX _ => 0x9D
  | .staAbsY _ => 0x99
  | .stxZp _ => 0x86
  | .stxZpY _ => 0x96
  | .stxAbs _ => 0x8E
  | .styZp _ => 0x84
  | .styZpX _ => 0x94
  | .styAbs _ => 0x8C
  | .tax => 0xAA
  | .tay => 0xA8
  | .txa => 0x8A
  | .tya => 0x98
  | .tsx => 0xBA
  | .txs => 0x9A
  | .adcImm _ => 0x69
  | .adcZp _ => 0x65
  | .adcZpX _ => 0x75
  | .adcIndX _ => 0x61
  | .adcIndY _ => 0x71
  | .adcAbs _ => 0x6D
  | .adcAbsX _ => 0x7D
  | .adcAbsY _ => 0x79
  | .sbcImm _ => 0xE9
  | .sbcZp _ => 0xE5
  | .sbcZpX _ => 0xF5
  | .sbcIndX _ => 0xE1
  | .sbcIndY _ => 0xF1
  | .sbcAbs _ => 0xED
  | .sbcAbsX _ => 0xFD
  | .sbcAbsY _ => 0xF9
  | .andImm _ => 0x29
  | .andZp _ => 0x25
  | .andZpX _ => 0x35
  | .andIndX _ => 0x21
  | .andIndY _ => 0x31
  | .andAbs _ => 0x2D
  | .andAbsX _ => 0x3D
  | .andAbsY _ => 0x39
  | .oraImm _ => 0x09
  | .oraZp _ => 0x05
  | .oraZpX _ => 0x15
  | .oraIndX _ => 0x01
  | .oraIndY _ => 0x11
  | .oraAbs _ => 0x0D
  | .oraAbsX _ => 0x1D
  | .oraAbsY _ => 0x19
  | .eorImm _ => 0x49
  | .eorZp _ => 0x45
  | .eorZpX _ => 0x55
  | .eorIndX _ => 0x41
  | .eorIndY _ => 0x51
  | .eorAbs _ => 0x4D
  | .eorAbsX _ => 0x5D
  | .eorAbsY _ => 0x59
  | .aslAcc => 0x0A
  | .aslZp _ => 0x06
  | .aslZpX _ => 0x16
  | .aslAbs _ => 0x0E
  | .aslAbsX _ => 0x1E
  | .lsrAcc => 0x4A
  | .lsrZp _ => 0x46
  | .lsrZpX _ => 0x56
  | .lsrAbs _ => 0x4E
  | .lsrAbsX _ => 0x5E
  | .rolAcc => 0x2A
  | .rolZp _ => 0x26
  | .rolZpX _ => 0x36
  | .rolAbs _ => 0x2E
  | .rolAbsX _ => 0x3E
  | .rorAcc => 0x6A
  | .rorZp _ => 0x66
  | .rorZpX _ => 0x76
  | .rorAbs _ => 0x6E
  | .rorAbsX _ => 0x7E
  | .bitZp _ => 0x24
  | .bitAbs _ => 0x2C
  | .incZp _ => 0xE6
  | .incZpX _ => 0xF6
  | .incAbs _ => 0xEE
  | .incAbsX _ => 0xFE
  | .decZp _ => 0xC6
  | .decZpX _ => 0xD6
  | .decAbs _ => 0xCE
  | .decAbsX _ => 0xDE
  | .inx => 0xE8
  | .iny => 0xC8
  | .dex => 0xCA
  | .dey => 0x88
  | .cmpImm _ => 0xC9
  | .cmpZp _ => 0xC5
  | .cmpZpX _ => 0xD5
  | .cmpIndX _ => 0xC1
  | .cmpIndY _ => 0xD1
  | .cmpAbs _ => 0xCD
  | .cmpAbsX _ => 0xDD
  | .cmpAbsY _ => 0xD9
  | .cpxImm _ => 0xE0
  | .cpxZp _ => 0xE4
  | .cpxAbs _ => 0xEC
  | .cpyImm _ => 0xC0
  | .cpyZp _ => 0xC4
  | .cpyAbs _ => 0xCC
  | .jmpAbs _ => 0x4C
  | .jmpInd _ => 0x6C
  | .jsrAbs _ => 0x20
  | .rts => 0x60
  | .bcc _ => 0x90
  | .bcs _ => 0xB0
  | .beq _ => 0xF0
  | .bmi _ => 0x30
  | .bne _ => 0xD0
  | .bpl _ => 0x10
  | .bvc _ => 0x50
  | .bvs _ => 0x70
  | .pha => 0x48
  | .pla => 0x68
  | .php => 0x08
  | .plp => 0x28
  | .clc => 0x18
  | .sec => 0x38
  | .cli => 0x58
  | .sei => 0x78
  | .cld => 0xD8
  | .sed => 0xF8
  | .clv => 0xB8
  | .nop => 0xEA
  | .brk => 0x00
  | .rti => 0x40

/-- The operand bytes of an operand, in the order they stand after the opcode (30_encoding.md R90, R92; 20_memory.md R65). -/
def Operand.bytes : Operand → List Byte
  | .accumulator | .implied => []
  | .immediate b | .zeroPage b | .zeroPageXIndex b | .zeroPageYIndex b | .relative b | .preIndexIndirect b
  | .postIndexIndirect b => [b]
  | .absolute w | .absoluteXIndex w | .absoluteYIndex w | .indirect w => [loByte w, hiByte w]

/-- The bytes of an instruction: its opcode, then its operand bytes (30_encoding.md R90). -/
def encode (i : Instr) : List Byte := i.opcode :: i.operand.bytes

end Sys2Proof
end

