-- ==== Sys2Proof/Config.lean ====
section
/-! DEFINITION. The named parameters the spec leaves open (00_scope.md R8, 92_eei_decisions.md, table of named
parameters). They are plain data, held by State and changed by no step, so that a claim about every state covers every
setting (log 4). `IRQ_LINE` and `INITIAL_MEMORY` are State's fields `irqLevels` and `mem`. -/

namespace Sys2Proof

/-- `DECIMAL_POLICY` (43_alu.md R216, D9): what ADC and SBC do while P.D = 1. -/
inductive DecimalPolicy where
  /-- ADC and SBC ignore P.D. -/
  | binary
  /-- ADC and SBC with P.D = 1 fault `DecimalRefused`. -/
  | refuse
  deriving DecidableEq, Repr

/-- `ZP_POINTER_WRAP` (41_addressing.md R151, R152, D11): where the high byte of a zero-page pointer at 0xFF is read. -/
inductive ZpPointerWrap where
  /-- The high byte is at (p + 1) mod 65536. -/
  | word16
  /-- The high byte is at (p + 1) mod 256. -/
  | zeropage
  deriving DecidableEq, Repr

/-- `HOST_INTERLEAVE` (20_memory.md R68, D24): whether another owner of memory may access it within a Step. -/
inductive HostInterleave where
  /-- The core has exclusive use of memory for the whole Step. -/
  | none
  /-- Another owner may access memory between any two primitives of one Step. -/
  | perPrimitive
  deriving DecidableEq, Repr

/-- The parameters fixed for one machine. -/
structure Config where
  decimalPolicy : DecimalPolicy
  zpPointerWrap : ZpPointerWrap
  hostInterleave : HostInterleave
  /-- `PC_BOOT_DEFAULT`, not observable (70_reset_and_hazards.md R363). -/
  pcBootDefault : Addr
  deriving DecidableEq, Repr

/-- The spec's default of each parameter (92_eei_decisions.md). -/
def Config.default : Config where
  decimalPolicy := .binary
  zpPointerWrap := .word16
  hostInterleave := .none
  pcBootDefault := 0x0000

end Sys2Proof
end

