-- ==== Sys2Proof/Machine/State.lean ====
section
/-! DEFINITION. The state of the core and the reasons a step can stop (10_state.md; 60_exceptions.md R320). -/

namespace Sys2Proof.Machine

/-- The 8-bit registers a load, store or transfer names: the uniform file {A, X, Y} (10_state.md R25) and the stack
pointer S (R26). -/
inductive Reg where
  | a | x | y | s
  deriving DecidableEq, Repr

/-- The closed enumeration of flags (40_flag_engine.md R124). -/
inductive Flag where
  | c | z | i | d | b | v | n
  deriving DecidableEq, Repr

/-- The three fault reasons of 60_exceptions.md R320; their codes are `Fault.code` (Machine/Ops.lean). -/
inductive Fault where
  /-- Raised by `step` when it fetches one of the 105 undefined opcodes (30_encoding.md R97). Safe: the spec's core halts. -/
  | illegalOpcode (op : Byte)
  /-- Raised by a handler given a mode it has no meaning for (30_encoding.md R98, 41_addressing.md R156). Safe: the spec's
  core halts; no decoded instruction reaches it. -/
  | invalidAddressingMode (mnemonic : Mnemonic) (mode : Mode)
  /-- Raised by ADC and SBC with P.D = 1 under `DECIMAL_POLICY = refuse` (43_alu.md R216). Safe: the spec's core halts. -/
  | decimalRefused (op : Byte)
  deriving DecidableEq, Repr

/-- Why an operation is declined with the state kept. -/
inductive Refusal where
  /-- Raised by an arm of `exec` for an instruction that has no meaning yet; no arm is one. Safe. -/
  | notModelled (mnemonic : String)
  /-- Raised by `step` and `boot` on a halted core, with the recorded reason: no Step is enabled (30_encoding.md R103) and
  boot is refused (70_reset_and_hazards.md R364). Safe: the spec's core is stuck (log 7). -/
  | coreHalted (reason : Fault)
  /-- Raised by `loadImage` when the image does not fit (20_memory.md R72). Safe: the spec's loader reports an error. -/
  | imageDoesNotFit
  deriving DecidableEq, Repr

/-- The 64 KiB of memory: the cells that differ from what an unlisted address reads as (`Memory.unlisted`), in the canonical
form `Memory.wf`, both in Machine/Ops.lean (20_memory.md R60, R73; log 1). -/
abbrev Memory := List Host.Cell

/-- The core's state tuple (10_state.md R20), memory, and the model's own three fields `cfg`, `irqLevels` and `hostWrites`. -/
structure State where
  /-- Accumulator (R22). -/
  a : Byte
  /-- Index register X (R23). -/
  x : Byte
  /-- Index register Y (R24). -/
  y : Byte
  /-- Stack pointer S, an offset in page 0x01 (R26). -/
  sp : Byte
  /-- Status register P (R27); read whole through `State.status`, which reads bit 5 as 1. -/
  p : Byte
  /-- Program counter (R32). -/
  pc : Addr
  /-- The halt record (R37). -/
  halted : Option Fault
  /-- Memory (20_memory.md R60). -/
  mem : Memory
  /-- The named parameters (00_scope.md R8); no step changes them (log 4). -/
  cfg : Config
  /-- The levels of `IRQ_LINE` the host supplies at the coming instruction boundaries, the next one first, 0 where none is
  listed (60_exceptions.md R327; log 3). The core stores no request (10_state.md R38): this is its input. -/
  irqLevels : List Bool
  /-- The writes of the other owner of memory: one entry for each coming point between two memory primitives of one Step,
  the next point first, each entry's writes in their order; no write where none is listed. Read under
  `HOST_INTERLEAVE = per_primitive` alone (20_memory.md R68, R76; log 5). -/
  hostWrites : List (List (Addr × Byte))
  deriving DecidableEq, Repr

/-- What an operation of the machine answers. -/
abbrev Result := Host.Outcome State Fault Refusal

/-- The machine after construction and boot (10_state.md R40, 70_reset_and_hazards.md R366), over a memory that lists nothing:
PC is the word at 0xFFFC, which is 0x0000 there (log 1, log 2). -/
def State.reset : State where
  a := 0x00
  x := 0x00
  y := 0x00
  sp := 0xFF
  p := 0x20
  pc := 0x0000
  halted := none
  mem := []
  cfg := Config.default
  irqLevels := []
  hostWrites := []

end Sys2Proof.Machine
end

