-- ==== Sys2Proof/Machine/Flags.lean ====
section
/-! DEFINITION. The status register (10_state.md R27 to R31) and the status flag arithmetic unit (40_flag_engine.md R120 to
R125): pure functions on the byte P, and the operations of State over them. -/

namespace Sys2Proof.Machine

/-! ### The byte P -/

/-- The bit of each flag in P (10_state.md R27). -/
def Flag.bit : Flag → Nat
  | .c => 0
  | .z => 1
  | .i => 2
  | .d => 3
  | .b => 4
  | .v => 6
  | .n => 7

/-- The byte with the flag's bit alone. -/
def Flag.mask (f : Flag) : Byte := BitVec.twoPow 8 f.bit

/-- `P[5] <- 1`, with which every write of P ends (10_state.md R27). -/
def forceReserved (p : Byte) : Byte := p ||| 0x20

/-- The flag `f` of the byte `p`. -/
def getFlag (f : Flag) (p : Byte) : Bool := p.getLsbD f.bit

/-- `P.f <- b`: one bit is written, the others are left, and bit 5 is forced (00_scope.md R10, 10_state.md R27). -/
def putFlag (f : Flag) (b : Bool) (p : Byte) : Byte :=
  forceReserved (if b then p ||| f.mask else p &&& ~~~f.mask)

/-! ### The flag engine -/

/-- `ZN(v)`: Z says that v is 0, N is bit 7 of v (40_flag_engine.md R122). -/
def putZN (v p : Byte) : Byte := putFlag .n v.msb (putFlag .z (v == 0) p)

/-- Carry of the exact sum: bit 8, that is `sum >= 256` (40_flag_engine.md R120). -/
def carryOfSum (sum : Nat) : Bool := decide (256 ≤ sum)

/-- Overflow from the first operand, the unmodified second operand and the wrapped result (40_flag_engine.md R121). -/
def overflowOf (m nv r : Byte) : Bool := ((m ^^^ r) &&& (nv ^^^ r) &&& 0x80) != 0

/-- The wrapped result of the adder routine (40_flag_engine.md R123). -/
def adderResult (m : Byte) (k : Nat) : Byte := BitVec.ofNat 8 (m.toNat + k)

/-- What the adder routine `AddCore(m, k, nv)` leaves in P: C, V, Z and N, in this order (40_flag_engine.md R123). -/
def adderFlags (m : Byte) (k : Nat) (nv p : Byte) : Byte :=
  let r := adderResult m k
  putZN r (putFlag .v (overflowOf m nv r) (putFlag .c (carryOfSum (m.toNat + k)) p))

/-- Compare's adder operand `(~M) + 1 = 256 - M`, not reduced mod 256 (44_control_flow.md R240). -/
def negatedOperand (m : Byte) : Nat := (~~~m).toNat + 1

/-! ### The status register in State -/

/-- P as an instruction reads it whole: bit 5 reads 1 (10_state.md R27). -/
def State.status (s : State) : Byte := forceReserved s.p

/-- `P <- v | 0x20` (10_state.md R27, 45_stack.md R276). -/
def State.setStatus (s : State) (v : Byte) : State := { s with p := forceReserved v }

/-- `P.f` (00_scope.md R10). -/
def State.flag (s : State) (f : Flag) : Bool := getFlag f s.p

/-- `P.f <- b` (00_scope.md R10). -/
def State.setFlag (s : State) (f : Flag) (b : Bool) : State := { s with p := putFlag f b s.p }

/-- `ZN(v)` (40_flag_engine.md R122). -/
def State.setZN (s : State) (v : Byte) : State := { s with p := putZN v s.p }

/-- The carry flag as the number 0 or 1 that ADC and SBC add. -/
def State.carryIn (s : State) : Nat := (s.flag .c).toNat

/-- The flags of `AddCore(m, k, nv)` (40_flag_engine.md R123). -/
def State.setAdderFlags (s : State) (m : Byte) (k : Nat) (nv : Byte) : State := { s with p := adderFlags m k nv s.p }

/-- `Compare(R, M)`: the adder's flags for R and the negated operand; the sum is discarded (44_control_flow.md R240). -/
def State.setCompareFlags (s : State) (r m : Byte) : State :=
  s.setAdderFlags r (negatedOperand m) (BitVec.ofNat 8 (negatedOperand m))

end Sys2Proof.Machine
end

