-- ==== Sys2Proof/Machine/Ops.lean ====
section
/-! DEFINITION. The named operations over memory, registers, PC and the stack, and taking an exception and returning from
it (20_memory.md, 10_state.md, 45_stack.md, 60_exceptions.md). -/

namespace Sys2Proof.Machine

/-! ### Memory -/

/-- What an address that is not listed reads as: `INITIAL_MEMORY` where nothing was loaded or written (20_memory.md R73). The
spec gives no value. DESIGN CHOICE: 0x00, unsafe for a claim about the reset state alone; a claim about every state covers
every memory (log 1). -/
def Memory.unlisted : Byte := 0x00

/-- `MemRead(addr, 1)` (20_memory.md R61). -/
def Memory.read : Memory → Nat → Byte
  | [], _ => Memory.unlisted
  | (k, v) :: m, a => if k = a then v else Memory.read m a

/-- Memory with no cell listed at an address. -/
def Memory.erase (m : Memory) (a : Nat) : Memory := m.filter fun c => c.1 != a

/-- Memory with a cell listed at an address, in its place by address. -/
def Memory.insert : Memory → Nat → Byte → Memory
  | [], a, v => [(a, v)]
  | (k, u) :: m, a, v =>
    if a < k then (a, v) :: (k, u) :: m else if a = k then (a, v) :: m else (k, u) :: Memory.insert m a v

/-- `MemWrite(addr, 1, v)` (20_memory.md R61), in the canonical form: a byte that an unlisted address reads as is not
listed. -/
def Memory.write (m : Memory) (a : Nat) (v : Byte) : Memory :=
  if v = Memory.unlisted then m.erase a else m.insert a v

/-- Several writes, in their order. -/
def Memory.writeEach : Memory → List (Addr × Byte) → Memory
  | m, [] => m
  | m, (ad, v) :: ws => (m.write ad.toNat v).writeEach ws

/-- The canonical form from address `lo` up: addresses strictly rise and lie in the 64 KiB, and no listed byte is the
unlisted one. -/
def Memory.wfFrom : Nat → Memory → Bool
  | _, [] => true
  | lo, (k, v) :: m => decide (lo ≤ k) && decide (k < 65536) && v != Memory.unlisted && Memory.wfFrom (k + 1) m

/-- The canonical form of memory (20_memory.md R60). -/
def Memory.wf (m : Memory) : Bool := m.wfFrom 0

/-- `MemRead(addr, 1)` (20_memory.md R61, R69: a read changes nothing). -/
def State.read (s : State) (ad : Addr) : Byte := s.mem.read ad.toNat

/-- `MemWrite(addr, 1, v)` (20_memory.md R61, R69: every address is writable). -/
def State.write (s : State) (ad : Addr) (v : Byte) : State := { s with mem := s.mem.write ad.toNat v }

/-- `MemRead(addr, 2)`, little-endian, the second byte at `(addr + 1) mod 65536` (20_memory.md R62, R63). -/
def State.readWord (s : State) (ad : Addr) : Addr := wordOfBytes (s.read ad) (s.read (ad + 1))

/-- Consecutive bytes written from an address up, mod 65536. -/
def State.writeBytes (s : State) (ad : Addr) : List Byte → State
  | [] => s
  | v :: vs => (s.write ad v).writeBytes (ad + 1) vs

/-! ### Between two primitives of one Step

A Step is a sequence of memory primitives: byte reads, word reads and byte writes. Each is atomic, and under
`HOST_INTERLEAVE = per_primitive` the other owner of memory may write between any two of them (20_memory.md R68, R76). A
meaning is entered after the fetch's last primitive and passes `hostGap` before each primitive it makes. -/

/-- What the other owner writes at the coming point between two primitives: nothing under `none`. -/
def State.hostBurst (s : State) : List (Addr × Byte) :=
  match s.cfg.hostInterleave with
  | .none => []
  | .perPrimitive => s.hostWrites.headD []

/-- The writes left for the points after that one; under `none` the list is not read. -/
def State.hostRest (s : State) : List (List (Addr × Byte)) :=
  match s.cfg.hostInterleave with
  | .none => s.hostWrites
  | .perPrimitive => s.hostWrites.tail

/-- A point between two memory primitives of one Step: the other owner's writes are made (20_memory.md R68, R76; log 5). -/
def State.hostGap (s : State) : State := { s with mem := s.mem.writeEach s.hostBurst, hostWrites := s.hostRest }

/-- `n` such points, one after the other. -/
def State.hostGaps (s : State) : Nat → State
  | 0 => s
  | n + 1 => (s.hostGaps n).hostGap

/-! ### Widening -/

/-- `zext_16(v)` (00_scope.md R9). -/
def zext16 (v : Byte) : Addr := v.setWidth 16

/-- `sext_16(v)` (00_scope.md R9). -/
def sext16 (v : Byte) : Addr := v.signExtend 16

/-! ### Zero-page pointers -/

/-- The word a zero-page pointer designates: the low byte at `p`, the high byte at `(p + 1) mod 65536` or
`(p + 1) mod 256`, by `ZP_POINTER_WRAP`: one word read, or two byte reads (41_addressing.md R151, R152). -/
def State.readPointer (s : State) (p : Byte) : Addr :=
  match s.cfg.zpPointerWrap with
  | .word16 => s.hostGap.readWord (zext16 p)
  | .zeropage => wordOfBytes (s.hostGap.read (zext16 p)) (s.hostGap.hostGap.read (zext16 (p + 1)))

/-! ### Registers -/

/-- Read a register of the file (10_state.md R25, R26). -/
def State.reg (s : State) : Reg → Byte
  | .a => s.a
  | .x => s.x
  | .y => s.y
  | .s => s.sp

/-- Write a register of the file (10_state.md R25, R26). -/
def State.setReg (s : State) (r : Reg) (v : Byte) : State :=
  match r with
  | .a => { s with a := v }
  | .x => { s with x := v }
  | .y => { s with y := v }
  | .s => { s with sp := v }

/-- `PC <- target` (00_scope.md R10). -/
def State.setPC (s : State) (target : Addr) : State := { s with pc := target }

/-- `advance(mode)`: `PC <- (PC + 1 + len(mode)) mod 65536` (10_state.md R33). -/
def State.advance (s : State) (m : Mode) : State := s.setPC (s.pc + BitVec.ofNat 16 (1 + m.len))

/-! ### Stack -/

/-- The address the stack pointer value `sp` designates, `0x0100 | S` (10_state.md R26). -/
def stackAddr (sp : Byte) : Addr := 0x0100 ||| zext16 sp

/-- `Push(v)` (45_stack.md R270). -/
def State.push (s : State) (v : Byte) : State := (s.write (stackAddr s.sp) v).setReg .s (s.sp - 1)

/-- The state `Pop()` leaves: S is incremented (45_stack.md R271). -/
def State.popped (s : State) : State := s.setReg .s (s.sp + 1)

/-- The byte `Pop()` returns: the one at `0x0100 | S` after the increment (45_stack.md R271). -/
def State.popValue (s : State) : Byte := s.read (stackAddr (s.sp + 1))

/-- Push a 16-bit value as two bytes, the high byte first; the two pushes are not atomic as a pair (20_memory.md R64, R68). -/
def State.pushWord (s : State) (w : Addr) : State := (s.push (hiByte w)).hostGap.push (loByte w)

/-- The 16-bit value of two pops, the low byte first (44_control_flow.md R246, 46_flags_and_system.md R299). -/
def State.popWordValue (s : State) : Addr := wordOfBytes s.popValue s.popped.hostGap.popValue

/-- The state two pops leave. -/
def State.poppedWord (s : State) : State := s.popped.hostGap.popped

/-! ### Taking an exception and returning from it -/

/-- The address of the BRK and IRQ vector (60_exceptions.md R331). -/
def irqVector : Addr := 0xFFFE

/-- The address of the reset vector (20_memory.md R70, 70_reset_and_hazards.md R361). -/
def resetVector : Addr := 0xFFFC

/-- `InterruptEntry(ret, b)`, the push path of BRK and IRQ (60_exceptions.md R330): push `ret`, write B, push P, set I, and
load PC from the vector, which is read after the pushes (R331). -/
def State.interruptEntry (s : State) (ret : Addr) (b : Bool) : State :=
  let s1 := (s.pushWord ret).setFlag .b b
  let s2 := ((s1.hostGap.push s1.status).setFlag .i true).hostGap
  s2.setPC (s2.readWord irqVector)

/-- `IrqEntry()`: the entry of an IRQ, a Step of its own, whose return address is the instruction not yet fetched
(60_exceptions.md R330). -/
def State.irqEntry (s : State) : State := s.interruptEntry s.pc false

/-- The return from an exception: pop P with bit 5 forced, then the return address, and go there exactly
(46_flags_and_system.md R299, 60_exceptions.md R333). -/
def State.returnFromInterrupt (s : State) : State :=
  let s1 := (s.popped.setStatus s.popValue).hostGap
  s1.poppedWord.setPC s1.popWordValue

/-! ### The IRQ line -/

/-- The level of `IRQ_LINE` at this instruction boundary (60_exceptions.md R327; log 3). -/
def State.irqLine (s : State) : Bool := s.irqLevels.headD false

/-- The state after this boundary's level has been consumed; the level is not latched (60_exceptions.md R327). -/
def State.passBoundary (s : State) : State := { s with irqLevels := s.irqLevels.tail }

/-- The IRQ gate of a running core: `IRQ_LINE = 1` and `P.I = 0` (60_exceptions.md R327). -/
def State.takesIrq (s : State) : Bool := s.irqLine && !s.flag .i

/-! ### Faults -/

/-- The code of each fault reason (60_exceptions.md R320). -/
def Fault.code : Fault → Nat
  | .illegalOpcode _ => 1
  | .invalidAddressingMode _ _ => 2
  | .decimalRefused _ => 3

/-- `halted <- Fault(reason)`: what a fault leaves, the state before the Step plus the record (60_exceptions.md R321, R322). -/
def State.haltWith (s : State) (r : Fault) : State := { s with halted := some r }

/-- `DecimalCheck(op)`, then the rest of ADC or SBC (43_alu.md R216). -/
def decimalCheck (op : Byte) (s : State) (k : Result) : Result :=
  if s.flag .d = true ∧ s.cfg.decimalPolicy = .refuse then .fault (.decimalRefused op) else k

end Sys2Proof.Machine
end

