-- ==== Sys2Proof/Machine/Operands.lean ====
section
/-! DEFINITION. The addressing mode resolver (41_addressing.md): the effective address, the operand value and the operand
location of each of the 13 modes, and how many memory primitives each takes (R155). PC is the address of the opcode
(10_state.md R32). The operand bytes are those the instruction carries; a fetched instruction carries the bytes at PC + 1 and
PC + 2 (log 8). -/

namespace Sys2Proof.Machine

/-- `Resolve(mode)`: an effective address, or none for `NoAddress` (41_addressing.md R140 to R152). It reads PC, X, Y and memory
and writes nothing. -/
def resolve (o : Operand) (s : State) : Option Addr :=
  match o with
  | .accumulator => none
  | .implied => none
  | .immediate _ => some (s.pc + 1)
  | .relative _ => some (s.pc + 1)
  | .zeroPage zp => some (zext16 zp)
  | .zeroPageXIndex zp => some (zext16 (zp + s.x))
  | .zeroPageYIndex zp => some (zext16 (zp + s.y))
  | .absolute w => some w
  | .absoluteXIndex w => some (w + zext16 s.x)
  | .absoluteYIndex w => some (w + zext16 s.y)
  | .indirect ptr => some (s.hostGap.readWord ptr)
  | .preIndexIndirect zp => some (s.readPointer (zp + s.x))
  | .postIndexIndirect zp => some (s.readPointer zp + zext16 s.y)

/-- The pointer reads of the resolver, as memory primitives: a word read, or the two byte reads of a zero-page pointer that
wraps in page zero (41_addressing.md R150 to R152, R155). -/
def pointerReads (c : Config) : Operand → Nat
  | .indirect _ => 1
  | .preIndexIndirect _ | .postIndexIndirect _ =>
    match c.zpPointerWrap with
    | .word16 => 1
    | .zeropage => 2
  | _ => 0

/-- The pointer reads and the operand read (41_addressing.md R153; 44_control_flow.md R247 for a displacement). -/
def operandReads (c : Config) (o : Operand) : Nat :=
  match o with
  | .accumulator | .implied => 0
  | o => pointerReads c o + 1

/-- The state at the last pointer read of the resolver. -/
def State.afterPointer (s : State) (o : Operand) : State := s.hostGaps (pointerReads s.cfg o)

/-- The state at the operand read. -/
def State.afterRead (s : State) (o : Operand) : State := s.hostGaps (operandReads s.cfg o)

/-- The operand `M = MemRead(EA(mode), 1)` (41_addressing.md R153). The byte at PC + 1 of an Immediate or Relative instruction
is the one it carries. -/
def operandValue (o : Operand) (s : State) : Option Byte :=
  match o with
  | .immediate b | .relative b => some b
  | o => (resolve o s).map (s.afterRead o).read

/-- The location of a shift's or rotate's operand, `Loc(mode)` (41_addressing.md R154). -/
inductive Location where
  | acc
  | mem (ea : Addr)
  deriving DecidableEq, Repr

/-- `Loc(mode)`: A where the resolver gives no address, else the byte at the effective address (41_addressing.md R154). -/
def locate (o : Operand) (s : State) : Location :=
  match resolve o s with
  | none => .acc
  | some ea => .mem ea

/-- The point before an access of a location; the accumulator is no memory (20_memory.md R68). -/
def State.gapAt (s : State) : Location → State
  | .acc => s
  | .mem _ => s.hostGap

/-- `Read(loc)` (43_alu.md section 3). -/
def State.readLoc (s : State) : Location → Byte
  | .acc => s.a
  | .mem ea => s.read ea

/-- `Write(loc, v)` (43_alu.md section 3). -/
def State.writeLoc (s : State) (l : Location) (v : Byte) : State :=
  match l with
  | .acc => s.setReg .a v
  | .mem ea => s.write ea v

/-! ### Handing an operand to a handler

A handler given a mode its mnemonic has no meaning for raises `InvalidAddressingMode` before any change (30_encoding.md R98,
41_addressing.md R156). No instruction of `Instr` is such a form. -/

/-- The fault of a form no opcode selects. -/
def invalidMode (mn : Mnemonic) (o : Operand) : Result := .fault (.invalidAddressingMode mn o.mode)

/-- Go on with the effective address. -/
def withAddress (mn : Mnemonic) (o : Operand) (s : State) (k : Addr → Result) : Result :=
  if mn.allows o.mode then
    match resolve o s with
    | some ea => k ea
    | none => invalidMode mn o
  else invalidMode mn o

/-- Go on with the operand's value. -/
def withValue (mn : Mnemonic) (o : Operand) (s : State) (k : Byte → Result) : Result :=
  if mn.allows o.mode then
    match operandValue o s with
    | some m => k m
    | none => invalidMode mn o
  else invalidMode mn o

/-- Go on with the operand's location. -/
def withLocation (mn : Mnemonic) (o : Operand) (s : State) (k : Location → Result) : Result :=
  if mn.allows o.mode then k (locate o s) else invalidMode mn o

end Sys2Proof.Machine
end

