-- ==== Sys2Proof/Machine/Alu.lean ====
section
/-! DEFINITION. ALU instructions: add, subtract, logic, shifts, BIT, increment and decrement (43_alu.md R200 to R216). -/

namespace Sys2Proof.Machine

/-! ### Add and subtract -/

/-- ADC and SBC after the decimal check: A becomes the adder's result for A, the operand `nv` and the carry; `nv` is the
memory operand as `f` transforms it (43_alu.md R200, R201; 40_flag_engine.md R123). -/
def addWithCarry (mn : Mnemonic) (f : Byte → Byte) (op : Byte) (o : Operand) (s : State) : Result :=
  decimalCheck op s <| withValue mn o s fun m =>
    let nv := f m
    let k := nv.toNat + s.carryIn
    .next ((((s.afterRead o).setAdderFlags s.a k nv).setReg .a (adderResult s.a k)).advance o.mode)

/-- ADC: A + M + C (43_alu.md R200). -/
def handleAdc (op : Byte) (o : Operand) (s : State) : Result := addWithCarry .adc (fun m => m) op o s

def execAdcImm (imm : Byte) (s : State) : Result := handleAdc 0x69 (.immediate imm) s
def execAdcZp (zp : Byte) (s : State) : Result := handleAdc 0x65 (.zeroPage zp) s
def execAdcZpX (zp : Byte) (s : State) : Result := handleAdc 0x75 (.zeroPageXIndex zp) s
def execAdcIndX (zp : Byte) (s : State) : Result := handleAdc 0x61 (.preIndexIndirect zp) s
def execAdcIndY (zp : Byte) (s : State) : Result := handleAdc 0x71 (.postIndexIndirect zp) s
def execAdcAbs (addr : Addr) (s : State) : Result := handleAdc 0x6D (.absolute addr) s
def execAdcAbsX (addr : Addr) (s : State) : Result := handleAdc 0x7D (.absoluteXIndex addr) s
def execAdcAbsY (addr : Addr) (s : State) : Result := handleAdc 0x79 (.absoluteYIndex addr) s

/-- SBC: the one's complement of M is fed to the adder (43_alu.md R201). -/
def handleSbc (op : Byte) (o : Operand) (s : State) : Result := addWithCarry .sbc (fun m => ~~~m) op o s

def execSbcImm (imm : Byte) (s : State) : Result := handleSbc 0xE9 (.immediate imm) s
def execSbcZp (zp : Byte) (s : State) : Result := handleSbc 0xE5 (.zeroPage zp) s
def execSbcZpX (zp : Byte) (s : State) : Result := handleSbc 0xF5 (.zeroPageXIndex zp) s
def execSbcIndX (zp : Byte) (s : State) : Result := handleSbc 0xE1 (.preIndexIndirect zp) s
def execSbcIndY (zp : Byte) (s : State) : Result := handleSbc 0xF1 (.postIndexIndirect zp) s
def execSbcAbs (addr : Addr) (s : State) : Result := handleSbc 0xED (.absolute addr) s
def execSbcAbsX (addr : Addr) (s : State) : Result := handleSbc 0xFD (.absoluteXIndex addr) s
def execSbcAbsY (addr : Addr) (s : State) : Result := handleSbc 0xF9 (.absoluteYIndex addr) s

/-! ### Bitwise logic -/

/-- A becomes `f A M`; Z and N from it (43_alu.md section 2). -/
def logic (mn : Mnemonic) (f : Byte → Byte → Byte) (o : Operand) (s : State) : Result :=
  withValue mn o s fun m => .next ((((s.afterRead o).setReg .a (f s.a m)).setZN (f s.a m)).advance o.mode)

/-- AND: bitwise and (43_alu.md R202). -/
def handleAnd (o : Operand) (s : State) : Result := logic .and (fun a m => a &&& m) o s

def execAndImm (imm : Byte) (s : State) : Result := handleAnd (.immediate imm) s
def execAndZp (zp : Byte) (s : State) : Result := handleAnd (.zeroPage zp) s
def execAndZpX (zp : Byte) (s : State) : Result := handleAnd (.zeroPageXIndex zp) s
def execAndIndX (zp : Byte) (s : State) : Result := handleAnd (.preIndexIndirect zp) s
def execAndIndY (zp : Byte) (s : State) : Result := handleAnd (.postIndexIndirect zp) s
def execAndAbs (addr : Addr) (s : State) : Result := handleAnd (.absolute addr) s
def execAndAbsX (addr : Addr) (s : State) : Result := handleAnd (.absoluteXIndex addr) s
def execAndAbsY (addr : Addr) (s : State) : Result := handleAnd (.absoluteYIndex addr) s

/-- ORA: bitwise or (43_alu.md R203). -/
def handleOra (o : Operand) (s : State) : Result := logic .ora (fun a m => a ||| m) o s

def execOraImm (imm : Byte) (s : State) : Result := handleOra (.immediate imm) s
def execOraZp (zp : Byte) (s : State) : Result := handleOra (.zeroPage zp) s
def execOraZpX (zp : Byte) (s : State) : Result := handleOra (.zeroPageXIndex zp) s
def execOraIndX (zp : Byte) (s : State) : Result := handleOra (.preIndexIndirect zp) s
def execOraIndY (zp : Byte) (s : State) : Result := handleOra (.postIndexIndirect zp) s
def execOraAbs (addr : Addr) (s : State) : Result := handleOra (.absolute addr) s
def execOraAbsX (addr : Addr) (s : State) : Result := handleOra (.absoluteXIndex addr) s
def execOraAbsY (addr : Addr) (s : State) : Result := handleOra (.absoluteYIndex addr) s

/-- EOR: bitwise exclusive or (43_alu.md R204). -/
def handleEor (o : Operand) (s : State) : Result := logic .eor (fun a m => a ^^^ m) o s

def execEorImm (imm : Byte) (s : State) : Result := handleEor (.immediate imm) s
def execEorZp (zp : Byte) (s : State) : Result := handleEor (.zeroPage zp) s
def execEorZpX (zp : Byte) (s : State) : Result := handleEor (.zeroPageXIndex zp) s
def execEorIndX (zp : Byte) (s : State) : Result := handleEor (.preIndexIndirect zp) s
def execEorIndY (zp : Byte) (s : State) : Result := handleEor (.postIndexIndirect zp) s
def execEorAbs (addr : Addr) (s : State) : Result := handleEor (.absolute addr) s
def execEorAbsX (addr : Addr) (s : State) : Result := handleEor (.absoluteXIndex addr) s
def execEorAbsY (addr : Addr) (s : State) : Result := handleEor (.absoluteYIndex addr) s

/-! ### Shifts and rotates -/

/-- Read the location, C from the old value by `out`, write the value `res` gives for the old value and the old carry, Z and N
from it (43_alu.md section 3). The read and the write of a memory location are two primitives (20_memory.md R68, R79). -/
def shift (mn : Mnemonic) (out : Byte → Bool) (res : Byte → Bool → Byte) (o : Operand) (s : State) : Result :=
  withLocation mn o s fun l =>
    let s1 := (s.afterPointer o).gapAt l
    let v := s1.readLoc l
    let r := res v (s.flag .c)
    .next (((((s1.gapAt l).setFlag .c (out v)).writeLoc l r).setZN r).advance o.mode)

/-- The value a left shift gives; `b` enters at bit 0. -/
def shiftLeft (v : Byte) (b : Bool) : Byte := (v <<< 1) ||| (if b then 0x01 else 0x00)

/-- The value a right shift gives; `b` enters at bit 7. -/
def shiftRight (v : Byte) (b : Bool) : Byte := (v >>> 1) ||| (if b then 0x80 else 0x00)

/-- ASL: shift left, 0 enters (43_alu.md R205). -/
def handleAsl (o : Operand) (s : State) : Result :=
  shift .asl (fun v => v.getLsbD 7) (fun v _ => shiftLeft v false) o s

def execAslAcc (s : State) : Result := handleAsl .accumulator s
def execAslZp (zp : Byte) (s : State) : Result := handleAsl (.zeroPage zp) s
def execAslZpX (zp : Byte) (s : State) : Result := handleAsl (.zeroPageXIndex zp) s
def execAslAbs (addr : Addr) (s : State) : Result := handleAsl (.absolute addr) s
def execAslAbsX (addr : Addr) (s : State) : Result := handleAsl (.absoluteXIndex addr) s

/-- LSR: shift right, 0 enters (43_alu.md R206). -/
def handleLsr (o : Operand) (s : State) : Result :=
  shift .lsr (fun v => v.getLsbD 0) (fun v _ => shiftRight v false) o s

def execLsrAcc (s : State) : Result := handleLsr .accumulator s
def execLsrZp (zp : Byte) (s : State) : Result := handleLsr (.zeroPage zp) s
def execLsrZpX (zp : Byte) (s : State) : Result := handleLsr (.zeroPageXIndex zp) s
def execLsrAbs (addr : Addr) (s : State) : Result := handleLsr (.absolute addr) s
def execLsrAbsX (addr : Addr) (s : State) : Result := handleLsr (.absoluteXIndex addr) s

/-- ROL: rotate left through C (43_alu.md R207). -/
def handleRol (o : Operand) (s : State) : Result :=
  shift .rol (fun v => v.getLsbD 7) (fun v c => shiftLeft v c) o s

def execRolAcc (s : State) : Result := handleRol .accumulator s
def execRolZp (zp : Byte) (s : State) : Result := handleRol (.zeroPage zp) s
def execRolZpX (zp : Byte) (s : State) : Result := handleRol (.zeroPageXIndex zp) s
def execRolAbs (addr : Addr) (s : State) : Result := handleRol (.absolute addr) s
def execRolAbsX (addr : Addr) (s : State) : Result := handleRol (.absoluteXIndex addr) s

/-- ROR: rotate right through C (43_alu.md R208). -/
def handleRor (o : Operand) (s : State) : Result :=
  shift .ror (fun v => v.getLsbD 0) (fun v c => shiftRight v c) o s

def execRorAcc (s : State) : Result := handleRor .accumulator s
def execRorZp (zp : Byte) (s : State) : Result := handleRor (.zeroPage zp) s
def execRorZpX (zp : Byte) (s : State) : Result := handleRor (.zeroPageXIndex zp) s
def execRorAbs (addr : Addr) (s : State) : Result := handleRor (.absolute addr) s
def execRorAbsX (addr : Addr) (s : State) : Result := handleRor (.absoluteXIndex addr) s

/-! ### BIT -/

/-- BIT: Z from A and M, N and V copied from M, nothing stored (43_alu.md R209). -/
def handleBit (o : Operand) (s : State) : Result :=
  withValue .bit o s fun m =>
    .next (((((s.afterRead o).setFlag .z (s.a &&& m == 0)).setFlag .n (m.getLsbD 7)).setFlag .v (m.getLsbD 6)).advance
      o.mode)

def execBitZp (zp : Byte) (s : State) : Result := handleBit (.zeroPage zp) s
def execBitAbs (addr : Addr) (s : State) : Result := handleBit (.absolute addr) s

/-! ### Increment and decrement -/

/-- Read the byte at the effective address, write back `f` of it, Z and N from it (43_alu.md section 5). The read and the write
are two primitives (20_memory.md R68, R79). -/
def modifyMemory (mn : Mnemonic) (f : Byte → Byte) (o : Operand) (s : State) : Result :=
  withAddress mn o s fun ea =>
    let s1 := (s.afterPointer o).hostGap
    let r := f (s1.read ea)
    .next (((s1.hostGap.write ea r).setZN r).advance o.mode)

/-- A register becomes `f` of itself, Z and N from it (43_alu.md R212 to R215). -/
def modifyRegister (f : Byte → Byte) (r : Reg) (s : State) : Result :=
  .next (((s.setReg r (f (s.reg r))).setZN (f (s.reg r))).advance .implied)

/-- INC: memory + 1 (43_alu.md R210). -/
def handleInc (o : Operand) (s : State) : Result := modifyMemory .inc (fun v => v + 1) o s

def execIncZp (zp : Byte) (s : State) : Result := handleInc (.zeroPage zp) s
def execIncZpX (zp : Byte) (s : State) : Result := handleInc (.zeroPageXIndex zp) s
def execIncAbs (addr : Addr) (s : State) : Result := handleInc (.absolute addr) s
def execIncAbsX (addr : Addr) (s : State) : Result := handleInc (.absoluteXIndex addr) s

/-- DEC: memory - 1 (43_alu.md R211). -/
def handleDec (o : Operand) (s : State) : Result := modifyMemory .dec (fun v => v - 1) o s

def execDecZp (zp : Byte) (s : State) : Result := handleDec (.zeroPage zp) s
def execDecZpX (zp : Byte) (s : State) : Result := handleDec (.zeroPageXIndex zp) s
def execDecAbs (addr : Addr) (s : State) : Result := handleDec (.absolute addr) s
def execDecAbsX (addr : Addr) (s : State) : Result := handleDec (.absoluteXIndex addr) s

/-- INX: X + 1 (43_alu.md R212). -/
def execInx (s : State) : Result := modifyRegister (fun v => v + 1) .x s

/-- INY: Y + 1 (43_alu.md R213). -/
def execIny (s : State) : Result := modifyRegister (fun v => v + 1) .y s

/-- DEX: X - 1 (43_alu.md R214). -/
def execDex (s : State) : Result := modifyRegister (fun v => v - 1) .x s

/-- DEY: Y - 1 (43_alu.md R215). -/
def execDey (s : State) : Result := modifyRegister (fun v => v - 1) .y s

end Sys2Proof.Machine
end

