-- ==== Sys2Proof/Machine/Control.lean ====
section
/-! DEFINITION. Compare and control flow (44_control_flow.md R240 to R255). -/

namespace Sys2Proof.Machine

/-! ### Compare -/

/-- Compare a register with the operand: C, V, Z and N, nothing stored (44_control_flow.md R240). -/
def compare (mn : Mnemonic) (r : Reg) (o : Operand) (s : State) : Result :=
  withValue mn o s fun m => .next (((s.afterRead o).setCompareFlags (s.reg r) m).advance o.mode)

/-- CMP: compare A (44_control_flow.md R241). -/
def handleCmp (o : Operand) (s : State) : Result := compare .cmp .a o s

def execCmpImm (imm : Byte) (s : State) : Result := handleCmp (.immediate imm) s
def execCmpZp (zp : Byte) (s : State) : Result := handleCmp (.zeroPage zp) s
def execCmpZpX (zp : Byte) (s : State) : Result := handleCmp (.zeroPageXIndex zp) s
def execCmpIndX (zp : Byte) (s : State) : Result := handleCmp (.preIndexIndirect zp) s
def execCmpIndY (zp : Byte) (s : State) : Result := handleCmp (.postIndexIndirect zp) s
def execCmpAbs (addr : Addr) (s : State) : Result := handleCmp (.absolute addr) s
def execCmpAbsX (addr : Addr) (s : State) : Result := handleCmp (.absoluteXIndex addr) s
def execCmpAbsY (addr : Addr) (s : State) : Result := handleCmp (.absoluteYIndex addr) s

/-- CPX: compare X (44_control_flow.md R242). -/
def handleCpx (o : Operand) (s : State) : Result := compare .cpx .x o s

def execCpxImm (imm : Byte) (s : State) : Result := handleCpx (.immediate imm) s
def execCpxZp (zp : Byte) (s : State) : Result := handleCpx (.zeroPage zp) s
def execCpxAbs (addr : Addr) (s : State) : Result := handleCpx (.absolute addr) s

/-- CPY: compare Y (44_control_flow.md R243). -/
def handleCpy (o : Operand) (s : State) : Result := compare .cpy .y o s

def execCpyImm (imm : Byte) (s : State) : Result := handleCpy (.immediate imm) s
def execCpyZp (zp : Byte) (s : State) : Result := handleCpy (.zeroPage zp) s
def execCpyAbs (addr : Addr) (s : State) : Result := handleCpy (.absolute addr) s

/-! ### Jump, call and return -/

/-- JMP: PC becomes the effective address (44_control_flow.md R244). -/
def handleJmp (o : Operand) (s : State) : Result := withAddress .jmp o s fun ea => .next ((s.afterPointer o).setPC ea)

def execJmpAbs (addr : Addr) (s : State) : Result := handleJmp (.absolute addr) s
def execJmpInd (addr : Addr) (s : State) : Result := handleJmp (.indirect addr) s

/-- JSR: push the address of its last byte, high byte first; PC becomes the target (44_control_flow.md R245). -/
def handleJsr (o : Operand) (s : State) : Result :=
  withAddress .jsr o s fun target => .next (((s.afterPointer o).hostGap.pushWord (s.pc + 2)).setPC target)

def execJsrAbs (addr : Addr) (s : State) : Result := handleJsr (.absolute addr) s

/-- RTS: pop the return address, low byte first, and go to it plus 1 (44_control_flow.md R246). -/
def execRts (s : State) : Result := .next (s.hostGap.poppedWord.setPC (s.hostGap.popWordValue + 1))

/-! ### Branches -/

/-- `Branch(flag, want)` with the displacement the instruction carries, which a branch that is taken reads
(44_control_flow.md R247). -/
def branch (f : Flag) (want : Bool) (disp : Byte) (s : State) : Result :=
  if s.flag f = want then .next ((s.afterRead (.relative disp)).setPC (s.pc + 2 + sext16 disp))
  else .next (s.setPC (s.pc + 2))

/-- BCC: branch if C is 0 (44_control_flow.md R248). -/
def execBcc (disp : Byte) (s : State) : Result := branch .c false disp s

/-- BCS: branch if C is 1 (44_control_flow.md R249). -/
def execBcs (disp : Byte) (s : State) : Result := branch .c true disp s

/-- BEQ: branch if Z is 1 (44_control_flow.md R250). -/
def execBeq (disp : Byte) (s : State) : Result := branch .z true disp s

/-- BMI: branch if N is 1 (44_control_flow.md R251). -/
def execBmi (disp : Byte) (s : State) : Result := branch .n true disp s

/-- BNE: branch if Z is 0 (44_control_flow.md R252). -/
def execBne (disp : Byte) (s : State) : Result := branch .z false disp s

/-- BPL: branch if N is 0 (44_control_flow.md R253). -/
def execBpl (disp : Byte) (s : State) : Result := branch .n false disp s

/-- BVC: branch if V is 0 (44_control_flow.md R254). -/
def execBvc (disp : Byte) (s : State) : Result := branch .v false disp s

/-- BVS: branch if V is 1 (44_control_flow.md R255). -/
def execBvs (disp : Byte) (s : State) : Result := branch .v true disp s

end Sys2Proof.Machine
end

