-- ==== Sys2Proof/Machine/DataMovement.lean ====
section
/-! DEFINITION. Data movement: loads, stores and transfers (42_data_movement.md R170 to R181). A shared operation per kind, the
handler of each mnemonic over its operand, and one meaning per opcode row. -/

namespace Sys2Proof.Machine

/-- Load: read the operand, write the register, update Z and N, advance (42_data_movement.md, source section 4.3). -/
def load (mn : Mnemonic) (r : Reg) (o : Operand) (s : State) : Result :=
  withValue mn o s fun m => .next ((((s.afterRead o).setReg r m).setZN m).advance o.mode)

/-- Store: write the register at the effective address, advance; no flag (42_data_movement.md, source section 4.3). -/
def store (mn : Mnemonic) (r : Reg) (o : Operand) (s : State) : Result :=
  withAddress mn o s fun ea => .next (((s.afterPointer o).hostGap.write ea (s.reg r)).advance o.mode)

/-- Transfer between registers with Z and N from the new value (42_data_movement.md, source section 4.3). -/
def transfer (src dst : Reg) (s : State) : Result :=
  .next (((s.setReg dst (s.reg src)).setZN (s.reg src)).advance .implied)

/-- LDA: A from memory (42_data_movement.md R170). -/
def handleLda (o : Operand) (s : State) : Result := load .lda .a o s

def execLdaImm (imm : Byte) (s : State) : Result := handleLda (.immediate imm) s
def execLdaZp (zp : Byte) (s : State) : Result := handleLda (.zeroPage zp) s
def execLdaZpX (zp : Byte) (s : State) : Result := handleLda (.zeroPageXIndex zp) s
def execLdaIndX (zp : Byte) (s : State) : Result := handleLda (.preIndexIndirect zp) s
def execLdaIndY (zp : Byte) (s : State) : Result := handleLda (.postIndexIndirect zp) s
def execLdaAbs (addr : Addr) (s : State) : Result := handleLda (.absolute addr) s
def execLdaAbsX (addr : Addr) (s : State) : Result := handleLda (.absoluteXIndex addr) s
def execLdaAbsY (addr : Addr) (s : State) : Result := handleLda (.absoluteYIndex addr) s

/-- LDX: X from memory (42_data_movement.md R171). -/
def handleLdx (o : Operand) (s : State) : Result := load .ldx .x o s

def execLdxImm (imm : Byte) (s : State) : Result := handleLdx (.immediate imm) s
def execLdxZp (zp : Byte) (s : State) : Result := handleLdx (.zeroPage zp) s
def execLdxZpY (zp : Byte) (s : State) : Result := handleLdx (.zeroPageYIndex zp) s
def execLdxAbs (addr : Addr) (s : State) : Result := handleLdx (.absolute addr) s
def execLdxAbsY (addr : Addr) (s : State) : Result := handleLdx (.absoluteYIndex addr) s

/-- LDY: Y from memory (42_data_movement.md R172). -/
def handleLdy (o : Operand) (s : State) : Result := load .ldy .y o s

def execLdyImm (imm : Byte) (s : State) : Result := handleLdy (.immediate imm) s
def execLdyZp (zp : Byte) (s : State) : Result := handleLdy (.zeroPage zp) s
def execLdyZpX (zp : Byte) (s : State) : Result := handleLdy (.zeroPageXIndex zp) s
def execLdyAbs (addr : Addr) (s : State) : Result := handleLdy (.absolute addr) s
def execLdyAbsX (addr : Addr) (s : State) : Result := handleLdy (.absoluteXIndex addr) s

/-- STA: A to memory (42_data_movement.md R173). -/
def handleSta (o : Operand) (s : State) : Result := store .sta .a o s

def execStaZp (zp : Byte) (s : State) : Result := handleSta (.zeroPage zp) s
def execStaZpX (zp : Byte) (s : State) : Result := handleSta (.zeroPageXIndex zp) s
def execStaIndX (zp : Byte) (s : State) : Result := handleSta (.preIndexIndirect zp) s
def execStaIndY (zp : Byte) (s : State) : Result := handleSta (.postIndexIndirect zp) s
def execStaAbs (addr : Addr) (s : State) : Result := handleSta (.absolute addr) s
def execStaAbsX (addr : Addr) (s : State) : Result := handleSta (.absoluteXIndex addr) s
def execStaAbsY (addr : Addr) (s : State) : Result := handleSta (.absoluteYIndex addr) s

/-- STX: X to memory (42_data_movement.md R174). -/
def handleStx (o : Operand) (s : State) : Result := store .stx .x o s

def execStxZp (zp : Byte) (s : State) : Result := handleStx (.zeroPage zp) s
def execStxZpY (zp : Byte) (s : State) : Result := handleStx (.zeroPageYIndex zp) s
def execStxAbs (addr : Addr) (s : State) : Result := handleStx (.absolute addr) s

/-- STY: Y to memory (42_data_movement.md R175). -/
def handleSty (o : Operand) (s : State) : Result := store .sty .y o s

def execStyZp (zp : Byte) (s : State) : Result := handleSty (.zeroPage zp) s
def execStyZpX (zp : Byte) (s : State) : Result := handleSty (.zeroPageXIndex zp) s
def execStyAbs (addr : Addr) (s : State) : Result := handleSty (.absolute addr) s

/-- TAX: A to X, Z and N from it (42_data_movement.md R176). -/
def execTax (s : State) : Result := transfer .a .x s

/-- TAY: A to Y, Z and N from it (42_data_movement.md R177). -/
def execTay (s : State) : Result := transfer .a .y s

/-- TXA: X to A, Z and N from it (42_data_movement.md R178). -/
def execTxa (s : State) : Result := transfer .x .a s

/-- TYA: Y to A, Z and N from it (42_data_movement.md R179). -/
def execTya (s : State) : Result := transfer .y .a s

/-- TSX: S to X, Z and N from it (42_data_movement.md R180). -/
def execTsx (s : State) : Result := transfer .s .x s

/-- TXS: X to S, no flag (42_data_movement.md R181). -/
def execTxs (s : State) : Result := .next ((s.setReg .s s.x).advance .implied)

end Sys2Proof.Machine
end

