-- ==== Sys2Proof/Machine/Stack.lean ====
section
/-! DEFINITION. Stack instructions (45_stack.md R273 to R276). -/

namespace Sys2Proof.Machine

/-- PHA: push A (45_stack.md R273). -/
def execPha (s : State) : Result := .next ((s.hostGap.push s.a).advance .implied)

/-- PLA: pull A, Z and N from it (45_stack.md R274). -/
def execPla (s : State) : Result :=
  let s1 := s.hostGap
  .next (((s1.popped.setReg .a s1.popValue).setZN s1.popValue).advance .implied)

/-- PHP: push P, bit 5 as 1 and bit 4 as stored (45_stack.md R275). -/
def execPhp (s : State) : Result := .next ((s.hostGap.push s.status).advance .implied)

/-- PLP: pull P, bit 5 forced to 1 (45_stack.md R276). -/
def execPlp (s : State) : Result := .next ((s.hostGap.popped.setStatus s.hostGap.popValue).advance .implied)

end Sys2Proof.Machine
end

