-- ==== Sys2Proof/Machine/System.lean ====
section
/-! DEFINITION. Flag set and clear, NOP, BRK and RTI (46_flags_and_system.md R290 to R299). -/

namespace Sys2Proof.Machine

/-- CLC: C <- 0 (46_flags_and_system.md R290). -/
def execClc (s : State) : Result := .next ((s.setFlag .c false).advance .implied)

/-- SEC: C <- 1 (46_flags_and_system.md R291). -/
def execSec (s : State) : Result := .next ((s.setFlag .c true).advance .implied)

/-- CLI: I <- 0 (46_flags_and_system.md R292). -/
def execCli (s : State) : Result := .next ((s.setFlag .i false).advance .implied)

/-- SEI: I <- 1 (46_flags_and_system.md R293). -/
def execSei (s : State) : Result := .next ((s.setFlag .i true).advance .implied)

/-- CLD: D <- 0 (46_flags_and_system.md R294). -/
def execCld (s : State) : Result := .next ((s.setFlag .d false).advance .implied)

/-- SED: D <- 1 (46_flags_and_system.md R295). -/
def execSed (s : State) : Result := .next ((s.setFlag .d true).advance .implied)

/-- CLV: V <- 0 (46_flags_and_system.md R296). -/
def execClv (s : State) : Result := .next ((s.setFlag .v false).advance .implied)

/-- NOP: only PC advances (46_flags_and_system.md R297). -/
def execNop (s : State) : Result := .next (s.advance .implied)

/-- BRK: the interrupt entry with return address PC + 2 and B = 1 (46_flags_and_system.md R298). -/
def execBrk (s : State) : Result := .next (s.hostGap.interruptEntry (s.pc + 2) true)

/-- RTI: pop P and the return address (46_flags_and_system.md R299). -/
def execRti (s : State) : Result := .next s.hostGap.returnFromInterrupt

end Sys2Proof.Machine
end

