-- ==== Sys2Proof/Machine/Fetch.lean ====
section
/-! DEFINITION. Fetching an instruction's bytes and decoding them (30_encoding.md R92, R102). -/

namespace Sys2Proof.Machine

/-- The three bytes from PC up, mod 65536: the opcode, the first primitive of the Step, and the two bytes that may be its
operand, which one primitive reads after the opcode (20_memory.md R65, R67, R77). Reading a byte past the instruction has no
effect (20_memory.md R69; log 8). -/
def fetchBytes (s : State) : List Byte := [s.read s.pc, s.hostGap.read (s.pc + 1), s.hostGap.read (s.pc + 2)]

/-- The instruction at PC, or `IllegalOpcode(op)` for an undefined opcode (30_encoding.md R97, R102). Three bytes are never
truncated, so an error is an undefined opcode (`decode_three`, Laws/Decode.lean). -/
def fetch (s : State) : Except Fault Instr :=
  match decode (fetchBytes s) with
  | .ok (i, _) => .ok i
  | .error _ => .error (.illegalOpcode (s.read s.pc))

/-- The modes whose operand bytes the resolver reads; the bytes of Immediate and Relative are read by the handler, as its
operand (41_addressing.md R142, R143, R155). -/
def resolverReads : Mode → Bool
  | .accumulator | .implied | .immediate | .relative => false
  | .zeroPage | .zeroPageXIndex | .zeroPageYIndex | .preIndexIndirect | .postIndexIndirect => true
  | .absolute | .absoluteXIndex | .absoluteYIndex | .indirect => true

/-- The state in which the meaning of the fetched instruction starts: at the read of its operand bytes, where the resolver
reads some (20_memory.md R77). -/
def State.fetched (s : State) (i : Instr) : State := if resolverReads i.mode then s.hostGap else s

/-- `s` with three bytes stored at PC, ready to fetch: not halted, this boundary's IRQ level dropped where the IRQ would be
taken, and no host write after the opcode read (log 11). -/
def placeAtPC (s : State) (b0 b1 b2 : Byte) : State :=
  { s.writeBytes s.pc [b0, b1, b2] with
    halted := none
    irqLevels := if s.takesIrq then false :: s.irqLevels.tail else s.irqLevels
    hostWrites := if s.hostBurst = [] then s.hostWrites else [] :: s.hostWrites.tail }

end Sys2Proof.Machine
end

