-- ==== Sys2Proof/Machine/Step.lean ====
section
/-! DEFINITION. One Step (30_encoding.md R102, R103; 60_exceptions.md R327, R328). -/

namespace Sys2Proof.Machine

/-- One Step with the IRQ level taken from the input tape: a halted core has none, an enabled IRQ is taken in place of the
instruction, else the instruction at PC is fetched and executed (30_encoding.md R102, R103). -/
def step (s : State) : Host.Outcome State Fault Refusal :=
  match s.halted with
  | some r => .refused (.coreHalted r)
  | none =>
    if s.takesIrq then .next s.passBoundary.irqEntry
    else
      match fetch s with
      | .ok i => exec i (s.fetched i).passBoundary
      | .error r => .fault r

/-- `s` with the instruction of a table word stored where `step` fetches next, so that the next step runs it (log 11). -/
def State.withFetchWord (s : State) (nbits w : Nat) : State :=
  let b := tableWordBytes nbits w
  placeAtPC s b.1 b.2.1 b.2.2

end Sys2Proof.Machine
end

