-- ==== Sys2Proof/Machine/HostPort.lean ====
section
/-! DEFINITION. The host's operations on the core and its memory (70_reset_and_hazards.md R360 to R368, 20_memory.md R72). They
are not instructions; the host performs them between Steps (R371), and pokes within one under
`HOST_INTERLEAVE = per_primitive`. Inspect is reading the fields of State. -/

namespace Sys2Proof.Machine

/-- `Construct(memory)`: the register values of 10_state.md R40 over a given memory (70_reset_and_hazards.md R360). -/
def construct (cfg : Config) (mem : Memory) : State where
  a := 0x00
  x := 0x00
  y := 0x00
  sp := 0xFF
  p := 0x20
  pc := 0x0000
  halted := none
  mem := mem
  cfg := cfg
  irqLevels := []
  hostWrites := []

/-- `Boot()`: refused on a halted core (70_reset_and_hazards.md R364); else PC takes its default and then the word at 0xFFFC, and
nothing else changes (R361, R362). -/
def boot (s : State) : Result :=
  match s.halted with
  | some r => .refused (.coreHalted r)
  | none =>
    let s1 := s.setPC s.cfg.pcBootDefault
    .next (s1.setPC (s1.readWord resetVector))

/-- `Load(offset, bytes)`: the bytes are written from the offset up if they fit in the 64 KiB, else the load is refused
(20_memory.md R72, 70_reset_and_hazards.md R368). After a refusal memory is as `loadFailed` says. -/
def loadImage (offset : Nat) (bytes : List Byte) (s : State) : Result :=
  if offset + bytes.length ≤ 65536 then .next (s.writeBytes (BitVec.ofNat 16 offset) bytes) else .refused .imageDoesNotFit

/-- What a failed load at `offset` may leave: the bytes from the offset to 0xFFFF are unknown, all else is unchanged
(20_memory.md R72, D34; log 10). -/
def loadFailed (offset : Nat) (s t : State) : Prop :=
  { s with mem := [] } = { t with mem := [] } ∧ t.mem.wf = true ∧
    ∀ ad : Addr, ad.toNat < offset → t.read ad = s.read ad

/-- `Poke(addr, v)`: a host write of memory between Steps (70_reset_and_hazards.md R368). -/
def poke (ad : Addr) (v : Byte) (s : State) : State := s.write ad v

/-- `Poke(addr, v)` per primitive: the writes that fall at the coming points between two primitives of one Step, which a core
under `HOST_INTERLEAVE = per_primitive` makes there (70_reset_and_hazards.md R368, 20_memory.md R76; log 5). -/
def pokeWithin (writes : List (List (Addr × Byte))) (s : State) : State := { s with hostWrites := writes }

/-- `Step(irq)`: one Step with the level as an argument, its fault recorded in `halted` and reported (30_encoding.md R102,
60_exceptions.md R321, 70_reset_and_hazards.md R368; log 6). A halted core keeps its state and its record. -/
def hostStep (irq : Bool) (s : State) : State × Option Fault :=
  match step { s with irqLevels := irq :: s.irqLevels } with
  | .next t => (t, none)
  | .fault r => (s.haltWith r, some r)
  | .refused _ => (s, s.halted)

end Sys2Proof.Machine
end

