-- ==== Sys2Proof/Safety.lean ====
section
/-! DEFINITION. What a safe run is, and the terms the statements use: which state an instruction keeps. -/

namespace Sys2Proof.Machine

/-! ### Safe runs -/

/-- Bit 5 of the stored P is 1 (10_state.md R27). -/
def State.reservedBitSet (s : State) : Prop := s.p.getLsbD 5 = true

/-- The invariant of every run: memory is in its canonical form and bit 5 of P is 1 (20_memory.md R60, 10_state.md R27). -/
structure State.Inv (s : State) : Prop where
  memory : s.mem.wf = true
  reserved : s.reservedBitSet

/-- No decimal refusal can arise: the policy is binary, or D is 0 (43_alu.md R216). -/
def State.decimalAllowed (s : State) : Prop := s.cfg.decimalPolicy = .binary ∨ s.flag .d = false

/-- A Step of this state is safe: it answers a next state. -/
def State.stepsSafely (s : State) : Prop := ∃ t, step s = .next t

/-! ### What is kept -/

/-- The registers A, X, Y and S outside a list are kept. -/
def State.keepsRegs (s t : State) (except : List Reg) : Prop := ∀ r, r ∉ except → t.reg r = s.reg r

/-- The flags outside a list are kept (bit 5 of P always reads 1). -/
def State.keepsFlags (s t : State) (except : List Flag) : Prop := ∀ f, f ∉ except → t.flag f = s.flag f

/-- The bytes of memory outside a list of addresses are kept. -/
def State.keepsMemory (s t : State) (except : List Addr) : Prop := ∀ ad, ad ∉ except → t.read ad = s.read ad

/-- The halt record, the parameters, the input tape and the other owner's coming writes are kept. -/
def State.keepsRest (s t : State) : Prop :=
  t.halted = s.halted ∧ t.cfg = s.cfg ∧ t.irqLevels = s.irqLevels ∧ t.hostWrites = s.hostWrites

/-- The frame: nothing but PC and what is listed changes from `s` to `t`. -/
def State.changesOnly (s t : State) (regs : List Reg) (flags : List Flag) (ads : List Addr) : Prop :=
  s.keepsRegs t regs ∧ s.keepsFlags t flags ∧ s.keepsMemory t ads ∧ s.keepsRest t

/-! ### The other owner of memory -/

/-- The flag a branch tests and the value it is taken at (44_control_flow.md R248 to R255). -/
def branchTest : Mnemonic → Option (Flag × Bool)
  | .bcc => some (.c, false)
  | .bcs => some (.c, true)
  | .beq => some (.z, true)
  | .bmi => some (.n, true)
  | .bne => some (.z, false)
  | .bpl => some (.n, false)
  | .bvc => some (.v, false)
  | .bvs => some (.v, true)
  | _ => none

/-- How many memory primitives the meaning of an instruction makes, after the opcode read and the resolver's read of its
operand bytes (20_memory.md R67, R77; 41_addressing.md R155). -/
def accesses (i : Instr) (s : State) : Nat :=
  match i.mnemonic with
  | .sta | .stx | .sty => pointerReads s.cfg i.operand + 1
  | .asl | .lsr | .rol | .ror =>
    match locate i.operand s with
    | .acc => 0
    | .mem _ => 2
  | .inc | .dec => 2
  | .jmp => pointerReads s.cfg i.operand
  | .jsr | .rts => 2
  | .pha | .pla | .php | .plp => 1
  | .brk => 4
  | .rti => 3
  | mn =>
    match branchTest mn with
    | some (f, want) => if s.flag f = want then 1 else 0
    | none => operandReads s.cfg i.operand

/-- What memory and the list of host writes are when the other owner alone acts, at the points before the primitives of an
instruction: the state itself under `HOST_INTERLEAVE = none` (20_memory.md R68). -/
def State.interleaved (s : State) (i : Instr) : State := s.hostGaps (accesses i s)

/-- No write of the other owner falls on a listed address (20_memory.md R68): the addresses are the core's alone. -/
def State.undisturbed (s : State) (ads : List Addr) : Prop :=
  s.cfg.hostInterleave = .none ∨ ∀ ws ∈ s.hostWrites, ∀ w ∈ ws, w.1 ∉ ads

/-! ### Where an instruction stores -/

/-- The addresses an instruction stores to: the effective address of a store or of a memory read-modify-write, the stack bytes
of a push, a call or BRK, and none for the rest (42_data_movement.md, 43_alu.md, 45_stack.md R270, 60_exceptions.md R330). -/
def storeAddresses (i : Instr) (s : State) : List Addr :=
  match i.mnemonic with
  | .sta | .stx | .sty | .asl | .lsr | .rol | .ror | .inc | .dec =>
    match resolve i.operand s with
    | some ea => [ea]
    | none => []
  | .pha | .php => [stackAddr s.sp]
  | .jsr => [stackAddr s.sp, stackAddr (s.sp - 1)]
  | .brk => [stackAddr s.sp, stackAddr (s.sp - 1), stackAddr (s.sp - 2)]
  | _ => []

end Sys2Proof.Machine
end

