-- ==== Sys2Proof/Certificates/Slice0/Obligations.lean ====
section
/-! DEFINITION. The statements for the provers. A docstring names the rule of spec/ the statement formalises, or, where the
clause is a decision the spec marks as its own or a choice of the model, that decision or log entry. -/

namespace Sys2Proof

open Machine

/-- The 105 opcodes that 30_encoding.md R97 lists as undefined. -/
def undefinedOpcodes : List Byte :=
  [0x02, 0x03, 0x04, 0x07, 0x0B, 0x0C, 0x0F, 0x12, 0x13, 0x14, 0x17, 0x1A, 0x1B, 0x1C, 0x1F,
   0x22, 0x23, 0x27, 0x2B, 0x2F, 0x32, 0x33, 0x34, 0x37, 0x3A, 0x3B, 0x3C, 0x3F, 0x42, 0x43,
   0x44, 0x47, 0x4B, 0x4F, 0x52, 0x53, 0x54, 0x57, 0x5A, 0x5B, 0x5C, 0x5F, 0x62, 0x63, 0x64,
   0x67, 0x6B, 0x6F, 0x72, 0x73, 0x74, 0x77, 0x7A, 0x7B, 0x7C, 0x7F, 0x80, 0x82, 0x83, 0x87,
   0x89, 0x8B, 0x8F, 0x92, 0x93, 0x97, 0x9B, 0x9C, 0x9E, 0x9F, 0xA3, 0xA7, 0xAB, 0xAF, 0xB2,
   0xB3, 0xB7, 0xBB, 0xBF, 0xC2, 0xC3, 0xC7, 0xCB, 0xCF, 0xD2, 0xD3, 0xD4, 0xD7, 0xDA, 0xDB,
   0xDC, 0xDF, 0xE2, 0xE3, 0xE7, 0xEB, 0xEF, 0xF2, 0xF3, 0xF4, 0xF7, 0xFA, 0xFB, 0xFC, 0xFF]

/-- The opcodes of ADC and SBC (43_alu.md R200, R201). -/
def adcSbcOpcodes : List Byte :=
  [0x69, 0x65, 0x75, 0x61, 0x71, 0x6D, 0x7D, 0x79,
   0xE9, 0xE5, 0xF5, 0xE1, 0xF1, 0xED, 0xFD, 0xF9]

end Sys2Proof

open Sys2Proof Sys2Proof.Machine

/-- Construction leaves A, X, Y and PC 0, S 0xFF, P 0x20, no halt record; booted over empty memory it is the reset state (log 1, log 2). Rests on 10_state.md section 7, 70_reset_and_hazards.md section 1, 92_eei_decisions.md D22. -/
def Obligations.ConstructionAndBootGiveTheResetState : Prop :=
  (∀ (cfg : Config) (m : Memory),
    (construct cfg m).a = 0x00 ∧ (construct cfg m).x = 0x00 ∧ (construct cfg m).y = 0x00 ∧
    (construct cfg m).pc = 0x0000 ∧ (construct cfg m).sp = 0xFF ∧ (construct cfg m).status = 0x20 ∧
    (∀ f, (construct cfg m).flag f = false) ∧ (construct cfg m).halted = none ∧ (construct cfg m).mem = m ∧
    (construct cfg m).cfg = cfg) ∧
  boot (construct Config.default []) = .next State.reset ∧ State.reset.pc = State.reset.readWord 0xFFFC

/-- Boot on a running core loads PC from the little-endian word at 0xFFFC, low byte first, and changes nothing else. Formalises R361. -/
def Obligations.BootLoadsPCFromResetVector : Prop :=
  ∀ s : State, s.halted = none →
    boot s = .next { s with pc := wordOfBytes (s.read 0xFFFC) (s.read 0xFFFD) }

/-- A byte written is read back at its address, and every other address reads as before. Formalises R61. -/
def Obligations.ReadAfterWriteReturnsTheByte : Prop :=
  ∀ (s : State) (ad : Addr) (v : Byte),
    (s.write ad v).read ad = v ∧
    (∀ b : Addr, b ≠ ad → (s.write ad v).read b = s.read b)

/-- The word read takes its low byte at the address and its high byte at the next, mod 65536. Formalises R62. -/
def Obligations.WordReadIsLittleEndianAndWraps : Prop :=
  (∀ (s : State) (ad : Addr),
    (s.readWord ad).toNat = (s.read (BitVec.ofNat 16 ((ad.toNat + 1) % 65536))).toNat * 256 + (s.read ad).toNat) ∧
  (∀ s : State, s.readWord 0xFFFF = wordOfBytes (s.read 0xFFFF) (s.read 0x0000))

/-- Writes keep the canonical form of memory, and canonical memories that read alike are equal data (log 1). Rests on 20_memory.md section 1, 20_memory.md section 2. -/
def Obligations.CanonicalMemoryIsDeterminedByReads : Prop :=
  (∀ (s : State) (ad : Addr) (v : Byte), s.mem.wf = true → (s.write ad v).mem.wf = true) ∧
  (∀ s t : State, s.mem.wf = true → t.mem.wf = true → (∀ ad : Addr, s.read ad = t.read ad) → s.mem = t.mem)

/-- A host load of an image that fits writes its bytes from the offset up and nothing else; one that does not fit is refused. Rests on 20_memory.md section 6. -/
def Obligations.LoadPlacesImageOrIsRefused : Prop :=
  ∀ (s : State) (o : Nat) (bs : List Byte),
    (o + bs.length ≤ 65536 → ∃ t, loadImage o bs s = .next t ∧ { t with mem := s.mem } = s ∧
      (∀ k (h : k < bs.length), t.read (BitVec.ofNat 16 (o + k)) = bs[k]) ∧
      (∀ ad : Addr, (ad.toNat < o ∨ o + bs.length ≤ ad.toNat) → t.read ad = s.read ad)) ∧
    (65536 < o + bs.length → loadImage o bs s = .refused .imageDoesNotFit)

/-- P holds C, Z, I, D, B, V, N at bits 0, 1, 2, 3, 4, 6, 7, and bit 5 reads 1 after every write of P. Formalises R27. -/
def Obligations.StatusRegisterLayoutAndReservedBit : Prop :=
  (Flag.bit .c = 0 ∧ Flag.bit .z = 1 ∧ Flag.bit .i = 2 ∧ Flag.bit .d = 3 ∧ Flag.bit .b = 4 ∧ Flag.bit .v = 6 ∧
    Flag.bit .n = 7) ∧
  (∀ (s : State) (f g : Flag) (b : Bool), (s.setFlag f b).p.getLsbD 5 = true ∧
    (s.setFlag f b).flag g = (if g = f then b else s.flag g)) ∧
  (∀ (s : State) (v : Byte), (s.setStatus v).p = v ||| 0x20 ∧ (s.setStatus v).p.getLsbD 5 = true ∧
    ∀ f : Flag, (s.setStatus v).flag f = v.getLsbD f.bit) ∧
  (∀ (s : State), s.status.getLsbD 5 = true ∧ ∀ f : Flag, s.status.getLsbD f.bit = s.flag f) ∧
  (State.reset.status.getLsbD 5 = true ∧ ∀ f : Flag, State.reset.flag f = false)

/-- ZN sets Z iff the result is 0 and N to its bit 7, and writes no other flag. Formalises R122. -/
def Obligations.ZeroAndNegativeComeFromOneResult : Prop :=
  ∀ (s : State) (v : Byte),
    ((s.setZN v).flag .z = true ↔ v = 0) ∧ ((s.setZN v).flag .n = true ↔ v.toInt < 0) ∧
    (s.setZN v).flag .n = v.getLsbD 7 ∧ ¬ ((s.setZN v).flag .z = true ∧ (s.setZN v).flag .n = true) ∧
    s.keepsFlags (s.setZN v) [.z, .n]

/-- AddCore sets C to bit 8 of the exact sum, V by the exclusive-or formula, Z and N from the wrapped result, and no other flag. Formalises R121, R123, R125. -/
def Obligations.AdderRoutineSetsCarryOverflowZeroNegative : Prop :=
  (∀ (s : State) (m : Byte) (k : Nat) (nv : Byte), k ≤ 256 →
    (adderResult m k).toNat = (m.toNat + k) % 256 ∧
    (s.setAdderFlags m k nv).flag .c = (m.toNat + k).testBit 8 ∧
    ((s.setAdderFlags m k nv).flag .c = true ↔ 256 ≤ m.toNat + k) ∧
    ((s.setAdderFlags m k nv).flag .v = true ↔
      (m ^^^ adderResult m k) &&& (nv ^^^ adderResult m k) &&& 0x80 ≠ 0) ∧
    ((s.setAdderFlags m k nv).flag .z = true ↔ (m.toNat + k) % 256 = 0) ∧
    (s.setAdderFlags m k nv).flag .n = (adderResult m k).getLsbD 7 ∧
    (s.setAdderFlags m k nv).p.getLsbD 5 = true ∧
    s.changesOnly (s.setAdderFlags m k nv) [] [.c, .v, .z, .n] [] ∧ (s.setAdderFlags m k nv).pc = s.pc) ∧
  (∀ (i : Instr) (s t : State) (m nv : Byte), operandValue i.operand s = some m → exec i s = .next t →
    (i.mnemonic, nv) ∈ [(Mnemonic.adc, m), (Mnemonic.sbc, ~~~m)] →
    t.a = adderResult s.a (nv.toNat + (s.flag .c).toNat) ∧
      t.p = (s.setAdderFlags s.a (nv.toNat + (s.flag .c).toNat) nv).p) ∧
  (∀ (i : Instr) (s t : State) (m : Byte) (r : Reg), operandValue i.operand s = some m → exec i s = .next t →
    (i.mnemonic, r) ∈ [(Mnemonic.cmp, Reg.a), (Mnemonic.cpx, Reg.x), (Mnemonic.cpy, Reg.y)] →
    t.p = (s.setAdderFlags (s.reg r) ((~~~m).toNat + 1) (BitVec.ofNat 8 (((~~~m).toNat + 1) % 256))).p)

/-- The effective address of the Accumulator, Implied, Immediate, Relative, ZeroPage, indexed ZeroPage and Absolute modes. Formalises R141, R142, R143, R144, R145, R146, R147. -/
def Obligations.ResolverGivesEffectiveAddresses : Prop :=
  ∀ s : State,
    resolve .accumulator s = none ∧ resolve .implied s = none ∧
    (∀ b, resolve (.immediate b) s = some (BitVec.ofNat 16 ((s.pc.toNat + 1) % 65536))) ∧
    (∀ b, resolve (.relative b) s = some (BitVec.ofNat 16 ((s.pc.toNat + 1) % 65536))) ∧
    (∀ zp : Byte, resolve (.zeroPage zp) s = some (BitVec.ofNat 16 zp.toNat)) ∧
    (∀ zp : Byte, resolve (.zeroPageXIndex zp) s = some (BitVec.ofNat 16 ((zp.toNat + s.x.toNat) % 256))) ∧
    (∀ zp : Byte, resolve (.zeroPageYIndex zp) s = some (BitVec.ofNat 16 ((zp.toNat + s.y.toNat) % 256))) ∧
    (∀ w : Addr, resolve (.absolute w) s = some w) ∧
    (∀ i : Instr, i.mode = .zeroPageYIndex → i.mnemonic = .ldx ∨ i.mnemonic = .stx) ∧
    (∀ o : Operand, (resolve o s = none → locate o s = .acc) ∧ ∀ ea, resolve o s = some ea → locate o s = .mem ea)

/-- The effective address of the indexed Absolute and the three indirect modes, under both settings of ZP_POINTER_WRAP. Rests on 41_addressing.md section 2, 92_eei_decisions.md D10, D11, D12, D13. The points between two primitives (`State.hostGap`) are log 5. -/
def Obligations.ResolverIndexesAndFollowsPointers : Prop :=
  ∀ s : State,
    (∀ w : Addr, resolve (.absoluteXIndex w) s = some (BitVec.ofNat 16 ((w.toNat + s.x.toNat) % 65536))) ∧
    (∀ w : Addr, resolve (.absoluteYIndex w) s = some (BitVec.ofNat 16 ((w.toNat + s.y.toNat) % 65536))) ∧
    (∀ w : Addr, resolve (.indirect w) s = some (wordOfBytes (s.hostGap.read w) (s.hostGap.read (w + 1)))) ∧
    (∀ (zp : Byte) (p q : Nat) (u : State), p = (zp.toNat + s.x.toNat) % 256 →
      q = (if s.cfg.zpPointerWrap = .word16 then (p + 1) % 65536 else (p + 1) % 256) →
      u = (if s.cfg.zpPointerWrap = .word16 then s.hostGap else s.hostGap.hostGap) →
      resolve (.preIndexIndirect zp) s =
        some (wordOfBytes (s.hostGap.read (BitVec.ofNat 16 p)) (u.read (BitVec.ofNat 16 q)))) ∧
    (∀ (zp : Byte) (p q : Nat) (u : State), p = zp.toNat →
      q = (if s.cfg.zpPointerWrap = .word16 then (p + 1) % 65536 else (p + 1) % 256) →
      u = (if s.cfg.zpPointerWrap = .word16 then s.hostGap else s.hostGap.hostGap) →
      resolve (.postIndexIndirect zp) s =
        some (wordOfBytes (s.hostGap.read (BitVec.ofNat 16 p)) (u.read (BitVec.ofNat 16 q)) + BitVec.ofNat 16 s.y.toNat))

/-- A fetched instruction carries the opcode at PC and the operand bytes at PC + 1 and PC + 2, mod 65536, little-endian. Formalises R65. The point between the opcode read and the operand bytes (`State.hostGap`) is log 5. -/
def Obligations.FetchedInstructionCarriesItsBytes : Prop :=
  ∀ (s : State) (i : Instr),
    fetch s = .ok i ↔ [s.read s.pc, s.hostGap.read (s.pc + 1), s.hostGap.read (s.pc + 2)].take i.length = encode i

/-- The operand of a fetched instruction is the byte at its effective address, the Immediate one included. Formalises R153. `State.afterRead` is the state at the operand read, past the points between primitives (log 5). -/
def Obligations.OperandIsTheByteAtTheEffectiveAddress : Prop :=
  ∀ (s u : State) (i : Instr), fetch s = .ok i → u = s.fetched i →
    operandValue i.operand u = (resolve i.operand u).map (u.afterRead i.operand).read

/-- Words written out from the opcode map decode to the instructions they stand for, one or more per family. Rests on 30_encoding.md section 3. -/
def Obligations.SampleWordsDecodeToTheirInstructions : Prop :=
  decodeTableWord 16 0b10000000_10101001 = some (.ldaImm 0x80) ∧
  decodeTableWord 24 0b00010010_00110100_10001101 = some (.staAbs 0x1234) ∧
  decodeTableWord 8 0b10111010 = some .tsx ∧
  decodeTableWord 16 0b00100000_01100001 = some (.adcIndX 0x20) ∧
  decodeTableWord 16 0b00010000_01110110 = some (.rorZpX 0x10) ∧
  decodeTableWord 24 0b00000011_00000000_00101100 = some (.bitAbs 0x0300) ∧
  decodeTableWord 24 0b00000011_00000000_11111110 = some (.incAbsX 0x0300) ∧
  decodeTableWord 16 0b01000000_11010001 = some (.cmpIndY 0x40) ∧
  decodeTableWord 24 0b00010000_11111111_01101100 = some (.jmpInd 0x10FF) ∧
  decodeTableWord 24 0b10000000_00000000_00100000 = some (.jsrAbs 0x8000) ∧
  decodeTableWord 16 0b11111100_11010000 = some (.bne 0xFC) ∧
  decodeTableWord 8 0b00001000 = some .php ∧
  decodeTableWord 8 0b10111000 = some .clv ∧
  decodeTableWord 8 0b00000000 = some .brk ∧
  decodeTableWord 8 0b01000000 = some .rti ∧
  decodeTableWord 8 0b00000010 = none ∧ decodeTableWord 8 0b11111111 = none

/-- Decoding the bytes of any instruction, followed by any bytes, gives the instruction back and leaves the bytes after it. Rests on 30_encoding.md sections 1, 2 and 3. -/
def Obligations.DecodeOfEncodeIsTheInstruction : Prop :=
  ∀ (i : Instr) (rest : List Byte), decode (encode i ++ rest) = .ok (i, rest)

/-- Whatever decodes is the encoding of the instruction decoded, so every word has one meaning. Rests on 30_encoding.md sections 1, 2 and 3. -/
def Obligations.DecodedBytesAreTheEncoding : Prop :=
  ∀ (bs : List Byte) (i : Instr) (rest : List Byte), decode bs = .ok (i, rest) → bs = encode i ++ rest

/-- Each of the 13 modes has its operand-byte count, and an instruction's length is 1 plus that count, told from its opcode alone. Formalises R91. -/
def Obligations.LengthIsOnePlusOperandBytesOfTheMode : Prop :=
  (Mode.len .accumulator = 0 ∧ Mode.len .implied = 0 ∧ Mode.len .immediate = 1 ∧ Mode.len .zeroPage = 1 ∧
    Mode.len .zeroPageXIndex = 1 ∧ Mode.len .zeroPageYIndex = 1 ∧ Mode.len .relative = 1 ∧
    Mode.len .preIndexIndirect = 1 ∧ Mode.len .postIndexIndirect = 1 ∧ Mode.len .absolute = 2 ∧
    Mode.len .absoluteXIndex = 2 ∧ Mode.len .absoluteYIndex = 2 ∧ Mode.len .indirect = 2) ∧
  (∀ i : Instr, (encode i).length = 1 + i.mode.len) ∧
  (∀ i j : Instr, i.opcode = j.opcode → i.mnemonic = j.mnemonic ∧ i.mode = j.mode ∧ i.length = j.length)

/-- The opcodes that decode to Undefined are exactly the 105 listed, and each other opcode is the opcode of an instruction. Rests on 30_encoding.md section 4, 92_eei_decisions.md D8. -/
def Obligations.UndefinedOpcodesAreTheListed105 : Prop :=
  ∀ op : Byte,
    ((∀ rest, decode (op :: rest) = .error (.undefined op)) ↔ op ∈ undefinedOpcodes) ∧
    ((∃ i : Instr, i.opcode = op) ↔ op ∉ undefinedOpcodes)

/-- LDA, LDX and LDY complete: the register takes the operand, Z and N come from it, PC advances, nothing else changes. Formalises R170, R171, R172. Memory is compared with what the other owner alone leaves (`State.interleaved`, log 5). -/
def Obligations.LoadsWriteRegisterAndZeroNegative : Prop :=
  (∀ i : Instr, i.mnemonic = .lda ↔ i.opcode ∈ ([0xA9, 0xA5, 0xB5, 0xA1, 0xB1, 0xAD, 0xBD, 0xB9] : List Byte)) ∧
  (∀ i : Instr, i.mnemonic = .ldx ↔ i.opcode ∈ ([0xA2, 0xA6, 0xB6, 0xAE, 0xBE] : List Byte)) ∧
  (∀ i : Instr, i.mnemonic = .ldy ↔ i.opcode ∈ ([0xA0, 0xA4, 0xB4, 0xAC, 0xBC] : List Byte)) ∧
  ∀ (i : Instr) (s : State) (r : Reg),
    (i.mnemonic, r) ∈ [(Mnemonic.lda, Reg.a), (Mnemonic.ldx, Reg.x), (Mnemonic.ldy, Reg.y)] →
    ∃ m t, operandValue i.operand s = some m ∧ exec i s = .next t ∧
      t.reg r = m ∧ t.flag .z = (m == 0) ∧ t.flag .n = m.getLsbD 7 ∧
      t.pc = s.pc + BitVec.ofNat 16 i.length ∧ (s.interleaved i).changesOnly t [r] [.z, .n] []

/-- STA, STX and STY complete: the register's byte is stored at the effective address, PC advances, nothing else changes. Formalises R174, R175, 42_data_movement.md section 2. Memory is compared with what the other owner alone leaves (`State.interleaved`, log 5). -/
def Obligations.StoresWriteOneByteAndNoFlag : Prop :=
  (∀ i : Instr, i.mnemonic = .sta ↔ i.opcode ∈ ([0x85, 0x95, 0x81, 0x91, 0x8D, 0x9D, 0x99] : List Byte)) ∧
  (∀ i : Instr, i.mnemonic = .stx ↔ i.opcode ∈ ([0x86, 0x96, 0x8E] : List Byte)) ∧
  (∀ i : Instr, i.mnemonic = .sty ↔ i.opcode ∈ ([0x84, 0x94, 0x8C] : List Byte)) ∧
  ∀ (i : Instr) (s : State) (r : Reg),
    (i.mnemonic, r) ∈ [(Mnemonic.sta, Reg.a), (Mnemonic.stx, Reg.x), (Mnemonic.sty, Reg.y)] →
    ∃ ea t, resolve i.operand s = some ea ∧ exec i s = .next t ∧
      t.read ea = s.reg r ∧
      t.pc = s.pc + BitVec.ofNat 16 i.length ∧ (s.interleaved i).changesOnly t [] [] [ea]

/-- TAX, TAY, TXA and TYA complete: the destination takes the source, Z and N come from it, PC advances by 1, nothing else changes. Formalises R176, R177, R178, R179. -/
def Obligations.TransfersCopyRegisterAndSetZeroNegative : Prop :=
  (∀ i : Instr, i.mnemonic = .tax ↔ i.opcode ∈ ([0xAA] : List Byte)) ∧
  (∀ i : Instr, i.mnemonic = .tay ↔ i.opcode ∈ ([0xA8] : List Byte)) ∧
  (∀ i : Instr, i.mnemonic = .txa ↔ i.opcode ∈ ([0x8A] : List Byte)) ∧
  (∀ i : Instr, i.mnemonic = .tya ↔ i.opcode ∈ ([0x98] : List Byte)) ∧
  ∀ (i : Instr) (s : State) (src dst : Reg),
    (i, src, dst) ∈ [(Instr.tax, Reg.a, Reg.x), (Instr.tay, Reg.a, Reg.y), (Instr.txa, Reg.x, Reg.a),
      (Instr.tya, Reg.y, Reg.a)] →
    ∃ t, exec i s = .next t ∧ t.reg dst = s.reg src ∧ t.flag .z = (s.reg src == 0) ∧
      t.flag .n = (s.reg src).getLsbD 7 ∧ t.pc = s.pc + 1 ∧ s.changesOnly t [dst] [.z, .n] []

/-- TSX copies S to X and sets Z and N; TXS copies X to S and writes no flag (the spec's decision D14). Rests on 42_data_movement.md section 3, 92_eei_decisions.md D14. -/
def Obligations.StackPointerTransfers : Prop :=
  (∀ s : State, ∃ t, exec .tsx s = .next t ∧ t.x = s.sp ∧ t.flag .z = (s.sp == 0) ∧ t.flag .n = s.sp.getLsbD 7 ∧
    t.pc = s.pc + 1 ∧ s.changesOnly t [.x] [.z, .n] []) ∧
  (∀ s : State, ∃ t, exec .txs s = .next t ∧ t.sp = s.x ∧ t.pc = s.pc + 1 ∧ s.changesOnly t [.s] [] [])

/-- ADC adds the operand and C, SBC its complement and C; C is the carry out, V the overflow formula, Z and N from the result. Rests on 43_alu.md section 1, 43_alu.md section 6, 92_eei_decisions.md D2, D9. Memory is compared with what the other owner alone leaves (`State.interleaved`, log 5). -/
def Obligations.AdcAndSbcAddWithCarry : Prop :=
  (∀ i : Instr, i.mnemonic = .adc ↔ i.opcode ∈ ([0x69, 0x65, 0x75, 0x61, 0x71, 0x6D, 0x7D, 0x79] : List Byte)) ∧
  (∀ i : Instr, i.mnemonic = .sbc ↔ i.opcode ∈ ([0xE9, 0xE5, 0xF5, 0xE1, 0xF1, 0xED, 0xFD, 0xF9] : List Byte)) ∧
  ∀ (i : Instr) (s : State), s.decimalAllowed → (i.mnemonic = .adc ∨ i.mnemonic = .sbc) →
    ∃ m n t, operandValue i.operand s = some m ∧ n = (if i.mnemonic = .adc then m else ~~~m) ∧ exec i s = .next t ∧
      t.a.toNat = (s.a.toNat + n.toNat + (s.flag .c).toNat) % 256 ∧
      (t.flag .c = true ↔ 256 ≤ s.a.toNat + n.toNat + (s.flag .c).toNat) ∧
      (t.flag .v = true ↔ s.a.getLsbD 7 = n.getLsbD 7 ∧ t.a.getLsbD 7 ≠ s.a.getLsbD 7) ∧
      t.flag .z = (t.a == 0) ∧ t.flag .n = t.a.getLsbD 7 ∧
      t.pc = s.pc + BitVec.ofNat 16 i.length ∧ (s.interleaved i).changesOnly t [.a] [.c, .v, .z, .n] []

/-- After ADC, V is 1 iff the signed sum lies outside -128..127, and C is 1 iff the unsigned sum is at least 256. Rests on 40_flag_engine.md, consequences. -/
def Obligations.AdcOverflowIsSignedOverflow : Prop :=
  ∀ (i : Instr) (s t : State) (m : Byte), i.mnemonic = .adc → operandValue i.operand s = some m →
    exec i s = .next t →
    (t.flag .v = true ↔ s.a.toInt + m.toInt + (s.flag .c).toNat < -128 ∨
      127 < s.a.toInt + m.toInt + (s.flag .c).toNat) ∧
    (t.flag .c = true ↔ 256 ≤ s.a.toNat + m.toNat + (s.flag .c).toNat)

/-- After SBC, A is A - M - (1 - C) mod 256, C is 1 iff there was no borrow, and V is 1 iff the signed difference overflows. Rests on 40_flag_engine.md, consequences. -/
def Obligations.SbcSubtractsWithBorrow : Prop :=
  ∀ (i : Instr) (s t : State) (m : Byte) (borrow : Nat), i.mnemonic = .sbc → operandValue i.operand s = some m →
    borrow = (if s.flag .c then 0 else 1) → exec i s = .next t →
    t.a = s.a - m - BitVec.ofNat 8 borrow ∧
    (t.flag .c = true ↔ m.toNat + borrow ≤ s.a.toNat) ∧
    (t.flag .v = true ↔ s.a.toInt - m.toInt - borrow < -128 ∨ 127 < s.a.toInt - m.toInt - borrow)

/-- ADC and SBC fault DecimalRefused with their opcode iff the policy is refuse and D is 1 (the spec's decision D9). Rests on 43_alu.md section 6, 92_eei_decisions.md D9. -/
def Obligations.DecimalPolicyRefusesOnlyWithDSet : Prop :=
  (∀ (i : Instr) (s : State), (i.mnemonic = .adc ∨ i.mnemonic = .sbc) →
    (exec i s = .fault (.decimalRefused i.opcode) ↔ s.cfg.decimalPolicy = .refuse ∧ s.flag .d = true)) ∧
  (∀ (i : Instr) (s : State) (op : Byte), exec i s = .fault (.decimalRefused op) →
    (i.mnemonic = .adc ∨ i.mnemonic = .sbc) ∧ op = i.opcode)

/-- AND, ORA and EOR complete: A takes the bitwise result, Z and N come from it, PC advances, nothing else changes. Formalises R202, R203, R204. Memory is compared with what the other owner alone leaves (`State.interleaved`, log 5). -/
def Obligations.LogicWritesAccumulatorAndZeroNegative : Prop :=
  (∀ i : Instr, i.mnemonic = .and ↔ i.opcode ∈ ([0x29, 0x25, 0x35, 0x21, 0x31, 0x2D, 0x3D, 0x39] : List Byte)) ∧
  (∀ i : Instr, i.mnemonic = .ora ↔ i.opcode ∈ ([0x09, 0x05, 0x15, 0x01, 0x11, 0x0D, 0x1D, 0x19] : List Byte)) ∧
  (∀ i : Instr, i.mnemonic = .eor ↔ i.opcode ∈ ([0x49, 0x45, 0x55, 0x41, 0x51, 0x4D, 0x5D, 0x59] : List Byte)) ∧
  ∀ (i : Instr) (s : State) (m : Byte), operandValue i.operand s = some m →
    ∀ r : Byte, (i.mnemonic, r) ∈ [(Mnemonic.and, s.a &&& m), (Mnemonic.ora, s.a ||| m), (Mnemonic.eor, s.a ^^^ m)] →
    ∃ t, exec i s = .next t ∧ t.a = r ∧ t.flag .z = (r == 0) ∧ t.flag .n = r.getLsbD 7 ∧
      t.pc = s.pc + BitVec.ofNat 16 i.length ∧ (s.interleaved i).changesOnly t [.a] [.z, .n] []

/-- ASL, LSR, ROL and ROR complete on A or memory: C is the bit shifted out, the result is written back, Z and N come from it. Formalises R205, R206, R207, R208. The points before the read and before the write are log 5; memory is compared with what the other owner alone leaves. -/
def Obligations.ShiftsAndRotatesMoveOneBitThroughCarry : Prop :=
  (∀ i : Instr, i.mnemonic = .asl ↔ i.opcode ∈ ([0x0A, 0x06, 0x16, 0x0E, 0x1E] : List Byte)) ∧
  (∀ i : Instr, i.mnemonic = .lsr ↔ i.opcode ∈ ([0x4A, 0x46, 0x56, 0x4E, 0x5E] : List Byte)) ∧
  (∀ i : Instr, i.mnemonic = .rol ↔ i.opcode ∈ ([0x2A, 0x26, 0x36, 0x2E, 0x3E] : List Byte)) ∧
  (∀ i : Instr, i.mnemonic = .ror ↔ i.opcode ∈ ([0x6A, 0x66, 0x76, 0x6E, 0x7E] : List Byte)) ∧
  ∀ (i : Instr) (s : State) (l : Location) (v r c0 c7 : Byte) (out : Bool), locate i.operand s = l → (s.gapAt l).readLoc l = v →
    c0 = (if s.flag .c then 0x01 else 0x00) → c7 = (if s.flag .c then 0x80 else 0x00) →
    (i.mnemonic, out, r) ∈ [(Mnemonic.asl, v.getLsbD 7, v <<< 1), (Mnemonic.lsr, v.getLsbD 0, v >>> 1),
      (Mnemonic.rol, v.getLsbD 7, (v <<< 1) ||| c0), (Mnemonic.ror, v.getLsbD 0, (v >>> 1) ||| c7)] →
    ∃ t, exec i s = .next t ∧ t.flag .c = out ∧ t.readLoc l = r ∧
      t.flag .z = (r == 0) ∧ t.flag .n = r.getLsbD 7 ∧ t.pc = s.pc + BitVec.ofNat 16 i.length ∧
      (l = .acc → s.changesOnly t [.a] [.c, .z, .n] []) ∧
      (∀ ea, l = .mem ea → (s.interleaved i).changesOnly t [] [.c, .z, .n] [ea])

/-- BIT completes: Z says that A and M is 0, N and V are bits 7 and 6 of M, PC advances, nothing else changes. Formalises R209. Memory is compared with what the other owner alone leaves (`State.interleaved`, log 5). -/
def Obligations.BitCopiesMemoryBitsToNegativeAndOverflow : Prop :=
  (∀ i : Instr, i.mnemonic = .bit ↔ i.opcode ∈ ([0x24, 0x2C] : List Byte)) ∧
  ∀ (i : Instr) (s : State), i.mnemonic = .bit →
    ∃ m t, operandValue i.operand s = some m ∧ exec i s = .next t ∧
      (t.flag .z = true ↔ s.a &&& m = 0) ∧ t.flag .n = m.getLsbD 7 ∧ t.flag .v = m.getLsbD 6 ∧
      t.pc = s.pc + BitVec.ofNat 16 i.length ∧ (s.interleaved i).changesOnly t [] [.z, .n, .v] []

/-- INC and DEC complete: the byte at the effective address changes by 1 mod 256, Z and N come from it (the spec's decision D4). Rests on 43_alu.md section 5, 92_eei_decisions.md D4. The points before the read and before the write are log 5; memory is compared with what the other owner alone leaves. -/
def Obligations.IncAndDecChangeMemoryByOne : Prop :=
  (∀ i : Instr, i.mnemonic = .inc ↔ i.opcode ∈ ([0xE6, 0xF6, 0xEE, 0xFE] : List Byte)) ∧
  (∀ i : Instr, i.mnemonic = .dec ↔ i.opcode ∈ ([0xC6, 0xD6, 0xCE, 0xDE] : List Byte)) ∧
  ∀ (i : Instr) (s : State) (ea : Addr) (r : Byte), resolve i.operand s = some ea →
    (i.mnemonic, r) ∈ [(Mnemonic.inc, s.hostGap.read ea + 1), (Mnemonic.dec, s.hostGap.read ea - 1)] →
    ∃ t, exec i s = .next t ∧ t.read ea = r ∧ t.flag .z = (r == 0) ∧
      t.flag .n = r.getLsbD 7 ∧ t.pc = s.pc + BitVec.ofNat 16 i.length ∧ (s.interleaved i).changesOnly t [] [.z, .n] [ea]

/-- INX, INY, DEX and DEY complete: the register changes by 1 mod 256, Z and N come from it (the spec's decision D4). Rests on 43_alu.md section 5, 92_eei_decisions.md D4. -/
def Obligations.IndexRegistersCountByOne : Prop :=
  ∀ (i : Instr) (s : State) (r : Reg) (v : Byte),
    (i, r, v) ∈ [(Instr.inx, Reg.x, s.x + 1), (Instr.iny, Reg.y, s.y + 1), (Instr.dex, Reg.x, s.x - 1),
      (Instr.dey, Reg.y, s.y - 1)] →
    ∃ t, exec i s = .next t ∧ t.reg r = v ∧ t.flag .z = (v == 0) ∧ t.flag .n = v.getLsbD 7 ∧
      t.pc = s.pc + 1 ∧ s.changesOnly t [r] [.z, .n] []

/-- CMP, CPX and CPY complete: C says register >= operand, Z equality, N bit 7 of the difference, V the adder's; no register changes. Rests on 44_control_flow.md section 1, 92_eei_decisions.md D3. Memory is compared with what the other owner alone leaves (`State.interleaved`, log 5). -/
def Obligations.CompareOrdersRegisterAndOperand : Prop :=
  (∀ i : Instr, i.mnemonic = .cmp ↔ i.opcode ∈ ([0xC9, 0xC5, 0xD5, 0xC1, 0xD1, 0xCD, 0xDD, 0xD9] : List Byte)) ∧
  (∀ i : Instr, i.mnemonic = .cpx ↔ i.opcode ∈ ([0xE0, 0xE4, 0xEC] : List Byte)) ∧
  (∀ i : Instr, i.mnemonic = .cpy ↔ i.opcode ∈ ([0xC0, 0xC4, 0xCC] : List Byte)) ∧
  ∀ (i : Instr) (s : State) (r : Reg),
    (i.mnemonic, r) ∈ [(Mnemonic.cmp, Reg.a), (Mnemonic.cpx, Reg.x), (Mnemonic.cpy, Reg.y)] →
    ∃ m t, operandValue i.operand s = some m ∧ exec i s = .next t ∧
      (t.flag .c = true ↔ m.toNat ≤ (s.reg r).toNat) ∧ (t.flag .z = true ↔ s.reg r = m) ∧
      t.flag .n = (s.reg r - m).getLsbD 7 ∧
      (t.flag .v = true ↔ (s.reg r).getLsbD 7 = (0 - m).getLsbD 7 ∧ (s.reg r - m).getLsbD 7 ≠ (s.reg r).getLsbD 7) ∧
      t.pc = s.pc + BitVec.ofNat 16 i.length ∧ (s.interleaved i).changesOnly t [] [.c, .v, .z, .n] []

/-- JMP completes: PC becomes the target, given or read at the pointer, and nothing else changes. Formalises R244. The point before the pointer read (`State.hostGap`) is log 5. -/
def Obligations.JmpSetsPCToTheEffectiveAddress : Prop :=
  (∀ i : Instr, i.mnemonic = .jmp ↔ i.opcode ∈ ([0x4C, 0x6C] : List Byte)) ∧
  (∀ (s : State) (w : Addr), exec (.jmpAbs w) s = .next { s with pc := w }) ∧
  (∀ (s : State) (w : Addr), exec (.jmpInd w) s =
    .next { s.hostGap with pc := wordOfBytes (s.hostGap.read w) (s.hostGap.read (w + 1)) }) ∧
  (∀ (s : State) (o : Operand), o.mode ≠ .absolute → o.mode ≠ .indirect →
    handleJmp o s = .fault (.invalidAddressingMode .jmp o.mode))

/-- JSR completes: the address of its last byte is pushed, high byte first, and PC becomes the target (the spec's decision D5). Rests on 44_control_flow.md section 2, 92_eei_decisions.md D5. The points before and between the two pushes are log 5; memory is compared with what the other owner alone leaves. -/
def Obligations.JsrPushesItsLastByteAddress : Prop :=
  ∀ (s : State) (w : Addr), ∃ t, exec (.jsrAbs w) s = .next t ∧ t.pc = w ∧ t.sp = s.sp - 2 ∧
    (s.undisturbed [stackAddr s.sp] → t.read (stackAddr s.sp) = hiByte (s.pc + 2)) ∧
    t.read (stackAddr (s.sp - 1)) = loByte (s.pc + 2) ∧
    (s.interleaved (.jsrAbs w)).changesOnly t [.s] [] [stackAddr s.sp, stackAddr (s.sp - 1)]

/-- RTS completes: the low then the high byte are popped, PC is that word plus 1, S rises by 2, nothing else changes. Formalises R246. The points before the two pops (`State.hostGaps`) are log 5. -/
def Obligations.RtsReturnsToPoppedAddressPlusOne : Prop :=
  (∀ i : Instr, i.mnemonic = .rts ↔ i.opcode = 0x60) ∧
  ∀ s : State, exec .rts s = .next
    { s.hostGaps 2 with
      sp := s.sp + 2
      pc := wordOfBytes ((s.hostGaps 1).read (stackAddr (s.sp + 1))) ((s.hostGaps 2).read (stackAddr (s.sp + 2))) + 1 }

/-- RTS executed on the state a JSR leaves resumes at the instruction after the JSR with S restored (the spec's decision D5). Rests on 44_control_flow.md section 2, 92_eei_decisions.md D5. The premise is about the other owner of memory (log 5); it holds of every state under HOST_INTERLEAVE = none. -/
def Obligations.RtsAfterJsrResumesAfterTheCall : Prop :=
  ∀ (s : State) (w : Addr), s.undisturbed [stackAddr s.sp, stackAddr (s.sp - 1)] →
    ∃ t u, exec (.jsrAbs w) s = .next t ∧ exec .rts t = .next u ∧
    u.pc = s.pc + 3 ∧ (s.hostGaps 4).changesOnly u [] [] [stackAddr s.sp, stackAddr (s.sp - 1)]

/-- Each of the eight branches completes: taken to PC + 2 + displacement iff its flag has its value, else PC + 2 (decision D6). Rests on 44_control_flow.md section 3, 92_eei_decisions.md D6. The point before the displacement read of a taken branch (`State.hostGap`) is log 5. -/
def Obligations.BranchesTestOneFlag : Prop :=
  ∀ (i : Instr) (s : State) (d : Byte) (f : Flag) (want : Bool),
    (i, f, want) ∈ [(Instr.bcc d, Flag.c, false), (Instr.bcs d, Flag.c, true), (Instr.beq d, Flag.z, true),
      (Instr.bmi d, Flag.n, true), (Instr.bne d, Flag.z, false), (Instr.bpl d, Flag.n, false),
      (Instr.bvc d, Flag.v, false), (Instr.bvs d, Flag.v, true)] →
    (s.flag f = want → exec i s = .next { s.hostGap with pc := BitVec.ofInt 16 (s.pc.toNat + 2 + d.toInt) }) ∧
    (s.flag f ≠ want → exec i s = .next { s with pc := BitVec.ofInt 16 (s.pc.toNat + 2) })

/-- Push writes at 0x0100 | S and then lowers S; Pop raises S and then reads at 0x0100 | S; S wraps mod 256 within page 1. Formalises R270, R271. -/
def Obligations.PushAndPopMoveOneByteWithinPageOne : Prop :=
  (∀ sp : Byte, stackAddr sp = 0x0100 ||| sp.setWidth 16 ∧ (stackAddr sp).toNat = 256 + sp.toNat) ∧
  (∀ (s : State) (v : Byte), (s.push v).sp.toNat = (s.sp.toNat + 255) % 256 ∧
    (s.push v).read (stackAddr s.sp) = v ∧ (s.push v).pc = s.pc ∧
    s.changesOnly (s.push v) [.s] [] [stackAddr s.sp]) ∧
  (∀ s : State, s.popped.sp.toNat = (s.sp.toNat + 1) % 256 ∧ s.popValue = s.popped.read (stackAddr s.popped.sp) ∧
    s.popped.pc = s.pc ∧ s.changesOnly s.popped [.s] [] []) ∧
  (∀ (s : State) (v : Byte), (s.push v).popValue = v ∧ (s.push v).popped.sp = s.sp)

/-- PHA and PHP complete: A, or P with bit 5 as 1, is stored at 0x0100 | S, S is lowered by 1, PC advances by 1, no flag changes. Formalises R273, R275. Memory is compared with what the other owner alone leaves (`State.interleaved`, log 5). -/
def Obligations.PushInstructionsStoreOneStackByte : Prop :=
  (∀ i : Instr, i.mnemonic = .pha ↔ i.opcode = 0x48) ∧ (∀ i : Instr, i.mnemonic = .php ↔ i.opcode = 0x08) ∧
  (∀ s : State, ∃ t, exec .pha s = .next t ∧ t.read (stackAddr s.sp) = s.a ∧ t.sp = s.sp - 1 ∧
    t.pc = s.pc + 1 ∧ (s.interleaved .pha).changesOnly t [.s] [] [stackAddr s.sp]) ∧
  (∀ s : State, ∃ t, exec .php s = .next t ∧ (t.read (stackAddr s.sp)).getLsbD 5 = true ∧
    (∀ f : Flag, (t.read (stackAddr s.sp)).getLsbD f.bit = s.flag f) ∧ t.sp = s.sp - 1 ∧
    t.pc = s.pc + 1 ∧ (s.interleaved .php).changesOnly t [.s] [] [stackAddr s.sp])

/-- PLP completes: all seven flags come from the popped byte, bit 5 is 1, S rises by 1, PC advances by 1, nothing else changes. Formalises R276. The point before the pop is log 5; memory is compared with what the other owner alone leaves. -/
def Obligations.PlpRestoresEveryFlagAndForcesBitFive : Prop :=
  (∀ i : Instr, i.mnemonic = .plp ↔ i.opcode = 0x28) ∧
  ∀ s : State, ∃ t, exec .plp s = .next t ∧
    (∀ f : Flag, t.flag f = (s.hostGap.read (stackAddr (s.sp + 1))).getLsbD f.bit) ∧ t.p.getLsbD 5 = true ∧
    t.p = s.hostGap.read (stackAddr (s.sp + 1)) ||| 0x20 ∧ t.sp = s.sp + 1 ∧ t.pc = s.pc + 1 ∧
    (s.interleaved .plp).changesOnly t [.s] [.c, .z, .i, .d, .b, .v, .n] []

/-- PLA completes: A is the popped byte, Z and N come from it (the spec's decision D15), S rises by 1, PC advances by 1. Rests on 45_stack.md section 2, 92_eei_decisions.md D15. The point before the pop is log 5; memory is compared with what the other owner alone leaves. -/
def Obligations.PlaPullsAccumulator : Prop :=
  ∀ (s : State) (v : Byte), v = s.hostGap.read (stackAddr (s.sp + 1)) →
    ∃ t, exec .pla s = .next t ∧ t.a = v ∧ t.flag .z = (v == 0) ∧ t.flag .n = v.getLsbD 7 ∧ t.sp = s.sp + 1 ∧
      t.pc = s.pc + 1 ∧ (s.interleaved .pla).changesOnly t [.a, .s] [.z, .n] []

/-- CLC, SEC, CLI, SEI, CLD, SED, CLV write their own flag only, and NOP writes none; PC advances by 1 (decisions D16, D17). Rests on 46_flags_and_system.md sections 1 and 2, 92_eei_decisions.md D16, D17. -/
def Obligations.FlagInstructionsWriteOneFlag : Prop :=
  (∀ (i : Instr) (s : State) (f : Flag) (b : Bool),
    (i, f, b) ∈ [(Instr.clc, Flag.c, false), (Instr.sec, Flag.c, true), (Instr.cli, Flag.i, false),
      (Instr.sei, Flag.i, true), (Instr.cld, Flag.d, false), (Instr.sed, Flag.d, true), (Instr.clv, Flag.v, false)] →
    ∃ t, exec i s = .next t ∧ t.flag f = b ∧ t.pc = s.pc + 1 ∧ s.changesOnly t [] [f] []) ∧
  (∀ s : State, exec .nop s = .next { s with pc := s.pc + 1 })

/-- BRK completes through the push path: PC + 2 and P with B = 1 are pushed, I is set, PC is the word at 0xFFFE (decision D18). Rests on 46_flags_and_system.md section 3, 60_exceptions.md section 4, 92_eei_decisions.md D18. The points between its primitives are log 5; memory is compared with what the other owner alone leaves. -/
def Obligations.BrkTakesTheInterruptEntry : Prop :=
  ∀ s : State, ∃ t, exec .brk s = .next t ∧
    (s.undisturbed [stackAddr s.sp, stackAddr (s.sp - 1), stackAddr (s.sp - 2)] →
      t.read (stackAddr s.sp) = hiByte (s.pc + 2) ∧
      t.read (stackAddr (s.sp - 1)) = loByte (s.pc + 2) ∧
      (t.read (stackAddr (s.sp - 2))).getLsbD 5 = true ∧
      ∀ f : Flag, (t.read (stackAddr (s.sp - 2))).getLsbD f.bit = (if f = .b then true else s.flag f)) ∧
    t.sp = s.sp - 3 ∧ t.flag .b = true ∧ t.flag .i = true ∧
    t.pc = wordOfBytes ((s.hostGaps 4).read 0xFFFE) ((s.hostGaps 4).read 0xFFFF) ∧
    (s.interleaved .brk).changesOnly t [.s] [.b, .i] [stackAddr s.sp, stackAddr (s.sp - 1), stackAddr (s.sp - 2)]

/-- RTI completes: P comes from the first popped byte with bit 5 forced, PC is exactly the next popped word (decision D21). Rests on 46_flags_and_system.md section 3, 92_eei_decisions.md D21. The points before the three pops are log 5; memory is compared with what the other owner alone leaves. -/
def Obligations.RtiRestoresStatusAndPC : Prop :=
  ∀ s : State, ∃ t, exec .rti s = .next t ∧
    (∀ f : Flag, t.flag f = ((s.hostGaps 1).read (stackAddr (s.sp + 1))).getLsbD f.bit) ∧ t.p.getLsbD 5 = true ∧
    t.pc = wordOfBytes ((s.hostGaps 2).read (stackAddr (s.sp + 2))) ((s.hostGaps 3).read (stackAddr (s.sp + 3))) ∧
    t.sp = s.sp + 3 ∧ (s.interleaved .rti).changesOnly t [.s] [.c, .z, .i, .d, .b, .v, .n] []

/-- RTI executed on the state a BRK leaves resumes at BRK + 2 with S and every flag but B restored (decisions D18, D21). Rests on 60_exceptions.md section 4, 46_flags_and_system.md section 3. The premise is about the other owner of memory (log 5); it holds of every state under HOST_INTERLEAVE = none. -/
def Obligations.RtiAfterBrkResumesTwoBytesOn : Prop :=
  ∀ s : State, s.undisturbed [stackAddr s.sp, stackAddr (s.sp - 1), stackAddr (s.sp - 2)] →
    ∃ t u, exec .brk s = .next t ∧ exec .rti t = .next u ∧ u.pc = s.pc + 2 ∧
    u.flag .b = true ∧
    (s.hostGaps 7).changesOnly u [] [.b] [stackAddr s.sp, stackAddr (s.sp - 1), stackAddr (s.sp - 2)]

/-- Where no IRQ is taken, a Step of a running core is exec of the instruction decoded at PC, past the boundary's IRQ level. Rests on 30_encoding.md section 6. The input tape is log 3, the point after the opcode read (`State.hostGap`) log 5: both the model's choice. -/
def Obligations.StepRunsTheDecodedInstruction : Prop :=
  (∀ (s : State) (i : Instr), s.fetched i =
    if i.mode ∈ ([.accumulator, .implied, .immediate, .relative] : List Mode) then s else s.hostGap) ∧
  ∀ (s : State) (i : Instr) (rest : List Byte), s.halted = none → s.takesIrq = false →
    decode [s.read s.pc, s.hostGap.read (s.pc + 1), s.hostGap.read (s.pc + 2)] = .ok (i, rest) →
    step s = exec i { s.fetched i with irqLevels := s.irqLevels.tail }

/-- An instruction whose bytes are stored at PC is the one the next Step runs, with no fence or delay (the spec's decision D26). Rests on 20_memory.md section 8, 70_reset_and_hazards.md section 4, 92_eei_decisions.md D26. The input tape moved on is the model's choice (log 3), and so is the premise on the other owner's writes (log 5). -/
def Obligations.StoredInstructionIsTheNextOneRun : Prop :=
  ∀ (s : State) (i : Instr), s.halted = none → s.takesIrq = false → s.undisturbed [s.pc + 1, s.pc + 2] →
    step (s.writeBytes s.pc (encode i)) =
      exec i ((s.writeBytes s.pc (encode i)).fetched i).passBoundary

/-- With IRQ_LINE = 1 and I = 0 a Step is the IRQ entry: PC and P with B = 0 pushed, I set, PC from 0xFFFE (decision D19). Rests on 60_exceptions.md sections 2 and 4, 92_eei_decisions.md D18, D19. The input tape is log 3, the points between its primitives log 5. -/
def Obligations.EnabledIrqIsTakenInPlaceOfTheInstruction : Prop :=
  (∀ s : State, s.takesIrq = true ↔ s.irqLevels.head? = some true ∧ s.flag .i = false) ∧
  ∀ (s : State) (levels : List Bool), s.halted = none → s.irqLevels = true :: levels → s.flag .i = false →
    ∃ t, step s = .next t ∧
      (s.undisturbed [stackAddr s.sp, stackAddr (s.sp - 1), stackAddr (s.sp - 2)] →
        t.read (stackAddr s.sp) = hiByte s.pc ∧ t.read (stackAddr (s.sp - 1)) = loByte s.pc ∧
        (t.read (stackAddr (s.sp - 2))).getLsbD 5 = true ∧
        ∀ f : Flag, (t.read (stackAddr (s.sp - 2))).getLsbD f.bit = (if f = .b then false else s.flag f)) ∧
      t.sp = s.sp - 3 ∧ t.flag .b = false ∧ t.flag .i = true ∧
      t.pc = wordOfBytes ((s.hostGaps 3).read 0xFFFE) ((s.hostGaps 3).read 0xFFFF) ∧ t.irqLevels = levels ∧ t.halted = none ∧ t.cfg = s.cfg ∧
      t.hostWrites = (s.hostGaps 3).hostWrites ∧
      s.keepsRegs t [.s] ∧ s.keepsFlags t [.b, .i] ∧
      (s.hostGaps 3).keepsMemory t [stackAddr s.sp, stackAddr (s.sp - 1), stackAddr (s.sp - 2)]

/-- A halted core has no Step and no boot: both are refused with the recorded reason, and the state is kept (decision D22). Rests on 30_encoding.md section 6, 60_exceptions.md section 1, 70_reset_and_hazards.md section 2, 92_eei_decisions.md D22. -/
def Obligations.HaltedCoreHasNoStepAndNoBoot : Prop :=
  ∀ (s : State) (r : Fault), s.halted = some r →
    step s = .refused (.coreHalted r) ∧ boot s = .refused (.coreHalted r) ∧ ∀ irq, hostStep irq s = (s, some r)

/-- A Step that faults changes nothing but the halt record, and then no Step is enabled (the spec's decision D22). Rests on 60_exceptions.md section 1, 92_eei_decisions.md D22. -/
def Obligations.FaultsArePreciseAndRecorded : Prop :=
  ∀ (s : State) (irq : Bool) (r : Fault), s.halted = none → (hostStep irq s).2 = some r →
    (hostStep irq s).1 = { s with halted := some r } ∧
    (r = .illegalOpcode (s.read s.pc) ∨ r = .decimalRefused (s.read s.pc)) ∧
    (∀ irq', hostStep irq' (hostStep irq s).1 = ((hostStep irq s).1, some r)) ∧
    boot (hostStep irq s).1 = .refused (.coreHalted r)

/-- A running core's Step completes, but faults IllegalOpcode on the 105 undefined opcodes and DecimalRefused on a refused ADC or SBC. Rests on 60_exceptions.md section 1, 30_encoding.md section 4, 43_alu.md section 6, 92_eei_decisions.md D8, D9, D22. -/
def Obligations.RunningCoreStepsOrFaultsByName : Prop :=
  ∀ s : State, s.halted = none →
    (s.takesIrq = true → ∃ t, step s = .next t) ∧
    (s.takesIrq = false →
      (s.read s.pc ∈ undefinedOpcodes →
        step s = .fault (.illegalOpcode (s.read s.pc)) ∧ Fault.code (.illegalOpcode (s.read s.pc)) = 1) ∧
      (s.read s.pc ∈ adcSbcOpcodes → s.cfg.decimalPolicy = .refuse → s.flag .d = true →
        step s = .fault (.decimalRefused (s.read s.pc)) ∧ Fault.code (.decimalRefused (s.read s.pc)) = 3) ∧
      (s.read s.pc ∉ undefinedOpcodes →
        ¬ (s.read s.pc ∈ adcSbcOpcodes ∧ s.cfg.decimalPolicy = .refuse ∧ s.flag .d = true) → ∃ t, step s = .next t))

/-- Every Step keeps memory in its canonical form (the model's choice, log 1) and bit 5 of P at 1, from every state that has them. Rests on 10_state.md section 4, 20_memory.md section 1. That memory is a canonical list is the model's choice (log 1), no rule of the spec. -/
def Obligations.EveryStepKeepsTheInvariant : Prop :=
  ∀ s t : State, s.Inv → step s = .next t → t.Inv

/-- The reset state has canonical memory (it lists nothing, the model's choice, log 1) and bit 5 of P at 1. Rests on 10_state.md section 7. That reset memory lists nothing, in canonical form, is the model's choice (log 1). -/
def Obligations.ResetHasTheInvariant : Prop :=
  State.reset.Inv ∧ ∀ (cfg : Config) (m : Memory), m.wf = true → (construct cfg m).Inv

/-- A Step changes no parameter, consumes one IRQ level, and reads no host write under HOST_INTERLEAVE = none (model's fields, logs 3, 4, 5). Rests on 00_scope.md section 4, 60_exceptions.md section 2, 20_memory.md section 5, 92_eei_decisions.md D24. The tape `irqLevels` (log 3), the field `cfg` (log 4) and the schedule `hostWrites` (log 5) are the model's choice. -/
def Obligations.StepKeepsParametersAndConsumesOneLevel : Prop :=
  ∀ s t : State, step s = .next t →
    s.halted = none ∧ t.halted = none ∧ t.cfg = s.cfg ∧ t.irqLevels = s.irqLevels.tail ∧
    (s.cfg.hostInterleave = .none → t.hostWrites = s.hostWrites ∧
      ∀ ws, step { s with hostWrites := ws } = .next { t with hostWrites := ws })

/-- No instruction changes a byte outside the addresses it stores to, beyond what the other owner of memory writes between its primitives (log 5). Rests on 20_memory.md section 5, 42_data_movement.md section 2, 43_alu.md sections 3 and 5, 45_stack.md section 1, 20_memory.md section 8, 92_eei_decisions.md D24. The schedule of the other owner's writes is the model's choice (log 5). -/
def Obligations.MemoryChangesOnlyAtStoreAddresses : Prop :=
  (∀ (i : Instr) (s t : State), exec i s = .next t → (s.interleaved i).keepsMemory t (storeAddresses i s)) ∧
  (∀ s : State, s.cfg.hostInterleave = .none → s.hostGap = s) ∧
  (∀ s : State, s.cfg.hostInterleave = .perPrimitive → s.hostWrites = [] → s.hostGap = s) ∧
  (∀ (s : State) (ws : List (Addr × Byte)) (rest : List (List (Addr × Byte))),
    s.cfg.hostInterleave = .perPrimitive → s.hostWrites = ws :: rest →
    { s.hostGap with mem := s.mem, hostWrites := s.hostWrites } = s ∧ s.hostGap.hostWrites = rest ∧
    ∀ ad : Addr, s.hostGap.read ad =
      match ws.reverse.find? (fun w => w.1 == ad) with
      | some w => w.2
      | none => s.read ad)

/-- A, X, Y and S change only by the instructions that the access rules list; exec keeps the host fields but the schedule it passes (log 5). Rests on 10_state.md sections 2 and 3. The fields `cfg`, `irqLevels` and `hostWrites` are the model's choice (log 3, log 4, log 5). -/
def Obligations.RegistersChangeOnlyByTheListedInstructions : Prop :=
  ∀ (i : Instr) (s t : State), exec i s = .next t →
    (t.a ≠ s.a → i.mode = .accumulator ∨ i.mnemonic ∈ [.lda, .txa, .tya, .pla, .adc, .sbc, .and, .ora, .eor]) ∧
    (t.x ≠ s.x → i.mnemonic ∈ [.ldx, .tax, .tsx, .inx, .dex]) ∧
    (t.y ≠ s.y → i.mnemonic ∈ [.ldy, .tay, .iny, .dey]) ∧
    (t.sp ≠ s.sp → i.mnemonic ∈ [.txs, .pha, .php, .pla, .plp, .jsr, .rts, .brk, .rti]) ∧
    (s.interleaved i).keepsRest t

/-- Each flag changes only by the instructions that its access rule lists; branches, stores, jumps and pushes change none. Rests on 10_state.md section 4. -/
def Obligations.FlagsChangeOnlyByTheListedInstructions : Prop :=
  ∀ (i : Instr) (s t : State), exec i s = .next t →
    (t.flag .c ≠ s.flag .c → i.mnemonic ∈ [.adc, .sbc, .cmp, .cpx, .cpy, .asl, .rol, .lsr, .ror, .clc, .sec, .plp, .rti]) ∧
    ((t.flag .z ≠ s.flag .z ∨ t.flag .n ≠ s.flag .n) → i.mnemonic ∈ [.lda, .ldx, .ldy, .tax, .tay, .txa, .tya, .tsx, .pla,
      .adc, .sbc, .and, .ora, .eor, .asl, .lsr, .rol, .ror, .inc, .dec, .inx, .iny, .dex, .dey, .cmp, .cpx, .cpy, .bit,
      .plp, .rti]) ∧
    (t.flag .i ≠ s.flag .i → i.mnemonic ∈ [.sei, .cli, .brk, .plp, .rti]) ∧
    (t.flag .d ≠ s.flag .d → i.mnemonic ∈ [.sed, .cld, .plp, .rti]) ∧
    (t.flag .b ≠ s.flag .b → i.mnemonic ∈ [.brk, .plp, .rti]) ∧
    (t.flag .v ≠ s.flag .v → i.mnemonic ∈ [.adc, .sbc, .cmp, .cpx, .cpy, .bit, .clv, .plp, .rti])

/-- Every instruction that transfers no control advances PC by 1 plus its mode's operand-byte count, mod 65536. Formalises R33. -/
def Obligations.NonTransferInstructionsAdvancePC : Prop :=
  ∀ (i : Instr) (s t : State),
    i.mnemonic ∉ [.jmp, .jsr, .rts, .brk, .rti, .bcc, .bcs, .beq, .bmi, .bne, .bpl, .bvc, .bvs] →
    exec i s = .next t → t.pc.toNat = (s.pc.toNat + 1 + i.mode.len) % 65536

/-- Under the binary policy D changes no result: two runs that differ in D alone agree on all but D (decision D9). Rests on 10_state.md section 4, 43_alu.md section 6, 92_eei_decisions.md D9. -/
def Obligations.DecimalFlagChangesNoOtherResult : Prop :=
  ∀ (i : Instr) (s t : State) (b : Bool), s.cfg.decimalPolicy = .binary →
    i.mnemonic ∉ [.php, .brk, .plp, .rti, .cld, .sed] → exec i s = .next t →
    ∃ u, exec i (s.setFlag .d b) = .next u ∧ u.a = t.a ∧ u.x = t.x ∧ u.y = t.y ∧ u.sp = t.sp ∧ u.pc = t.pc ∧
      u.mem = t.mem ∧ t.keepsFlags u [.d] ∧ u.flag .d = b

/-- A handler given a mode its mnemonic has no opcode for faults InvalidAddressingMode, JSR on Indirect included (the model's choice, log 12). Rests on 30_encoding.md section 4, 41_addressing.md section 3, 60_exceptions.md section 1, 90_conflicts.md C7. Which modes a handler accepts beyond the opcode table is the model's choice (log 12); the source would allow JSR on Indirect (C7). -/
def Obligations.HandlersFaultOnModesWithoutMeaning : Prop :=
  (∀ (s : State) (o : Operand) (mn : Mnemonic) (h : Operand → State → Result),
    (mn, h) ∈ [(Mnemonic.lda, handleLda), (.ldx, handleLdx), (.ldy, handleLdy), (.sta, handleSta), (.stx, handleStx),
      (.sty, handleSty), (.and, handleAnd), (.ora, handleOra), (.eor, handleEor), (.asl, handleAsl), (.lsr, handleLsr),
      (.rol, handleRol), (.ror, handleRor), (.bit, handleBit), (.inc, handleInc), (.dec, handleDec), (.cmp, handleCmp),
      (.cpx, handleCpx), (.cpy, handleCpy), (.jmp, handleJmp), (.jsr, handleJsr)] →
    o.mode ∉ mn.modes →
    h o s = .fault (.invalidAddressingMode mn o.mode) ∧ Fault.code (.invalidAddressingMode mn o.mode) = 2) ∧
  (∀ (s : State) (o : Operand) (op : Byte) (mn : Mnemonic) (h : Byte → Operand → State → Result),
    (mn, h) ∈ [(Mnemonic.adc, handleAdc), (.sbc, handleSbc)] → o.mode ∉ mn.modes →
    (s.decimalAllowed → h op o s = .fault (.invalidAddressingMode mn o.mode)) ∧
    (¬ s.decimalAllowed → h op o s = .fault (.decimalRefused op)))
end

