-- ==== Sys2Proof/Laws/Syntax.lean ====
section
/-! SUPPORT. Facts about the syntax: every instruction is well formed, and its mode is one its mnemonic allows. -/

namespace Sys2Proof

theorem Instr.wellFormed_all (i : Instr) : i.wellFormed = true := by
  cases i <;> rfl

/-- The mode of an instruction is one its mnemonic allows (30_encoding.md R96). -/
theorem Instr.allows_mode (i : Instr) : i.mnemonic.allows i.operand.mode = true := i.wellFormed_all

/-- An operand has as many bytes as its mode's count says (30_encoding.md R91). -/
theorem Operand.bytes_length (o : Operand) : o.bytes.length = o.mode.len := by
  cases o <;> rfl

theorem encode_length (i : Instr) : (encode i).length = i.length := by
  simp [encode, Instr.length, Instr.mode, Operand.bytes_length, Instr.operand, Nat.add_comm]

end Sys2Proof
end

