-- ==== Sys2Proof/Laws/Decode.lean ====
section
/-! SUPPORT. Byte order, and what the decoder does with three bytes. -/

namespace Sys2Proof

/-! ### Byte order -/

theorem wordOfBytes_toNat (lo hi : Byte) : (wordOfBytes lo hi).toNat = hi.toNat * 256 + lo.toNat := by
  have h := lo.isLt
  simp only [wordOfBytes, BitVec.toNat_append]
  rw [← Nat.shiftLeft_add_eq_or_of_lt h, Nat.shiftLeft_eq]

@[simp] theorem wordOfBytes_lo_hi (w : Addr) : wordOfBytes (loByte w) (hiByte w) = w := by
  apply BitVec.eq_of_toNat_eq
  have h := w.isLt
  rw [wordOfBytes_toNat]
  simp only [loByte, hiByte, BitVec.toNat_setWidth, BitVec.toNat_ushiftRight, Nat.shiftRight_eq_div_pow]
  omega

@[simp] theorem loByte_wordOfBytes (lo hi : Byte) : loByte (wordOfBytes lo hi) = lo := by
  apply BitVec.eq_of_toNat_eq
  have h := lo.isLt
  simp only [loByte, BitVec.toNat_setWidth, wordOfBytes_toNat]
  omega

@[simp] theorem hiByte_wordOfBytes (lo hi : Byte) : hiByte (wordOfBytes lo hi) = hi := by
  apply BitVec.eq_of_toNat_eq
  have h := lo.isLt
  have h' := hi.isLt
  simp only [hiByte, BitVec.toNat_setWidth, BitVec.toNat_ushiftRight, wordOfBytes_toNat, Nat.shiftRight_eq_div_pow]
  omega

/-! ### Three bytes -/

/-- Three bytes decode by the row of the first one; they are never truncated (30_encoding.md R93, R94). -/
theorem decode_three (op b1 b2 : Byte) :
    decode [op, b1, b2] =
      match opcodeRow op with
      | none => .error (.undefined op)
      | some (.plain i) => .ok (i, [b1, b2])
      | some (.byte f) => .ok (f b1, [b2])
      | some (.word f) => .ok (f (wordOfBytes b1 b2), []) := by
  simp only [decode]
  rcases opcodeRow op with _ | ⟨_ | _ | _⟩ <;> rfl

/-- An undefined opcode is refused by name whatever follows it (30_encoding.md R97). -/
theorem decode_undefined (op : Byte) (rest : List Byte) (h : opcodeRow op = none) :
    decode (op :: rest) = .error (.undefined op) := by
  simp [decode, h]

/-! ### The encoder against the opcode map -/

/-- The opcode of an instruction selects its mnemonic and mode (30_encoding.md R93, R96). -/
theorem decodeOpcode_opcode (i : Instr) : decodeOpcode i.opcode = some (i.mnemonic, i.mode) := by
  cases i <;> simp only [Instr.opcode] <;> rfl

/-- What a row of the opcode map builds encodes to the opcode and as many of the two bytes as its mode has. -/
theorem encode_build (op : Byte) (r : Row) (h : opcodeRow op = some r) (b1 b2 : Byte) :
    encode (r.build b1 b2) = op :: [b1, b2].take (r.build b1 b2).mode.len := by
  obtain ⟨n, rfl⟩ : ∃ n : Fin 256, op = BitVec.ofFin n := ⟨op.toFin, rfl⟩
  fin_cases n <;>
    first
    | (cases h; done)
    | (cases h; rfl)
    | (cases h
       exact congrArg (_ :: ·) (congrArg₂ (fun x y => [x, y]) (loByte_wordOfBytes b1 b2) (hiByte_wordOfBytes b1 b2)))

end Sys2Proof
end

