-- ==== Sys2Proof/Laws/State.lean ====
section
/-! SUPPORT. What each update of State does to each field: one lemma per field per update. -/

namespace Sys2Proof.Machine

/-! ### `setPC` -/

@[simp] theorem State.setPC_a (s : State) (w : Addr) : (s.setPC w).a = s.a := rfl
@[simp] theorem State.setPC_x (s : State) (w : Addr) : (s.setPC w).x = s.x := rfl
@[simp] theorem State.setPC_y (s : State) (w : Addr) : (s.setPC w).y = s.y := rfl
@[simp] theorem State.setPC_sp (s : State) (w : Addr) : (s.setPC w).sp = s.sp := rfl
@[simp] theorem State.setPC_p (s : State) (w : Addr) : (s.setPC w).p = s.p := rfl
@[simp] theorem State.setPC_pc (s : State) (w : Addr) : (s.setPC w).pc = w := rfl
@[simp] theorem State.setPC_halted (s : State) (w : Addr) : (s.setPC w).halted = s.halted := rfl
@[simp] theorem State.setPC_mem (s : State) (w : Addr) : (s.setPC w).mem = s.mem := rfl
@[simp] theorem State.setPC_cfg (s : State) (w : Addr) : (s.setPC w).cfg = s.cfg := rfl
@[simp] theorem State.setPC_irqLevels (s : State) (w : Addr) : (s.setPC w).irqLevels = s.irqLevels := rfl
@[simp] theorem State.setPC_hostWrites (s : State) (w : Addr) : (s.setPC w).hostWrites = s.hostWrites := rfl

/-! ### `advance` -/

@[simp] theorem State.advance_a (s : State) (m : Mode) : (s.advance m).a = s.a := rfl
@[simp] theorem State.advance_x (s : State) (m : Mode) : (s.advance m).x = s.x := rfl
@[simp] theorem State.advance_y (s : State) (m : Mode) : (s.advance m).y = s.y := rfl
@[simp] theorem State.advance_sp (s : State) (m : Mode) : (s.advance m).sp = s.sp := rfl
@[simp] theorem State.advance_p (s : State) (m : Mode) : (s.advance m).p = s.p := rfl
@[simp] theorem State.advance_pc (s : State) (m : Mode) : (s.advance m).pc = s.pc + BitVec.ofNat 16 (1 + m.len) := rfl
@[simp] theorem State.advance_halted (s : State) (m : Mode) : (s.advance m).halted = s.halted := rfl
@[simp] theorem State.advance_mem (s : State) (m : Mode) : (s.advance m).mem = s.mem := rfl
@[simp] theorem State.advance_cfg (s : State) (m : Mode) : (s.advance m).cfg = s.cfg := rfl
@[simp] theorem State.advance_irqLevels (s : State) (m : Mode) : (s.advance m).irqLevels = s.irqLevels := rfl
@[simp] theorem State.advance_hostWrites (s : State) (m : Mode) : (s.advance m).hostWrites = s.hostWrites := rfl

/-! ### `setFlag` -/

@[simp] theorem State.setFlag_a (s : State) (f : Flag) (b : Bool) : (s.setFlag f b).a = s.a := rfl
@[simp] theorem State.setFlag_x (s : State) (f : Flag) (b : Bool) : (s.setFlag f b).x = s.x := rfl
@[simp] theorem State.setFlag_y (s : State) (f : Flag) (b : Bool) : (s.setFlag f b).y = s.y := rfl
@[simp] theorem State.setFlag_sp (s : State) (f : Flag) (b : Bool) : (s.setFlag f b).sp = s.sp := rfl
@[simp] theorem State.setFlag_p (s : State) (f : Flag) (b : Bool) : (s.setFlag f b).p = putFlag f b s.p := rfl
@[simp] theorem State.setFlag_pc (s : State) (f : Flag) (b : Bool) : (s.setFlag f b).pc = s.pc := rfl
@[simp] theorem State.setFlag_halted (s : State) (f : Flag) (b : Bool) : (s.setFlag f b).halted = s.halted := rfl
@[simp] theorem State.setFlag_mem (s : State) (f : Flag) (b : Bool) : (s.setFlag f b).mem = s.mem := rfl
@[simp] theorem State.setFlag_cfg (s : State) (f : Flag) (b : Bool) : (s.setFlag f b).cfg = s.cfg := rfl
@[simp] theorem State.setFlag_irqLevels (s : State) (f : Flag) (b : Bool) : (s.setFlag f b).irqLevels = s.irqLevels := rfl
@[simp] theorem State.setFlag_hostWrites (s : State) (f : Flag) (b : Bool) : (s.setFlag f b).hostWrites = s.hostWrites := rfl

/-! ### `setZN` -/

@[simp] theorem State.setZN_a (s : State) (v : Byte) : (s.setZN v).a = s.a := rfl
@[simp] theorem State.setZN_x (s : State) (v : Byte) : (s.setZN v).x = s.x := rfl
@[simp] theorem State.setZN_y (s : State) (v : Byte) : (s.setZN v).y = s.y := rfl
@[simp] theorem State.setZN_sp (s : State) (v : Byte) : (s.setZN v).sp = s.sp := rfl
@[simp] theorem State.setZN_p (s : State) (v : Byte) : (s.setZN v).p = putZN v s.p := rfl
@[simp] theorem State.setZN_pc (s : State) (v : Byte) : (s.setZN v).pc = s.pc := rfl
@[simp] theorem State.setZN_halted (s : State) (v : Byte) : (s.setZN v).halted = s.halted := rfl
@[simp] theorem State.setZN_mem (s : State) (v : Byte) : (s.setZN v).mem = s.mem := rfl
@[simp] theorem State.setZN_cfg (s : State) (v : Byte) : (s.setZN v).cfg = s.cfg := rfl
@[simp] theorem State.setZN_irqLevels (s : State) (v : Byte) : (s.setZN v).irqLevels = s.irqLevels := rfl
@[simp] theorem State.setZN_hostWrites (s : State) (v : Byte) : (s.setZN v).hostWrites = s.hostWrites := rfl

/-! ### `setStatus` -/

@[simp] theorem State.setStatus_a (s : State) (v : Byte) : (s.setStatus v).a = s.a := rfl
@[simp] theorem State.setStatus_x (s : State) (v : Byte) : (s.setStatus v).x = s.x := rfl
@[simp] theorem State.setStatus_y (s : State) (v : Byte) : (s.setStatus v).y = s.y := rfl
@[simp] theorem State.setStatus_sp (s : State) (v : Byte) : (s.setStatus v).sp = s.sp := rfl
@[simp] theorem State.setStatus_p (s : State) (v : Byte) : (s.setStatus v).p = forceReserved v := rfl
@[simp] theorem State.setStatus_pc (s : State) (v : Byte) : (s.setStatus v).pc = s.pc := rfl
@[simp] theorem State.setStatus_halted (s : State) (v : Byte) : (s.setStatus v).halted = s.halted := rfl
@[simp] theorem State.setStatus_mem (s : State) (v : Byte) : (s.setStatus v).mem = s.mem := rfl
@[simp] theorem State.setStatus_cfg (s : State) (v : Byte) : (s.setStatus v).cfg = s.cfg := rfl
@[simp] theorem State.setStatus_irqLevels (s : State) (v : Byte) : (s.setStatus v).irqLevels = s.irqLevels := rfl
@[simp] theorem State.setStatus_hostWrites (s : State) (v : Byte) : (s.setStatus v).hostWrites = s.hostWrites := rfl

/-! ### `setAdderFlags` -/

@[simp] theorem State.setAdderFlags_a (s : State) (m : Byte) (k : Nat) (nv : Byte) : (s.setAdderFlags m k nv).a = s.a := rfl
@[simp] theorem State.setAdderFlags_x (s : State) (m : Byte) (k : Nat) (nv : Byte) : (s.setAdderFlags m k nv).x = s.x := rfl
@[simp] theorem State.setAdderFlags_y (s : State) (m : Byte) (k : Nat) (nv : Byte) : (s.setAdderFlags m k nv).y = s.y := rfl
@[simp] theorem State.setAdderFlags_sp (s : State) (m : Byte) (k : Nat) (nv : Byte) : (s.setAdderFlags m k nv).sp = s.sp := rfl
@[simp] theorem State.setAdderFlags_p (s : State) (m : Byte) (k : Nat) (nv : Byte) : (s.setAdderFlags m k nv).p = adderFlags m k nv s.p := rfl
@[simp] theorem State.setAdderFlags_pc (s : State) (m : Byte) (k : Nat) (nv : Byte) : (s.setAdderFlags m k nv).pc = s.pc := rfl
@[simp] theorem State.setAdderFlags_halted (s : State) (m : Byte) (k : Nat) (nv : Byte) : (s.setAdderFlags m k nv).halted = s.halted := rfl
@[simp] theorem State.setAdderFlags_mem (s : State) (m : Byte) (k : Nat) (nv : Byte) : (s.setAdderFlags m k nv).mem = s.mem := rfl
@[simp] theorem State.setAdderFlags_cfg (s : State) (m : Byte) (k : Nat) (nv : Byte) : (s.setAdderFlags m k nv).cfg = s.cfg := rfl
@[simp] theorem State.setAdderFlags_irqLevels (s : State) (m : Byte) (k : Nat) (nv : Byte) : (s.setAdderFlags m k nv).irqLevels = s.irqLevels := rfl
@[simp] theorem State.setAdderFlags_hostWrites (s : State) (m : Byte) (k : Nat) (nv : Byte) : (s.setAdderFlags m k nv).hostWrites = s.hostWrites := rfl

/-! ### `setCompareFlags` -/

@[simp] theorem State.setCompareFlags_a (s : State) (r m : Byte) : (s.setCompareFlags r m).a = s.a := rfl
@[simp] theorem State.setCompareFlags_x (s : State) (r m : Byte) : (s.setCompareFlags r m).x = s.x := rfl
@[simp] theorem State.setCompareFlags_y (s : State) (r m : Byte) : (s.setCompareFlags r m).y = s.y := rfl
@[simp] theorem State.setCompareFlags_sp (s : State) (r m : Byte) : (s.setCompareFlags r m).sp = s.sp := rfl
@[simp] theorem State.setCompareFlags_p (s : State) (r m : Byte) : (s.setCompareFlags r m).p = adderFlags r (negatedOperand m) (BitVec.ofNat 8 (negatedOperand m)) s.p := rfl
@[simp] theorem State.setCompareFlags_pc (s : State) (r m : Byte) : (s.setCompareFlags r m).pc = s.pc := rfl
@[simp] theorem State.setCompareFlags_halted (s : State) (r m : Byte) : (s.setCompareFlags r m).halted = s.halted := rfl
@[simp] theorem State.setCompareFlags_mem (s : State) (r m : Byte) : (s.setCompareFlags r m).mem = s.mem := rfl
@[simp] theorem State.setCompareFlags_cfg (s : State) (r m : Byte) : (s.setCompareFlags r m).cfg = s.cfg := rfl
@[simp] theorem State.setCompareFlags_irqLevels (s : State) (r m : Byte) : (s.setCompareFlags r m).irqLevels = s.irqLevels := rfl
@[simp] theorem State.setCompareFlags_hostWrites (s : State) (r m : Byte) : (s.setCompareFlags r m).hostWrites = s.hostWrites := rfl

/-! ### `write` -/

@[simp] theorem State.write_a (s : State) (ad : Addr) (v : Byte) : (s.write ad v).a = s.a := rfl
@[simp] theorem State.write_x (s : State) (ad : Addr) (v : Byte) : (s.write ad v).x = s.x := rfl
@[simp] theorem State.write_y (s : State) (ad : Addr) (v : Byte) : (s.write ad v).y = s.y := rfl
@[simp] theorem State.write_sp (s : State) (ad : Addr) (v : Byte) : (s.write ad v).sp = s.sp := rfl
@[simp] theorem State.write_p (s : State) (ad : Addr) (v : Byte) : (s.write ad v).p = s.p := rfl
@[simp] theorem State.write_pc (s : State) (ad : Addr) (v : Byte) : (s.write ad v).pc = s.pc := rfl
@[simp] theorem State.write_halted (s : State) (ad : Addr) (v : Byte) : (s.write ad v).halted = s.halted := rfl
@[simp] theorem State.write_mem (s : State) (ad : Addr) (v : Byte) : (s.write ad v).mem = s.mem.write ad.toNat v := rfl
@[simp] theorem State.write_cfg (s : State) (ad : Addr) (v : Byte) : (s.write ad v).cfg = s.cfg := rfl
@[simp] theorem State.write_irqLevels (s : State) (ad : Addr) (v : Byte) : (s.write ad v).irqLevels = s.irqLevels := rfl
@[simp] theorem State.write_hostWrites (s : State) (ad : Addr) (v : Byte) : (s.write ad v).hostWrites = s.hostWrites := rfl

/-! ### `push` -/

@[simp] theorem State.push_a (s : State) (v : Byte) : (s.push v).a = s.a := rfl
@[simp] theorem State.push_x (s : State) (v : Byte) : (s.push v).x = s.x := rfl
@[simp] theorem State.push_y (s : State) (v : Byte) : (s.push v).y = s.y := rfl
@[simp] theorem State.push_sp (s : State) (v : Byte) : (s.push v).sp = s.sp - 1 := rfl
@[simp] theorem State.push_p (s : State) (v : Byte) : (s.push v).p = s.p := rfl
@[simp] theorem State.push_pc (s : State) (v : Byte) : (s.push v).pc = s.pc := rfl
@[simp] theorem State.push_halted (s : State) (v : Byte) : (s.push v).halted = s.halted := rfl
@[simp] theorem State.push_mem (s : State) (v : Byte) : (s.push v).mem = s.mem.write (stackAddr s.sp).toNat v := rfl
@[simp] theorem State.push_cfg (s : State) (v : Byte) : (s.push v).cfg = s.cfg := rfl
@[simp] theorem State.push_irqLevels (s : State) (v : Byte) : (s.push v).irqLevels = s.irqLevels := rfl
@[simp] theorem State.push_hostWrites (s : State) (v : Byte) : (s.push v).hostWrites = s.hostWrites := rfl

/-! ### `pushWord` -/

@[simp] theorem State.pushWord_a (s : State) (w : Addr) : (s.pushWord w).a = s.a := rfl
@[simp] theorem State.pushWord_x (s : State) (w : Addr) : (s.pushWord w).x = s.x := rfl
@[simp] theorem State.pushWord_y (s : State) (w : Addr) : (s.pushWord w).y = s.y := rfl
@[simp] theorem State.pushWord_sp (s : State) (w : Addr) : (s.pushWord w).sp = s.sp - 1 - 1 := rfl
@[simp] theorem State.pushWord_p (s : State) (w : Addr) : (s.pushWord w).p = s.p := rfl
@[simp] theorem State.pushWord_pc (s : State) (w : Addr) : (s.pushWord w).pc = s.pc := rfl
@[simp] theorem State.pushWord_halted (s : State) (w : Addr) : (s.pushWord w).halted = s.halted := rfl
@[simp] theorem State.pushWord_cfg (s : State) (w : Addr) : (s.pushWord w).cfg = s.cfg := rfl
@[simp] theorem State.pushWord_irqLevels (s : State) (w : Addr) : (s.pushWord w).irqLevels = s.irqLevels := rfl
@[simp] theorem State.pushWord_hostWrites (s : State) (w : Addr) : (s.pushWord w).hostWrites = s.hostRest := rfl

/-! ### `popped` -/

@[simp] theorem State.popped_a (s : State) : (s.popped).a = s.a := rfl
@[simp] theorem State.popped_x (s : State) : (s.popped).x = s.x := rfl
@[simp] theorem State.popped_y (s : State) : (s.popped).y = s.y := rfl
@[simp] theorem State.popped_sp (s : State) : (s.popped).sp = s.sp + 1 := rfl
@[simp] theorem State.popped_p (s : State) : (s.popped).p = s.p := rfl
@[simp] theorem State.popped_pc (s : State) : (s.popped).pc = s.pc := rfl
@[simp] theorem State.popped_halted (s : State) : (s.popped).halted = s.halted := rfl
@[simp] theorem State.popped_mem (s : State) : (s.popped).mem = s.mem := rfl
@[simp] theorem State.popped_cfg (s : State) : (s.popped).cfg = s.cfg := rfl
@[simp] theorem State.popped_irqLevels (s : State) : (s.popped).irqLevels = s.irqLevels := rfl
@[simp] theorem State.popped_hostWrites (s : State) : (s.popped).hostWrites = s.hostWrites := rfl

/-! ### `poppedWord` -/

@[simp] theorem State.poppedWord_a (s : State) : s.poppedWord.a = s.a := rfl
@[simp] theorem State.poppedWord_x (s : State) : s.poppedWord.x = s.x := rfl
@[simp] theorem State.poppedWord_y (s : State) : s.poppedWord.y = s.y := rfl
@[simp] theorem State.poppedWord_p (s : State) : s.poppedWord.p = s.p := rfl
@[simp] theorem State.poppedWord_pc (s : State) : s.poppedWord.pc = s.pc := rfl
@[simp] theorem State.poppedWord_halted (s : State) : s.poppedWord.halted = s.halted := rfl
@[simp] theorem State.poppedWord_cfg (s : State) : s.poppedWord.cfg = s.cfg := rfl
@[simp] theorem State.poppedWord_irqLevels (s : State) : s.poppedWord.irqLevels = s.irqLevels := rfl
@[simp] theorem State.poppedWord_sp (s : State) : s.poppedWord.sp = s.sp + 1 + 1 := rfl

/-! ### `passBoundary` -/

@[simp] theorem State.passBoundary_a (s : State) : (s.passBoundary).a = s.a := rfl
@[simp] theorem State.passBoundary_x (s : State) : (s.passBoundary).x = s.x := rfl
@[simp] theorem State.passBoundary_y (s : State) : (s.passBoundary).y = s.y := rfl
@[simp] theorem State.passBoundary_sp (s : State) : (s.passBoundary).sp = s.sp := rfl
@[simp] theorem State.passBoundary_p (s : State) : (s.passBoundary).p = s.p := rfl
@[simp] theorem State.passBoundary_pc (s : State) : (s.passBoundary).pc = s.pc := rfl
@[simp] theorem State.passBoundary_halted (s : State) : (s.passBoundary).halted = s.halted := rfl
@[simp] theorem State.passBoundary_mem (s : State) : (s.passBoundary).mem = s.mem := rfl
@[simp] theorem State.passBoundary_cfg (s : State) : (s.passBoundary).cfg = s.cfg := rfl
@[simp] theorem State.passBoundary_irqLevels (s : State) : (s.passBoundary).irqLevels = s.irqLevels.tail := rfl
@[simp] theorem State.passBoundary_hostWrites (s : State) : (s.passBoundary).hostWrites = s.hostWrites := rfl

/-! ### `haltWith` -/

@[simp] theorem State.haltWith_a (s : State) (r : Fault) : (s.haltWith r).a = s.a := rfl
@[simp] theorem State.haltWith_x (s : State) (r : Fault) : (s.haltWith r).x = s.x := rfl
@[simp] theorem State.haltWith_y (s : State) (r : Fault) : (s.haltWith r).y = s.y := rfl
@[simp] theorem State.haltWith_sp (s : State) (r : Fault) : (s.haltWith r).sp = s.sp := rfl
@[simp] theorem State.haltWith_p (s : State) (r : Fault) : (s.haltWith r).p = s.p := rfl
@[simp] theorem State.haltWith_pc (s : State) (r : Fault) : (s.haltWith r).pc = s.pc := rfl
@[simp] theorem State.haltWith_halted (s : State) (r : Fault) : (s.haltWith r).halted = some r := rfl
@[simp] theorem State.haltWith_mem (s : State) (r : Fault) : (s.haltWith r).mem = s.mem := rfl
@[simp] theorem State.haltWith_cfg (s : State) (r : Fault) : (s.haltWith r).cfg = s.cfg := rfl
@[simp] theorem State.haltWith_irqLevels (s : State) (r : Fault) : (s.haltWith r).irqLevels = s.irqLevels := rfl
@[simp] theorem State.haltWith_hostWrites (s : State) (r : Fault) : (s.haltWith r).hostWrites = s.hostWrites := rfl

/-! ### `setReg` -/

@[simp] theorem State.setReg_a_a (s : State) (v : Byte) : (s.setReg .a v).a = v := rfl
@[simp] theorem State.setReg_a_x (s : State) (v : Byte) : (s.setReg .a v).x = s.x := rfl
@[simp] theorem State.setReg_a_y (s : State) (v : Byte) : (s.setReg .a v).y = s.y := rfl
@[simp] theorem State.setReg_a_sp (s : State) (v : Byte) : (s.setReg .a v).sp = s.sp := rfl
@[simp] theorem State.setReg_x_a (s : State) (v : Byte) : (s.setReg .x v).a = s.a := rfl
@[simp] theorem State.setReg_x_x (s : State) (v : Byte) : (s.setReg .x v).x = v := rfl
@[simp] theorem State.setReg_x_y (s : State) (v : Byte) : (s.setReg .x v).y = s.y := rfl
@[simp] theorem State.setReg_x_sp (s : State) (v : Byte) : (s.setReg .x v).sp = s.sp := rfl
@[simp] theorem State.setReg_y_a (s : State) (v : Byte) : (s.setReg .y v).a = s.a := rfl
@[simp] theorem State.setReg_y_x (s : State) (v : Byte) : (s.setReg .y v).x = s.x := rfl
@[simp] theorem State.setReg_y_y (s : State) (v : Byte) : (s.setReg .y v).y = v := rfl
@[simp] theorem State.setReg_y_sp (s : State) (v : Byte) : (s.setReg .y v).sp = s.sp := rfl
@[simp] theorem State.setReg_s_a (s : State) (v : Byte) : (s.setReg .s v).a = s.a := rfl
@[simp] theorem State.setReg_s_x (s : State) (v : Byte) : (s.setReg .s v).x = s.x := rfl
@[simp] theorem State.setReg_s_y (s : State) (v : Byte) : (s.setReg .s v).y = s.y := rfl
@[simp] theorem State.setReg_s_sp (s : State) (v : Byte) : (s.setReg .s v).sp = v := rfl
@[simp] theorem State.setReg_p (s : State) (r : Reg) (v : Byte) : (s.setReg r v).p = s.p := by cases r <;> rfl
@[simp] theorem State.setReg_pc (s : State) (r : Reg) (v : Byte) : (s.setReg r v).pc = s.pc := by cases r <;> rfl
@[simp] theorem State.setReg_halted (s : State) (r : Reg) (v : Byte) : (s.setReg r v).halted = s.halted := by cases r <;> rfl
@[simp] theorem State.setReg_mem (s : State) (r : Reg) (v : Byte) : (s.setReg r v).mem = s.mem := by cases r <;> rfl
@[simp] theorem State.setReg_cfg (s : State) (r : Reg) (v : Byte) : (s.setReg r v).cfg = s.cfg := by cases r <;> rfl
@[simp] theorem State.setReg_irqLevels (s : State) (r : Reg) (v : Byte) : (s.setReg r v).irqLevels = s.irqLevels := by cases r <;> rfl
@[simp] theorem State.setReg_hostWrites (s : State) (r : Reg) (v : Byte) : (s.setReg r v).hostWrites = s.hostWrites := by cases r <;> rfl

@[simp] theorem State.reg_setReg_same (s : State) (r : Reg) (v : Byte) : (s.setReg r v).reg r = v := by cases r <;> rfl

theorem State.reg_setReg_ne (s : State) (r q : Reg) (v : Byte) (h : q ≠ r) : (s.setReg r v).reg q = s.reg q := by
  cases r <;> cases q <;> first | rfl | exact absurd rfl h

/-! ### Registers under the updates that write none -/

@[simp] theorem State.reg_setPC (s : State) (w : Addr) (q : Reg) : (s.setPC w).reg q = s.reg q := by cases q <;> rfl
@[simp] theorem State.reg_advance (s : State) (m : Mode) (q : Reg) : (s.advance m).reg q = s.reg q := by cases q <;> rfl
@[simp] theorem State.reg_setFlag (s : State) (f : Flag) (b : Bool) (q : Reg) : (s.setFlag f b).reg q = s.reg q := by cases q <;> rfl
@[simp] theorem State.reg_setZN (s : State) (v : Byte) (q : Reg) : (s.setZN v).reg q = s.reg q := by cases q <;> rfl
@[simp] theorem State.reg_setStatus (s : State) (v : Byte) (q : Reg) : (s.setStatus v).reg q = s.reg q := by cases q <;> rfl
@[simp] theorem State.reg_setAdderFlags (s : State) (m : Byte) (k : Nat) (nv : Byte) (q : Reg) : (s.setAdderFlags m k nv).reg q = s.reg q := by cases q <;> rfl
@[simp] theorem State.reg_setCompareFlags (s : State) (r m : Byte) (q : Reg) : (s.setCompareFlags r m).reg q = s.reg q := by cases q <;> rfl
@[simp] theorem State.reg_write (s : State) (ad : Addr) (v : Byte) (q : Reg) : (s.write ad v).reg q = s.reg q := by cases q <;> rfl
@[simp] theorem State.reg_passBoundary (s : State) (q : Reg) : (s.passBoundary).reg q = s.reg q := by cases q <;> rfl
@[simp] theorem State.reg_haltWith (s : State) (r : Fault) (q : Reg) : (s.haltWith r).reg q = s.reg q := by cases q <;> rfl

/-! ### Memory reads under the updates that write no memory -/

theorem State.read_congr (s t : State) (h : t.mem = s.mem) (ad : Addr) : t.read ad = s.read ad := by
  simp [State.read, h]

@[simp] theorem State.read_setPC (s : State) (w : Addr) (ad : Addr) : (s.setPC w).read ad = s.read ad :=
  State.read_congr s _ (by simp) ad
@[simp] theorem State.read_advance (s : State) (m : Mode) (ad : Addr) : (s.advance m).read ad = s.read ad :=
  State.read_congr s _ (by simp) ad
@[simp] theorem State.read_setFlag (s : State) (f : Flag) (b : Bool) (ad : Addr) : (s.setFlag f b).read ad = s.read ad :=
  State.read_congr s _ (by simp) ad
@[simp] theorem State.read_setZN (s : State) (v : Byte) (ad : Addr) : (s.setZN v).read ad = s.read ad :=
  State.read_congr s _ (by simp) ad
@[simp] theorem State.read_setStatus (s : State) (v : Byte) (ad : Addr) : (s.setStatus v).read ad = s.read ad :=
  State.read_congr s _ (by simp) ad
@[simp] theorem State.read_setAdderFlags (s : State) (m : Byte) (k : Nat) (nv : Byte) (ad : Addr) : (s.setAdderFlags m k nv).read ad = s.read ad :=
  State.read_congr s _ (by simp) ad
@[simp] theorem State.read_setCompareFlags (s : State) (r m : Byte) (ad : Addr) : (s.setCompareFlags r m).read ad = s.read ad :=
  State.read_congr s _ (by simp) ad
@[simp] theorem State.read_popped (s : State) (ad : Addr) : (s.popped).read ad = s.read ad :=
  State.read_congr s _ (by simp) ad
@[simp] theorem State.read_passBoundary (s : State) (ad : Addr) : (s.passBoundary).read ad = s.read ad :=
  State.read_congr s _ (by simp) ad
@[simp] theorem State.read_haltWith (s : State) (r : Fault) (ad : Addr) : (s.haltWith r).read ad = s.read ad :=
  State.read_congr s _ (by simp) ad
@[simp] theorem State.read_setReg (s : State) (r : Reg) (v : Byte) (ad : Addr) : (s.setReg r v).read ad = s.read ad :=
  State.read_congr s _ (by simp) ad

/-! ### Flags under the updates that do not write P -/

theorem State.flag_congr (s t : State) (h : t.p = s.p) (f : Flag) : t.flag f = s.flag f := by
  simp [State.flag, h]

@[simp] theorem State.flag_setPC (s : State) (w : Addr) (g : Flag) : (s.setPC w).flag g = s.flag g :=
  State.flag_congr s _ (by simp) g
@[simp] theorem State.flag_advance (s : State) (m : Mode) (g : Flag) : (s.advance m).flag g = s.flag g :=
  State.flag_congr s _ (by simp) g
@[simp] theorem State.flag_write (s : State) (ad : Addr) (v : Byte) (g : Flag) : (s.write ad v).flag g = s.flag g :=
  State.flag_congr s _ (by simp) g
@[simp] theorem State.flag_push (s : State) (v : Byte) (g : Flag) : (s.push v).flag g = s.flag g :=
  State.flag_congr s _ (by simp) g
@[simp] theorem State.flag_pushWord (s : State) (w : Addr) (g : Flag) : (s.pushWord w).flag g = s.flag g :=
  State.flag_congr s _ (by simp) g
@[simp] theorem State.flag_popped (s : State) (g : Flag) : (s.popped).flag g = s.flag g :=
  State.flag_congr s _ (by simp) g
@[simp] theorem State.flag_passBoundary (s : State) (g : Flag) : (s.passBoundary).flag g = s.flag g :=
  State.flag_congr s _ (by simp) g
@[simp] theorem State.flag_haltWith (s : State) (r : Fault) (g : Flag) : (s.haltWith r).flag g = s.flag g :=
  State.flag_congr s _ (by simp) g
@[simp] theorem State.flag_setReg (s : State) (r : Reg) (v : Byte) (g : Flag) : (s.setReg r v).flag g = s.flag g :=
  State.flag_congr s _ (by simp) g

/-! ### `hostGap`, `hostGaps` and the states at a read -/

@[simp] theorem State.hostGap_a (s : State) : s.hostGap.a = s.a := rfl
@[simp] theorem State.hostGap_x (s : State) : s.hostGap.x = s.x := rfl
@[simp] theorem State.hostGap_y (s : State) : s.hostGap.y = s.y := rfl
@[simp] theorem State.hostGap_sp (s : State) : s.hostGap.sp = s.sp := rfl
@[simp] theorem State.hostGap_p (s : State) : s.hostGap.p = s.p := rfl
@[simp] theorem State.hostGap_pc (s : State) : s.hostGap.pc = s.pc := rfl
@[simp] theorem State.hostGap_halted (s : State) : s.hostGap.halted = s.halted := rfl
@[simp] theorem State.hostGap_cfg (s : State) : s.hostGap.cfg = s.cfg := rfl
@[simp] theorem State.hostGap_irqLevels (s : State) : s.hostGap.irqLevels = s.irqLevels := rfl
theorem State.hostGap_mem (s : State) : s.hostGap.mem = s.mem.writeEach s.hostBurst := rfl
theorem State.hostGap_hostWrites (s : State) : s.hostGap.hostWrites = s.hostRest := rfl

@[simp] theorem State.hostGaps_zero (s : State) : s.hostGaps 0 = s := rfl
theorem State.hostGaps_succ (s : State) (n : Nat) : s.hostGaps (n + 1) = (s.hostGaps n).hostGap := rfl
@[simp] theorem State.hostGaps_a (s : State) (n : Nat) : (s.hostGaps n).a = s.a := by
  induction n with
  | zero => rfl
  | succ n ih => exact ih
@[simp] theorem State.hostGaps_x (s : State) (n : Nat) : (s.hostGaps n).x = s.x := by
  induction n with
  | zero => rfl
  | succ n ih => exact ih
@[simp] theorem State.hostGaps_y (s : State) (n : Nat) : (s.hostGaps n).y = s.y := by
  induction n with
  | zero => rfl
  | succ n ih => exact ih
@[simp] theorem State.hostGaps_sp (s : State) (n : Nat) : (s.hostGaps n).sp = s.sp := by
  induction n with
  | zero => rfl
  | succ n ih => exact ih
@[simp] theorem State.hostGaps_p (s : State) (n : Nat) : (s.hostGaps n).p = s.p := by
  induction n with
  | zero => rfl
  | succ n ih => exact ih
@[simp] theorem State.hostGaps_pc (s : State) (n : Nat) : (s.hostGaps n).pc = s.pc := by
  induction n with
  | zero => rfl
  | succ n ih => exact ih
@[simp] theorem State.hostGaps_halted (s : State) (n : Nat) : (s.hostGaps n).halted = s.halted := by
  induction n with
  | zero => rfl
  | succ n ih => exact ih
@[simp] theorem State.hostGaps_cfg (s : State) (n : Nat) : (s.hostGaps n).cfg = s.cfg := by
  induction n with
  | zero => rfl
  | succ n ih => exact ih
@[simp] theorem State.hostGaps_irqLevels (s : State) (n : Nat) : (s.hostGaps n).irqLevels = s.irqLevels := by
  induction n with
  | zero => rfl
  | succ n ih => exact ih

@[simp] theorem State.afterPointer_a (s : State) (o : Operand) : (s.afterPointer o).a = s.a := s.hostGaps_a _
@[simp] theorem State.afterPointer_x (s : State) (o : Operand) : (s.afterPointer o).x = s.x := s.hostGaps_x _
@[simp] theorem State.afterPointer_y (s : State) (o : Operand) : (s.afterPointer o).y = s.y := s.hostGaps_y _
@[simp] theorem State.afterPointer_sp (s : State) (o : Operand) : (s.afterPointer o).sp = s.sp := s.hostGaps_sp _
@[simp] theorem State.afterPointer_p (s : State) (o : Operand) : (s.afterPointer o).p = s.p := s.hostGaps_p _
@[simp] theorem State.afterPointer_pc (s : State) (o : Operand) : (s.afterPointer o).pc = s.pc := s.hostGaps_pc _
@[simp] theorem State.afterPointer_halted (s : State) (o : Operand) : (s.afterPointer o).halted = s.halted := s.hostGaps_halted _
@[simp] theorem State.afterPointer_cfg (s : State) (o : Operand) : (s.afterPointer o).cfg = s.cfg := s.hostGaps_cfg _
@[simp] theorem State.afterPointer_irqLevels (s : State) (o : Operand) : (s.afterPointer o).irqLevels = s.irqLevels := s.hostGaps_irqLevels _
@[simp] theorem State.afterRead_a (s : State) (o : Operand) : (s.afterRead o).a = s.a := s.hostGaps_a _
@[simp] theorem State.afterRead_x (s : State) (o : Operand) : (s.afterRead o).x = s.x := s.hostGaps_x _
@[simp] theorem State.afterRead_y (s : State) (o : Operand) : (s.afterRead o).y = s.y := s.hostGaps_y _
@[simp] theorem State.afterRead_sp (s : State) (o : Operand) : (s.afterRead o).sp = s.sp := s.hostGaps_sp _
@[simp] theorem State.afterRead_p (s : State) (o : Operand) : (s.afterRead o).p = s.p := s.hostGaps_p _
@[simp] theorem State.afterRead_pc (s : State) (o : Operand) : (s.afterRead o).pc = s.pc := s.hostGaps_pc _
@[simp] theorem State.afterRead_halted (s : State) (o : Operand) : (s.afterRead o).halted = s.halted := s.hostGaps_halted _
@[simp] theorem State.afterRead_cfg (s : State) (o : Operand) : (s.afterRead o).cfg = s.cfg := s.hostGaps_cfg _
@[simp] theorem State.afterRead_irqLevels (s : State) (o : Operand) : (s.afterRead o).irqLevels = s.irqLevels := s.hostGaps_irqLevels _

@[simp] theorem State.gapAt_a (s : State) (l : Location) : (s.gapAt l).a = s.a := by cases l <;> rfl
@[simp] theorem State.gapAt_x (s : State) (l : Location) : (s.gapAt l).x = s.x := by cases l <;> rfl
@[simp] theorem State.gapAt_y (s : State) (l : Location) : (s.gapAt l).y = s.y := by cases l <;> rfl
@[simp] theorem State.gapAt_sp (s : State) (l : Location) : (s.gapAt l).sp = s.sp := by cases l <;> rfl
@[simp] theorem State.gapAt_p (s : State) (l : Location) : (s.gapAt l).p = s.p := by cases l <;> rfl
@[simp] theorem State.gapAt_pc (s : State) (l : Location) : (s.gapAt l).pc = s.pc := by cases l <;> rfl
@[simp] theorem State.gapAt_halted (s : State) (l : Location) : (s.gapAt l).halted = s.halted := by cases l <;> rfl
@[simp] theorem State.gapAt_cfg (s : State) (l : Location) : (s.gapAt l).cfg = s.cfg := by cases l <;> rfl
@[simp] theorem State.gapAt_irqLevels (s : State) (l : Location) : (s.gapAt l).irqLevels = s.irqLevels := by cases l <;> rfl
@[simp] theorem State.gapAt_acc (s : State) : s.gapAt .acc = s := rfl
@[simp] theorem State.gapAt_mem (s : State) (ea : Addr) : s.gapAt (.mem ea) = s.hostGap := rfl

@[simp] theorem State.reg_hostGap (s : State) (q : Reg) : s.hostGap.reg q = s.reg q := by cases q <;> rfl
@[simp] theorem State.reg_hostGaps (s : State) (n : Nat) (q : Reg) : (s.hostGaps n).reg q = s.reg q := by
  cases q <;> simp [State.reg]
@[simp] theorem State.flag_hostGap (s : State) (g : Flag) : s.hostGap.flag g = s.flag g := rfl
@[simp] theorem State.flag_hostGaps (s : State) (n : Nat) (g : Flag) : (s.hostGaps n).flag g = s.flag g := by
  simp [State.flag]

/-! ### `writeLoc` -/

@[simp] theorem State.writeLoc_x (s : State) (l : Location) (v : Byte) : (s.writeLoc l v).x = s.x := by cases l <;> rfl
@[simp] theorem State.writeLoc_y (s : State) (l : Location) (v : Byte) : (s.writeLoc l v).y = s.y := by cases l <;> rfl
@[simp] theorem State.writeLoc_sp (s : State) (l : Location) (v : Byte) : (s.writeLoc l v).sp = s.sp := by cases l <;> rfl
@[simp] theorem State.writeLoc_p (s : State) (l : Location) (v : Byte) : (s.writeLoc l v).p = s.p := by cases l <;> rfl
@[simp] theorem State.writeLoc_pc (s : State) (l : Location) (v : Byte) : (s.writeLoc l v).pc = s.pc := by cases l <;> rfl
@[simp] theorem State.writeLoc_halted (s : State) (l : Location) (v : Byte) : (s.writeLoc l v).halted = s.halted := by cases l <;> rfl
@[simp] theorem State.writeLoc_cfg (s : State) (l : Location) (v : Byte) : (s.writeLoc l v).cfg = s.cfg := by cases l <;> rfl
@[simp] theorem State.writeLoc_irqLevels (s : State) (l : Location) (v : Byte) : (s.writeLoc l v).irqLevels = s.irqLevels := by cases l <;> rfl
@[simp] theorem State.writeLoc_hostWrites (s : State) (l : Location) (v : Byte) : (s.writeLoc l v).hostWrites = s.hostWrites := by cases l <;> rfl
@[simp] theorem State.writeLoc_acc_a (s : State) (v : Byte) : (s.writeLoc .acc v).a = v := rfl
@[simp] theorem State.writeLoc_acc_mem (s : State) (v : Byte) : (s.writeLoc .acc v).mem = s.mem := rfl
@[simp] theorem State.writeLoc_mem_a (s : State) (ea : Addr) (v : Byte) : (s.writeLoc (.mem ea) v).a = s.a := rfl
@[simp] theorem State.writeLoc_mem_mem (s : State) (ea : Addr) (v : Byte) :
    (s.writeLoc (.mem ea) v).mem = s.mem.write ea.toNat v := rfl

/-! ### The accessors at each register -/

@[simp] theorem State.reg_a (s : State) : s.reg .a = s.a := rfl
@[simp] theorem State.reg_x (s : State) : s.reg .x = s.x := rfl
@[simp] theorem State.reg_y (s : State) : s.reg .y = s.y := rfl
@[simp] theorem State.reg_s (s : State) : s.reg .s = s.sp := rfl

end Sys2Proof.Machine
end

