-- ==== Sys2Proof/Laws/Flags.lean ====
section
/-! SUPPORT. The byte P and the flag engine: what each write of P does to each flag. -/

namespace Sys2Proof.Machine

/-! ### Bits of P -/

theorem Flag.bit_lt (f : Flag) : f.bit < 8 := by cases f <;> decide

theorem Flag.bit_ne_five (f : Flag) : f.bit ≠ 5 := by cases f <;> decide

theorem Flag.bit_injective (f g : Flag) (h : f.bit = g.bit) : f = g := by
  cases f <;> cases g <;> first | rfl | exact absurd h (by decide)

theorem forceReserved_bit (p : Byte) (n : Nat) : (forceReserved p).getLsbD n = (p.getLsbD n || decide (n = 5)) := by
  have h : (0x20 : Byte) = BitVec.twoPow 8 5 := by decide
  simp only [forceReserved, BitVec.getLsbD_or, h, BitVec.getLsbD_twoPow]
  by_cases hn : n = 5 <;> simp [hn, eq_comm]

/-- Bit 5 reads 1 after every forced write (10_state.md R27). -/
@[simp] theorem forceReserved_reserved (p : Byte) : (forceReserved p).getLsbD 5 = true := by
  simp [forceReserved_bit]

@[simp] theorem getFlag_forceReserved (f : Flag) (p : Byte) : getFlag f (forceReserved p) = getFlag f p := by
  simp [getFlag, forceReserved_bit, f.bit_ne_five]

theorem forceReserved_of_bit (p : Byte) (h : p.getLsbD 5 = true) : forceReserved p = p := by
  apply BitVec.eq_of_getLsbD_eq
  intro n _
  rw [forceReserved_bit]
  by_cases hn : n = 5
  · subst hn; simp [h]
  · simp [hn]

/-- Two bytes with bit 5 set that agree on the seven flags are equal. -/
theorem status_ext (p q : Byte) (hp : p.getLsbD 5 = true) (hq : q.getLsbD 5 = true)
    (h : ∀ f, getFlag f p = getFlag f q) : p = q := by
  apply BitVec.eq_of_getLsbD_eq
  intro n hn
  have := h .c; have := h .z; have := h .i; have := h .d; have := h .b; have := h .v; have := h .n
  simp only [getFlag, Flag.bit] at *
  match n, hn with
  | 0, _ | 1, _ | 2, _ | 3, _ | 4, _ | 6, _ | 7, _ => assumption
  | 5, _ => rw [hp, hq]

/-! ### Single-flag writes -/

@[simp] theorem putFlag_reserved (f : Flag) (b : Bool) (p : Byte) : (putFlag f b p).getLsbD 5 = true := by
  simp [putFlag]

@[simp] theorem getFlag_putFlag_same (f : Flag) (b : Bool) (p : Byte) : getFlag f (putFlag f b p) = b := by
  cases b <;> simp [putFlag] <;> simp [getFlag, Flag.mask, f.bit_lt]

theorem getFlag_putFlag_ne (f g : Flag) (b : Bool) (p : Byte) (h : g ≠ f) :
    getFlag g (putFlag f b p) = getFlag g p := by
  have hb : g.bit ≠ f.bit := fun e => h (Flag.bit_injective g f e)
  cases b <;> simp [putFlag] <;> simp [getFlag, Flag.mask, g.bit_lt, hb]

theorem getFlag_putFlag (f g : Flag) (b : Bool) (p : Byte) :
    getFlag g (putFlag f b p) = if g = f then b else getFlag g p := by
  by_cases h : g = f
  · subst h; simp
  · simp [h, getFlag_putFlag_ne f g b p h]

/-! ### Zero and Negative -/

@[simp] theorem putZN_reserved (v p : Byte) : (putZN v p).getLsbD 5 = true := by simp [putZN]

@[simp] theorem getFlag_putZN_z (v p : Byte) : getFlag .z (putZN v p) = (v == 0) := by
  simp [putZN, getFlag_putFlag]

@[simp] theorem getFlag_putZN_n (v p : Byte) : getFlag .n (putZN v p) = v.msb := by simp [putZN]

theorem getFlag_putZN_other (f : Flag) (v p : Byte) (hz : f ≠ .z) (hn : f ≠ .n) :
    getFlag f (putZN v p) = getFlag f p := by
  simp [putZN, getFlag_putFlag, hz, hn]

/-! ### The adder's flags -/

@[simp] theorem adderFlags_reserved (m : Byte) (k : Nat) (nv p : Byte) : (adderFlags m k nv p).getLsbD 5 = true := by
  simp [adderFlags]

@[simp] theorem getFlag_adderFlags_c (m : Byte) (k : Nat) (nv p : Byte) :
    getFlag .c (adderFlags m k nv p) = carryOfSum (m.toNat + k) := by
  simp [adderFlags, putZN, getFlag_putFlag]

@[simp] theorem getFlag_adderFlags_v (m : Byte) (k : Nat) (nv p : Byte) :
    getFlag .v (adderFlags m k nv p) = overflowOf m nv (adderResult m k) := by
  simp [adderFlags, putZN, getFlag_putFlag]

@[simp] theorem getFlag_adderFlags_z (m : Byte) (k : Nat) (nv p : Byte) :
    getFlag .z (adderFlags m k nv p) = (adderResult m k == 0) := by simp [adderFlags]

@[simp] theorem getFlag_adderFlags_n (m : Byte) (k : Nat) (nv p : Byte) :
    getFlag .n (adderFlags m k nv p) = (adderResult m k).msb := by simp [adderFlags]

/-- The adder writes C, V, Z and N only (40_flag_engine.md R125). -/
theorem getFlag_adderFlags_other (f : Flag) (m : Byte) (k : Nat) (nv p : Byte) (hc : f ≠ .c) (hv : f ≠ .v) (hz : f ≠ .z)
    (hn : f ≠ .n) : getFlag f (adderFlags m k nv p) = getFlag f p := by
  simp [adderFlags, putZN, getFlag_putFlag, hc, hv, hz, hn]

/-! ### The flags of State -/

theorem State.flag_setFlag (s : State) (f g : Flag) (b : Bool) : (s.setFlag f b).flag g = if g = f then b else s.flag g :=
  getFlag_putFlag f g b s.p

@[simp] theorem State.flag_setFlag_same (s : State) (f : Flag) (b : Bool) : (s.setFlag f b).flag f = b :=
  getFlag_putFlag_same f b s.p

@[simp] theorem State.flag_setStatus (s : State) (v : Byte) (f : Flag) : (s.setStatus v).flag f = getFlag f v :=
  getFlag_forceReserved f v

@[simp] theorem State.flag_setZN_z (s : State) (v : Byte) : (s.setZN v).flag .z = (v == 0) := getFlag_putZN_z v s.p

@[simp] theorem State.flag_setZN_n (s : State) (v : Byte) : (s.setZN v).flag .n = v.msb := getFlag_putZN_n v s.p

theorem State.flag_setZN_other (s : State) (v : Byte) (f : Flag) (hz : f ≠ .z) (hn : f ≠ .n) :
    (s.setZN v).flag f = s.flag f := getFlag_putZN_other f v s.p hz hn

theorem State.flag_setZN (s : State) (v : Byte) (f : Flag) :
    (s.setZN v).flag f = if f = .z then (v == 0) else if f = .n then v.msb else s.flag f := by
  by_cases hz : f = .z
  · subst hz; simp
  · by_cases hn : f = .n
    · subst hn; simp
    · simp [hz, hn, State.flag_setZN_other s v f hz hn]

theorem State.flag_setAdderFlags_c (s : State) (m : Byte) (k : Nat) (nv : Byte) :
    (s.setAdderFlags m k nv).flag .c = carryOfSum (m.toNat + k) := getFlag_adderFlags_c m k nv s.p

theorem State.flag_setAdderFlags_v (s : State) (m : Byte) (k : Nat) (nv : Byte) :
    (s.setAdderFlags m k nv).flag .v = overflowOf m nv (adderResult m k) := getFlag_adderFlags_v m k nv s.p

theorem State.flag_setAdderFlags_z (s : State) (m : Byte) (k : Nat) (nv : Byte) :
    (s.setAdderFlags m k nv).flag .z = (adderResult m k == 0) := getFlag_adderFlags_z m k nv s.p

theorem State.flag_setAdderFlags_n (s : State) (m : Byte) (k : Nat) (nv : Byte) :
    (s.setAdderFlags m k nv).flag .n = (adderResult m k).msb := getFlag_adderFlags_n m k nv s.p

theorem State.flag_setAdderFlags_other (s : State) (m : Byte) (k : Nat) (nv : Byte) (f : Flag) (hc : f ≠ .c) (hv : f ≠ .v)
    (hz : f ≠ .z) (hn : f ≠ .n) : (s.setAdderFlags m k nv).flag f = s.flag f :=
  getFlag_adderFlags_other f m k nv s.p hc hv hz hn

/-- The status register as read whole has bit 5 set (10_state.md R27). -/
@[simp] theorem State.status_reserved (s : State) : s.status.getLsbD 5 = true := forceReserved_reserved s.p

@[simp] theorem State.getFlag_status (s : State) (f : Flag) : getFlag f s.status = s.flag f := getFlag_forceReserved f s.p

end Sys2Proof.Machine
end

