-- ==== Sys2Proof/Laws/Memory.lean ====
section
/-! SUPPORT. Memory: a read after a write, the canonical form, and memories that read alike are equal. -/

namespace Sys2Proof.Machine

/-! ### A read after a write -/

/-- Below the first listed address a canonical memory reads as unlisted. -/
theorem Memory.read_below (m : Memory) (lo a : Nat) (h : m.wfFrom lo = true) (ha : a < lo) : m.read a = Memory.unlisted := by
  induction m generalizing lo with
  | nil => rfl
  | cons c m ih =>
    obtain ⟨k, u⟩ := c
    simp only [Memory.wfFrom, Bool.and_eq_true, decide_eq_true_eq] at h
    have hk : k ≠ a := by omega
    simp only [Memory.read, hk, if_false]
    exact ih (k + 1) h.2 (by omega)

/-- A canonical memory lists nothing outside the 64 KiB. -/
theorem Memory.read_above (m : Memory) (lo a : Nat) (h : m.wfFrom lo = true) (ha : 65536 ≤ a) :
    m.read a = Memory.unlisted := by
  induction m generalizing lo with
  | nil => rfl
  | cons c m ih =>
    obtain ⟨k, u⟩ := c
    simp only [Memory.wfFrom, Bool.and_eq_true, decide_eq_true_eq] at h
    have hk : k ≠ a := by omega
    simp only [Memory.read, hk, if_false]
    exact ih (k + 1) h.2

theorem Memory.read_erase (m : Memory) (a b : Nat) : (m.erase a).read b = if b = a then Memory.unlisted else m.read b := by
  induction m with
  | nil => simp [Memory.erase, Memory.read]
  | cons c m ih =>
    obtain ⟨k, u⟩ := c
    simp only [Memory.erase] at ih ⊢
    by_cases hk : k = a
    · subst hk
      simp only [List.filter_cons, bne_self_eq_false, Bool.false_eq_true, if_false, ih, Memory.read]
      by_cases hb : b = k
      · simp [hb]
      · simp [hb, Ne.symm hb]
    · simp only [List.filter_cons, bne_iff_ne, ne_eq, hk, not_false_eq_true, if_true, Memory.read, ih]
      by_cases hb : k = b
      · subst hb; simp [hk]
      · simp [hb]

theorem Memory.read_insert (m : Memory) (a b : Nat) (v : Byte) :
    (m.insert a v).read b = if b = a then v else m.read b := by
  induction m with
  | nil => simp only [Memory.insert, Memory.read, eq_comm (a := a)]
  | cons c m ih =>
    obtain ⟨k, u⟩ := c
    simp only [Memory.insert]
    split
    · by_cases hb : b = a
      · simp [Memory.read, hb]
      · simp [Memory.read, hb, Ne.symm hb]
    · split
      · rename_i h
        subst h
        by_cases hb : b = a
        · simp [Memory.read, hb]
        · simp [Memory.read, hb, Ne.symm hb]
      · rename_i h
        simp only [Memory.read, ih]
        by_cases hb : k = b
        · subst hb; simp [Ne.symm h]
        · simp [hb]

/-- What a write does to every read (20_memory.md R61). -/
theorem Memory.read_write (m : Memory) (a b : Nat) (v : Byte) : (m.write a v).read b = if b = a then v else m.read b := by
  unfold Memory.write
  split
  · rename_i h
    rw [Memory.read_erase, h]
  · exact Memory.read_insert m a b v

/-- Several writes make memories that read alike at an address read alike there. -/
theorem Memory.read_writeEach_congr (ws : List (Addr × Byte)) (m m' : Memory) (a : Nat) (h : m.read a = m'.read a) :
    (m.writeEach ws).read a = (m'.writeEach ws).read a := by
  induction ws generalizing m m' with
  | nil => exact h
  | cons w ws ih => exact ih _ _ (by rw [Memory.read_write, Memory.read_write, h])

/-- An address that none of several writes names reads as before. -/
theorem Memory.read_writeEach_ne (ws : List (Addr × Byte)) (m : Memory) (a : Nat) (h : ∀ w ∈ ws, a ≠ w.1.toNat) :
    (m.writeEach ws).read a = m.read a := by
  induction ws generalizing m with
  | nil => rfl
  | cons w ws ih =>
    rw [Memory.writeEach, ih _ fun w' h' => h w' (List.mem_cons_of_mem _ h'), Memory.read_write,
      if_neg (h w List.mem_cons_self)]

/-! ### The canonical form -/

theorem Memory.wfFrom_mono (m : Memory) (lo lo' : Nat) (h : m.wfFrom lo = true) (hl : lo' ≤ lo) : m.wfFrom lo' = true := by
  cases m with
  | nil => rfl
  | cons c m =>
    obtain ⟨k, u⟩ := c
    simp only [Memory.wfFrom, Bool.and_eq_true, decide_eq_true_eq] at h ⊢
    exact ⟨⟨⟨by omega, h.1.1.2⟩, h.1.2⟩, h.2⟩

theorem Memory.erase_wfFrom (m : Memory) (lo a : Nat) (h : m.wfFrom lo = true) : (m.erase a).wfFrom lo = true := by
  induction m generalizing lo with
  | nil => rfl
  | cons c m ih =>
    obtain ⟨k, u⟩ := c
    simp only [Memory.wfFrom, Bool.and_eq_true, decide_eq_true_eq] at h
    have hm := ih (k + 1) h.2
    simp only [Memory.erase] at hm ⊢
    rw [List.filter_cons]
    split
    · simp only [Memory.wfFrom, Bool.and_eq_true, decide_eq_true_eq]
      exact ⟨h.1, hm⟩
    · exact Memory.wfFrom_mono _ (k + 1) lo hm (by omega)

theorem Memory.insert_wfFrom (m : Memory) (lo a : Nat) (v : Byte) (h : m.wfFrom lo = true) (hlo : lo ≤ a) (ha : a < 65536)
    (hv : v ≠ Memory.unlisted) : (m.insert a v).wfFrom lo = true := by
  induction m generalizing lo with
  | nil => simp [Memory.insert, Memory.wfFrom, hv, hlo, ha]
  | cons c m ih =>
    obtain ⟨k, u⟩ := c
    simp only [Memory.wfFrom, Bool.and_eq_true, decide_eq_true_eq] at h
    simp only [Memory.insert]
    split
    · rename_i h1
      have hk : a + 1 ≤ k := h1
      simp [Memory.wfFrom, hv, hlo, ha, hk, h]
    · split
      · rename_i h2
        subst h2
        simp [Memory.wfFrom, hv, hlo, ha, h.2]
      · have h3 : k + 1 ≤ a := by omega
        simp only [Memory.wfFrom, Bool.and_eq_true, decide_eq_true_eq]
        exact ⟨h.1, ih (k + 1) h.2 h3⟩

/-- Every write keeps the canonical form. -/
theorem Memory.write_wf (m : Memory) (a : Nat) (v : Byte) (h : m.wf = true) (ha : a < 65536) : (m.write a v).wf = true := by
  unfold Memory.write
  split
  · exact Memory.erase_wfFrom m 0 a h
  · rename_i hv
    exact Memory.insert_wfFrom m 0 a v h (Nat.zero_le a) ha hv

theorem Memory.writeEach_wf (ws : List (Addr × Byte)) (m : Memory) (h : m.wf = true) : (m.writeEach ws).wf = true := by
  induction ws generalizing m with
  | nil => exact h
  | cons w ws ih => exact ih _ (Memory.write_wf m _ _ h w.1.isLt)

/-- Canonical memories that read alike are equal. -/
theorem Memory.ext_of_read (m m' : Memory) (lo : Nat) (h : m.wfFrom lo = true) (h' : m'.wfFrom lo = true)
    (hr : ∀ a, m.read a = m'.read a) : m = m' := by
  induction m generalizing m' lo with
  | nil =>
    cases m' with
    | nil => rfl
    | cons c m' =>
      obtain ⟨k, u⟩ := c
      simp only [Memory.wfFrom, Bool.and_eq_true, decide_eq_true_eq] at h'
      have := hr k
      simp only [Memory.read, if_true] at this
      exact absurd this.symm (by simpa using h'.1.2)
  | cons c m ih =>
    obtain ⟨k, u⟩ := c
    have h0 := h
    simp only [Memory.wfFrom, Bool.and_eq_true, decide_eq_true_eq] at h
    cases m' with
    | nil =>
      have := hr k
      simp only [Memory.read, if_true] at this
      exact absurd this (by simpa using h.1.2)
    | cons c' m' =>
      obtain ⟨k', u'⟩ := c'
      have h0' := h'
      simp only [Memory.wfFrom, Bool.and_eq_true, decide_eq_true_eq] at h'
      have hk : k = k' := by
        by_contra hne
        rcases Nat.lt_or_gt_of_ne hne with hlt | hlt
        · have := hr k
          rw [Memory.read_below ((k', u') :: m') k' k (by simp only [Memory.wfFrom, Bool.and_eq_true, decide_eq_true_eq]; exact ⟨⟨⟨Nat.le_refl _, h'.1.1.2⟩, h'.1.2⟩, h'.2⟩) hlt] at this
          simp only [Memory.read, if_true] at this
          exact absurd this (by simpa using h.1.2)
        · have := hr k'
          rw [Memory.read_below ((k, u) :: m) k k' (by simp only [Memory.wfFrom, Bool.and_eq_true, decide_eq_true_eq]; exact ⟨⟨⟨Nat.le_refl _, h.1.1.2⟩, h.1.2⟩, h.2⟩) hlt] at this
          simp only [Memory.read, if_true] at this
          exact absurd this.symm (by simpa using h'.1.2)
      subst hk
      have hu : u = u' := by simpa [Memory.read] using hr k
      subst hu
      congr 1
      apply ih m' (k + 1) h.2 h'.2
      intro a
      by_cases ha : a = k
      · subst ha
        rw [Memory.read_below m (a + 1) a h.2 (by omega), Memory.read_below m' (a + 1) a h'.2 (by omega)]
      · have hne : k ≠ a := fun e => ha e.symm
        simpa [Memory.read, hne] using hr a

/-! ### Reads and writes of State -/

@[simp] theorem State.read_write_same (s : State) (ad : Addr) (v : Byte) : (s.write ad v).read ad = v := by
  simp [State.read, Memory.read_write]

theorem State.read_write_ne (s : State) (ad b : Addr) (v : Byte) (h : b ≠ ad) : (s.write ad v).read b = s.read b := by
  have : b.toNat ≠ ad.toNat := fun e => h (BitVec.eq_of_toNat_eq e)
  simp [State.read, Memory.read_write, this]

theorem State.write_wf (s : State) (ad : Addr) (v : Byte) (h : s.mem.wf = true) : (s.write ad v).mem.wf = true :=
  Memory.write_wf s.mem ad.toNat v h ad.isLt

/-! ### Several bytes -/

theorem State.writeBytes_wf (s : State) (ad : Addr) (bs : List Byte) (h : s.mem.wf = true) :
    (s.writeBytes ad bs).mem.wf = true := by
  induction bs generalizing s ad with
  | nil => exact h
  | cons v vs ih => exact ih _ _ (State.write_wf s ad v h)

/-- Writing bytes changes memory only. -/
theorem State.writeBytes_mem (s : State) (ad : Addr) (bs : List Byte) : { s.writeBytes ad bs with mem := s.mem } = s := by
  induction bs generalizing s ad with
  | nil => rfl
  | cons v vs ih => exact congrArg (fun t => ({ t with mem := s.mem } : State)) (ih (s.write ad v) (ad + 1))

end Sys2Proof.Machine
end

