-- ==== Sys2Proof/Laws/Interleave.lean ====
section
/-! SUPPORT. The points between two memory primitives of one Step (20_memory.md R68, R76): what the other owner of memory can do
there, and that it does nothing under `HOST_INTERLEAVE = none`. -/

namespace Sys2Proof.Machine

/-! ### Exclusive use -/

theorem State.hostGap_none (s : State) (h : s.cfg.hostInterleave = .none) : s.hostGap = s := by
  simp [State.hostGap, State.hostBurst, State.hostRest, h, Memory.writeEach]

theorem State.hostGaps_none (s : State) (n : Nat) (h : s.cfg.hostInterleave = .none) : s.hostGaps n = s := by
  induction n with
  | zero => rfl
  | succ n ih => rw [State.hostGaps_succ, ih, State.hostGap_none s h]

/-! ### Where the other owner writes -/

theorem State.hostGaps_add (s : State) (m n : Nat) : s.hostGaps (m + n) = (s.hostGaps m).hostGaps n := by
  induction n with
  | zero => rfl
  | succ n ih => exact congrArg State.hostGap ih

/-- A point and then `n` more are `n + 1` points. -/
theorem State.hostGaps_hostGap (s : State) (n : Nat) : s.hostGap.hostGaps n = s.hostGaps (n + 1) := by
  rw [Nat.add_comm]
  exact (State.hostGaps_add s 1 n).symm

/-- States with the same settings and schedule that read alike at an address do so after the point. -/
theorem State.read_hostGap_congr {s t : State} {ad : Addr} (hc : t.cfg = s.cfg) (hw : t.hostWrites = s.hostWrites)
    (hr : t.read ad = s.read ad) : t.hostGap.read ad = s.hostGap.read ad := by
  have hb : t.hostBurst = s.hostBurst := by simp [State.hostBurst, hc, hw]
  simp only [State.read, State.hostGap_mem, hb]
  exact Memory.read_writeEach_congr _ _ _ _ hr

theorem State.hostRest_congr {s t : State} (hc : t.cfg = s.cfg) (hw : t.hostWrites = s.hostWrites) :
    t.hostRest = s.hostRest := by
  simp [State.hostRest, hc, hw]

/-- An address that the other owner does not write there reads as before. -/
theorem State.read_hostGap_ne (s : State) (ad : Addr) (h : ∀ w ∈ s.hostBurst, w.1 ≠ ad) : s.hostGap.read ad = s.read ad :=
  Memory.read_writeEach_ne _ _ _ fun w hw e => h w hw (BitVec.eq_of_toNat_eq e.symm)

theorem State.hostGap_wf (s : State) (h : s.mem.wf = true) : s.hostGap.mem.wf = true := Memory.writeEach_wf _ _ h

theorem State.hostGaps_wf (s : State) (n : Nat) (h : s.mem.wf = true) : (s.hostGaps n).mem.wf = true := by
  induction n with
  | zero => exact h
  | succ n ih => exact State.hostGap_wf _ ih

end Sys2Proof.Machine
end

