-- ==== Sys2Proof/Laws/Ops.lean ====
section
/-! SUPPORT. The stack, taking an exception and returning from it: what each does to registers, flags and memory. -/

namespace Sys2Proof.Machine

/-! ### Stack addresses -/

theorem stackAddr_toNat (sp : Byte) : (stackAddr sp).toNat = 256 + sp.toNat := by
  have h : sp.toNat < 2 ^ 8 := sp.isLt
  have h1 : (0x0100 : Addr).toNat = 1 <<< 8 := by decide
  simp only [stackAddr, zext16, BitVec.toNat_or, BitVec.toNat_setWidth, h1]
  rw [Nat.mod_eq_of_lt (by omega), ← Nat.shiftLeft_add_eq_or_of_lt h, Nat.shiftLeft_eq]

theorem stackAddr_injective (a b : Byte) (h : stackAddr a = stackAddr b) : a = b := by
  have := congrArg BitVec.toNat h
  rw [stackAddr_toNat, stackAddr_toNat] at this
  exact BitVec.eq_of_toNat_eq (by omega)

/-- Different stack pointers designate different bytes. -/
theorem stackAddr_ne (a b : Byte) (h : a ≠ b) : stackAddr a ≠ stackAddr b := fun e => h (stackAddr_injective a b e)

/-- Neither byte of a vector lies in the stack page (20_memory.md R70). -/
theorem stackAddr_ne_high (sp : Byte) (ad : Addr) (h : 512 ≤ ad.toNat) : ad ≠ stackAddr sp := by
  intro e
  have h1 := stackAddr_toNat sp
  have h2 := sp.isLt
  rw [← e] at h1
  omega

/-! ### Push and pop -/

theorem State.push_eq (s : State) (v : Byte) : s.push v = { s.write (stackAddr s.sp) v with sp := s.sp - 1 } := rfl

/-- The byte pushed is at `0x0100 | S` (45_stack.md R270). -/
@[simp] theorem State.read_push_same (s : State) (v : Byte) : (s.push v).read (stackAddr s.sp) = v :=
  State.read_write_same s _ v

/-- A push changes no other byte (45_stack.md R270). -/
theorem State.read_push_ne (s : State) (v : Byte) (ad : Addr) (h : ad ≠ stackAddr s.sp) : (s.push v).read ad = s.read ad :=
  State.read_write_ne s _ ad v h

theorem State.push_wf (s : State) (v : Byte) (h : s.mem.wf = true) : (s.push v).mem.wf = true :=
  State.write_wf s _ v h

theorem State.reg_push_ne (s : State) (v : Byte) (q : Reg) (h : q ≠ .s) : (s.push v).reg q = s.reg q := by
  cases q <;> first | rfl | exact absurd rfl h

theorem State.reg_pushWord_ne (s : State) (w : Addr) (q : Reg) (h : q ≠ .s) : (s.pushWord w).reg q = s.reg q := by
  rw [State.pushWord, State.reg_push_ne _ _ _ h, State.reg_hostGap, State.reg_push_ne _ _ _ h]

theorem State.reg_popped_ne (s : State) (q : Reg) (h : q ≠ .s) : s.popped.reg q = s.reg q := by
  cases q <;> first | rfl | exact absurd rfl h

/-- A pop after a push returns the byte (45_stack.md R272). -/
theorem State.popValue_push (s : State) (v : Byte) : (s.push v).popValue = v := by
  simp only [State.popValue, State.push_sp, BitVec.sub_add_cancel]
  exact State.read_push_same s v

theorem State.pushWord_wf (s : State) (w : Addr) (h : s.mem.wf = true) : (s.pushWord w).mem.wf = true :=
  State.push_wf _ _ (State.hostGap_wf _ (State.push_wf s _ h))

theorem State.sp_ne_pred (sp : Byte) : sp ≠ sp - 1 := by
  intro h
  have := congrArg BitVec.toNat h
  rw [BitVec.toNat_sub] at this
  have := sp.isLt
  simp at *
  omega

/-- The low byte of a pushed word, which is pushed last, is at the next address down (20_memory.md R64). -/
theorem State.read_pushWord_lo (s : State) (w : Addr) : (s.pushWord w).read (stackAddr (s.sp - 1)) = loByte w :=
  State.read_push_same (s.push (hiByte w)).hostGap _

/-- The high byte of a pushed word is at `0x0100 | S` (20_memory.md R64), unless the other owner writes there between the two
pushes (R68). -/
theorem State.read_pushWord_hi (s : State) (w : Addr) (h : ∀ v ∈ s.hostBurst, v.1 ≠ stackAddr s.sp) :
    (s.pushWord w).read (stackAddr s.sp) = hiByte w := by
  rw [State.pushWord, State.read_push_ne _ _ _ (stackAddr_ne _ _ (State.sp_ne_pred s.sp)),
    State.read_hostGap_ne (s.push (hiByte w)) _ h]
  exact State.read_push_same s _

/-- A pushed word changes no other byte than the other owner does. -/
theorem State.read_pushWord_ne (s : State) (w : Addr) (ad : Addr) (h1 : ad ≠ stackAddr s.sp)
    (h2 : ad ≠ stackAddr (s.sp - 1)) : (s.pushWord w).read ad = s.hostGap.read ad := by
  simp only [State.pushWord, State.read_push_ne (s.push (hiByte w)).hostGap _ _ h2]
  exact State.read_hostGap_congr (by simp) (by simp) (State.read_push_ne _ _ _ h1)

/-! ### Interrupt entry and return -/

/-- The state after the three pushes of an entry, before I is set and PC loaded (60_exceptions.md R330). -/
def State.entryFrame (s : State) (ret : Addr) (b : Bool) : State :=
  ((s.pushWord ret).setFlag .b b).hostGap.push ((s.pushWord ret).setFlag .b b).status

theorem State.interruptEntry_eq (s : State) (ret : Addr) (b : Bool) :
    s.interruptEntry ret b =
      ((s.entryFrame ret b).hostGap.setFlag .i true).setPC ((s.entryFrame ret b).hostGap.readWord irqVector) := rfl

theorem State.entryFrame_wf (s : State) (ret : Addr) (b : Bool) (h : s.mem.wf = true) :
    (s.entryFrame ret b).mem.wf = true := State.push_wf _ _ (State.hostGap_wf _ (State.pushWord_wf s ret h))

@[simp] theorem State.entryFrame_cfg (s : State) (ret : Addr) (b : Bool) : (s.entryFrame ret b).cfg = s.cfg := by
  simp [State.entryFrame]

theorem State.entryFrame_hostWrites (s : State) (ret : Addr) (b : Bool) :
    (s.entryFrame ret b).hostWrites = (s.hostGaps 2).hostWrites := by
  rw [State.entryFrame, State.push_hostWrites]
  exact State.hostRest_congr (by simp) (by simp [State.hostGaps_succ, State.hostGap_hostWrites])

/-- The three pushes change no byte outside their three stack bytes but those the other owner changes (60_exceptions.md R332,
20_memory.md R68). -/
theorem State.read_entryFrame_ne (s : State) (ret : Addr) (b : Bool) (ad : Addr) (h1 : ad ≠ stackAddr s.sp)
    (h2 : ad ≠ stackAddr (s.sp - 1)) (h3 : ad ≠ stackAddr (s.sp - 1 - 1)) :
    (s.entryFrame ret b).read ad = (s.hostGaps 2).read ad := by
  simp only [State.entryFrame, State.read_push_ne ((s.pushWord ret).setFlag .b b).hostGap _ _ h3]
  refine State.read_hostGap_congr (s := s.hostGap) ?_ ?_ ?_
  · simp
  · simp [State.hostGap_hostWrites]
  · exact State.read_pushWord_ne s ret ad h1 h2

/-- An entry changes no byte outside its three stack bytes but those the other owner changes (60_exceptions.md R332). -/
theorem State.read_interruptEntry_ne (s : State) (ret : Addr) (b : Bool) (ad : Addr) (h1 : ad ≠ stackAddr s.sp)
    (h2 : ad ≠ stackAddr (s.sp - 1)) (h3 : ad ≠ stackAddr (s.sp - 1 - 1)) :
    (s.interruptEntry ret b).read ad = (s.hostGaps 3).read ad := by
  simp only [State.interruptEntry_eq, State.read_setPC, State.read_setFlag, State.hostGaps_succ s 2]
  exact State.read_hostGap_congr (by simp) (State.entryFrame_hostWrites s ret b)
    (State.read_entryFrame_ne s ret b ad h1 h2 h3)

@[simp] theorem State.interruptEntry_a (s : State) (ret : Addr) (b : Bool) : (s.interruptEntry ret b).a = s.a := by
  simp [State.interruptEntry_eq, State.entryFrame]
@[simp] theorem State.interruptEntry_x (s : State) (ret : Addr) (b : Bool) : (s.interruptEntry ret b).x = s.x := by
  simp [State.interruptEntry_eq, State.entryFrame]
@[simp] theorem State.interruptEntry_y (s : State) (ret : Addr) (b : Bool) : (s.interruptEntry ret b).y = s.y := by
  simp [State.interruptEntry_eq, State.entryFrame]
@[simp] theorem State.interruptEntry_sp (s : State) (ret : Addr) (b : Bool) :
    (s.interruptEntry ret b).sp = s.sp - 1 - 1 - 1 := by
  simp [State.interruptEntry_eq, State.entryFrame]
@[simp] theorem State.interruptEntry_p (s : State) (ret : Addr) (b : Bool) :
    (s.interruptEntry ret b).p = putFlag .i true (putFlag .b b s.p) := by
  simp [State.interruptEntry_eq, State.entryFrame]
theorem State.interruptEntry_mem (s : State) (ret : Addr) (b : Bool) :
    (s.interruptEntry ret b).mem = (s.entryFrame ret b).hostGap.mem := by
  simp [State.interruptEntry_eq]
theorem State.interruptEntry_hostWrites (s : State) (ret : Addr) (b : Bool) :
    (s.interruptEntry ret b).hostWrites = (s.hostGaps 3).hostWrites := by
  simp only [State.interruptEntry_eq, State.setPC_hostWrites, State.setFlag_hostWrites, State.hostGap_hostWrites,
    State.hostGaps_succ s 2]
  exact State.hostRest_congr (by simp) (State.entryFrame_hostWrites s ret b)
@[simp] theorem State.interruptEntry_halted (s : State) (ret : Addr) (b : Bool) :
    (s.interruptEntry ret b).halted = s.halted := by
  simp [State.interruptEntry_eq, State.entryFrame]
@[simp] theorem State.interruptEntry_cfg (s : State) (ret : Addr) (b : Bool) : (s.interruptEntry ret b).cfg = s.cfg := by
  simp [State.interruptEntry_eq, State.entryFrame]
@[simp] theorem State.interruptEntry_irqLevels (s : State) (ret : Addr) (b : Bool) :
    (s.interruptEntry ret b).irqLevels = s.irqLevels := by
  simp [State.interruptEntry_eq, State.entryFrame]

/-- PC after an entry is the word at the vector, which no push reaches (60_exceptions.md R331). -/
theorem State.interruptEntry_pc (s : State) (ret : Addr) (b : Bool) :
    (s.interruptEntry ret b).pc = wordOfBytes ((s.hostGaps 3).read 0xFFFE) ((s.hostGaps 3).read 0xFFFF) := by
  have hr : ∀ ad : Addr, 512 ≤ ad.toNat → (s.interruptEntry ret b).read ad = (s.hostGaps 3).read ad := fun ad h =>
    State.read_interruptEntry_ne s ret b ad (stackAddr_ne_high _ ad h) (stackAddr_ne_high _ ad h) (stackAddr_ne_high _ ad h)
  rw [← hr 0xFFFE (by decide), ← hr 0xFFFF (by decide)]
  simp only [State.interruptEntry_eq, State.setPC_pc, State.readWord, irqVector, State.read_setPC, State.read_setFlag]
  rfl

theorem State.interruptEntry_wf (s : State) (ret : Addr) (b : Bool) (h : s.mem.wf = true) :
    (s.interruptEntry ret b).mem.wf = true := State.hostGap_wf _ (State.entryFrame_wf s ret b h)

@[simp] theorem State.returnFromInterrupt_p (s : State) : s.returnFromInterrupt.p = forceReserved s.popValue := by
  simp [State.returnFromInterrupt]
theorem State.returnFromInterrupt_mem (s : State) : s.returnFromInterrupt.mem = (s.hostGaps 2).mem := rfl
theorem State.returnFromInterrupt_hostWrites (s : State) :
    s.returnFromInterrupt.hostWrites = (s.hostGaps 2).hostWrites := rfl
@[simp] theorem State.returnFromInterrupt_sp (s : State) : s.returnFromInterrupt.sp = s.sp + 1 + 1 + 1 := by
  simp [State.returnFromInterrupt]
@[simp] theorem State.returnFromInterrupt_a (s : State) : s.returnFromInterrupt.a = s.a := by
  simp [State.returnFromInterrupt]
@[simp] theorem State.returnFromInterrupt_x (s : State) : s.returnFromInterrupt.x = s.x := by
  simp [State.returnFromInterrupt]
@[simp] theorem State.returnFromInterrupt_y (s : State) : s.returnFromInterrupt.y = s.y := by
  simp [State.returnFromInterrupt]
@[simp] theorem State.returnFromInterrupt_halted (s : State) : s.returnFromInterrupt.halted = s.halted := by
  simp [State.returnFromInterrupt]
@[simp] theorem State.returnFromInterrupt_cfg (s : State) : s.returnFromInterrupt.cfg = s.cfg := by
  simp [State.returnFromInterrupt]
@[simp] theorem State.returnFromInterrupt_irqLevels (s : State) : s.returnFromInterrupt.irqLevels = s.irqLevels := by
  simp [State.returnFromInterrupt]
theorem State.returnFromInterrupt_pc (s : State) :
    s.returnFromInterrupt.pc =
      wordOfBytes ((s.hostGaps 1).read (stackAddr (s.sp + 1 + 1))) ((s.hostGaps 2).read (stackAddr (s.sp + 1 + 1 + 1))) := rfl

end Sys2Proof.Machine
end

