-- ==== Sys2Proof/Laws/Exec.lean ====
section
/-! SUPPORT. `exec` by handler (30_encoding.md R102), and what each shared operation of the meanings can do: where it completes,
and, if it answers a next state, which one. -/

namespace Sys2Proof.Machine

/-! ### Handing an operand to a handler -/

theorem withValue_next {mn : Mnemonic} {o : Operand} {s t : State} {k : Byte → Result} (h : withValue mn o s k = .next t) :
    ∃ m, operandValue o s = some m ∧ k m = .next t := by
  simp only [withValue, invalidMode] at h
  split at h
  · split at h
    · exact ⟨_, by assumption, h⟩
    · cases h
  · cases h

theorem withAddress_next {mn : Mnemonic} {o : Operand} {s t : State} {k : Addr → Result}
    (h : withAddress mn o s k = .next t) : ∃ ea, resolve o s = some ea ∧ k ea = .next t := by
  simp only [withAddress, invalidMode] at h
  split at h
  · split at h
    · exact ⟨_, by assumption, h⟩
    · cases h
  · cases h

theorem withLocation_next {mn : Mnemonic} {o : Operand} {s t : State} {k : Location → Result}
    (h : withLocation mn o s k = .next t) : k (locate o s) = .next t := by
  simp only [withLocation, invalidMode] at h
  split at h
  · exact h
  · cases h

theorem withValue_eq {mn : Mnemonic} {o : Operand} {s : State} {k : Byte → Result} {m : Byte}
    (ha : mn.allows o.mode = true) (hm : operandValue o s = some m) : withValue mn o s k = k m := by
  simp [withValue, ha, hm]

theorem withAddress_eq {mn : Mnemonic} {o : Operand} {s : State} {k : Addr → Result} {ea : Addr}
    (ha : mn.allows o.mode = true) (hm : resolve o s = some ea) : withAddress mn o s k = k ea := by
  simp [withAddress, ha, hm]

theorem withLocation_eq {mn : Mnemonic} {o : Operand} {s : State} {k : Location → Result}
    (ha : mn.allows o.mode = true) : withLocation mn o s k = k (locate o s) := by
  simp [withLocation, ha]

theorem decimalCheck_next {op : Byte} {s t : State} {k : Result} (h : decimalCheck op s k = .next t) : k = .next t := by
  simp only [decimalCheck] at h
  split at h
  · cases h
  · exact h

/-- No decimal refusal where the policy is binary or D is 0 (43_alu.md R216). -/
theorem decimalCheck_eq {op : Byte} {s : State} {k : Result} (h : s.cfg.decimalPolicy = .binary ∨ s.flag .d = false) :
    decimalCheck op s k = k := by
  rcases h with h | h <;> simp [decimalCheck, h]

/-! ### Every instruction is its mnemonic's handler -/

/-- `Handler[mn](mode)` (30_encoding.md R102, R104): the handler of each mnemonic, given the operand and the opcode. -/
def handle (mn : Mnemonic) (o : Operand) (op : Byte) (s : State) : Result :=
  match mn with
  | .lda => handleLda o s
  | .ldx => handleLdx o s
  | .ldy => handleLdy o s
  | .sta => handleSta o s
  | .stx => handleStx o s
  | .sty => handleSty o s
  | .tax => execTax s
  | .tay => execTay s
  | .txa => execTxa s
  | .tya => execTya s
  | .tsx => execTsx s
  | .txs => execTxs s
  | .adc => handleAdc op o s
  | .sbc => handleSbc op o s
  | .and => handleAnd o s
  | .ora => handleOra o s
  | .eor => handleEor o s
  | .asl => handleAsl o s
  | .lsr => handleLsr o s
  | .rol => handleRol o s
  | .ror => handleRor o s
  | .bit => handleBit o s
  | .inc => handleInc o s
  | .dec => handleDec o s
  | .inx => execInx s
  | .iny => execIny s
  | .dex => execDex s
  | .dey => execDey s
  | .cmp => handleCmp o s
  | .cpx => handleCpx o s
  | .cpy => handleCpy o s
  | .jmp => handleJmp o s
  | .jsr => handleJsr o s
  | .rts => execRts s
  | .bcc => match o with
    | .relative d => execBcc d s
    | o => invalidMode .bcc o
  | .bcs => match o with
    | .relative d => execBcs d s
    | o => invalidMode .bcs o
  | .beq => match o with
    | .relative d => execBeq d s
    | o => invalidMode .beq o
  | .bmi => match o with
    | .relative d => execBmi d s
    | o => invalidMode .bmi o
  | .bne => match o with
    | .relative d => execBne d s
    | o => invalidMode .bne o
  | .bpl => match o with
    | .relative d => execBpl d s
    | o => invalidMode .bpl o
  | .bvc => match o with
    | .relative d => execBvc d s
    | o => invalidMode .bvc o
  | .bvs => match o with
    | .relative d => execBvs d s
    | o => invalidMode .bvs o
  | .pha => execPha s
  | .pla => execPla s
  | .php => execPhp s
  | .plp => execPlp s
  | .clc => execClc s
  | .sec => execSec s
  | .cli => execCli s
  | .sei => execSei s
  | .cld => execCld s
  | .sed => execSed s
  | .clv => execClv s
  | .nop => execNop s
  | .brk => execBrk s
  | .rti => execRti s

/-- A Step's dispatch: exec is the handler of the mnemonic on the operand (30_encoding.md R102). -/
theorem exec_eq_handle (i : Instr) (s : State) : exec i s = handle i.mnemonic i.operand i.opcode s := by
  cases i <;> rfl

/-- The operand of an instruction with an address has a value. -/
theorem operandValue_of_resolve {o : Operand} {s : State} {ea : Addr} (h : resolve o s = some ea) :
    ∃ m, operandValue o s = some m := by
  cases o <;> simp_all [operandValue, resolve]

/-- A mode other than Accumulator and Implied has an effective address (41_addressing.md R140, R141). -/
theorem resolve_isSome (o : Operand) (s : State) (ha : o.mode ≠ .accumulator) (hi : o.mode ≠ .implied) :
    ∃ ea, resolve o s = some ea := by
  cases o <;> simp_all [resolve, Operand.mode]

end Sys2Proof.Machine
end

