-- ==== Sys2Proof/Laws/Frame.lean ====
section
/-! SUPPORT. Frames: each update adds what it writes to what may have changed. -/

namespace Sys2Proof.Machine

theorem State.changesOnly_refl (s : State) : s.changesOnly s [] [] [] :=
  ⟨fun _ _ => rfl, fun _ _ => rfl, fun _ _ => rfl, rfl, rfl, rfl, rfl⟩

/-- A frame may be weakened to larger lists. -/
theorem State.changesOnly.mono {s t : State} {R R' : List Reg} {F F' : List Flag} {M M' : List Addr}
    (h : s.changesOnly t R F M) (hR : ∀ r ∈ R, r ∈ R') (hF : ∀ f ∈ F, f ∈ F') (hM : ∀ a ∈ M, a ∈ M') :
    s.changesOnly t R' F' M' :=
  ⟨fun r hr => h.1 r fun hm => hr (hR r hm), fun f hf => h.2.1 f fun hm => hf (hF f hm),
    fun a ha => h.2.2.1 a fun hm => ha (hM a hm), h.2.2.2⟩

theorem State.changesOnly.setPC {s t : State} {R : List Reg} {F : List Flag} {M : List Addr}
    (h : s.changesOnly t R F M) (w : Addr) : s.changesOnly (t.setPC w) R F M :=
  ⟨fun r hr => by rw [State.reg_setPC]; exact h.1 r hr, fun f hf => by rw [State.flag_setPC]; exact h.2.1 f hf,
    fun a ha => by rw [State.read_setPC]; exact h.2.2.1 a ha, by simpa [State.keepsRest] using h.2.2.2⟩

theorem State.changesOnly.advance {s t : State} {R : List Reg} {F : List Flag} {M : List Addr}
    (h : s.changesOnly t R F M) (m : Mode) : s.changesOnly (t.advance m) R F M :=
  h.setPC _

theorem State.changesOnly.setReg {s t : State} {R : List Reg} {F : List Flag} {M : List Addr}
    (h : s.changesOnly t R F M) (r : Reg) (v : Byte) : s.changesOnly (t.setReg r v) (r :: R) F M :=
  ⟨fun q hq => by
      rw [List.mem_cons, not_or] at hq
      rw [State.reg_setReg_ne t r q v hq.1]
      exact h.1 q hq.2,
    fun f hf => by rw [State.flag_setReg]; exact h.2.1 f hf,
    fun a ha => by rw [State.read_setReg]; exact h.2.2.1 a ha, by simpa [State.keepsRest] using h.2.2.2⟩

theorem State.changesOnly.setFlag {s t : State} {R : List Reg} {F : List Flag} {M : List Addr}
    (h : s.changesOnly t R F M) (f : Flag) (b : Bool) : s.changesOnly (t.setFlag f b) R (f :: F) M :=
  ⟨fun q hq => by rw [State.reg_setFlag]; exact h.1 q hq,
    fun g hg => by
      rw [List.mem_cons, not_or] at hg
      rw [State.flag_setFlag, if_neg hg.1]
      exact h.2.1 g hg.2,
    fun a ha => by rw [State.read_setFlag]; exact h.2.2.1 a ha, by simpa [State.keepsRest] using h.2.2.2⟩

theorem State.changesOnly.setZN {s t : State} {R : List Reg} {F : List Flag} {M : List Addr}
    (h : s.changesOnly t R F M) (v : Byte) : s.changesOnly (t.setZN v) R (.z :: .n :: F) M :=
  ⟨fun q hq => by rw [State.reg_setZN]; exact h.1 q hq,
    fun g hg => by
      rw [List.mem_cons, List.mem_cons, not_or, not_or] at hg
      rw [State.flag_setZN_other t v g hg.1 hg.2.1]
      exact h.2.1 g hg.2.2,
    fun a ha => by rw [State.read_setZN]; exact h.2.2.1 a ha, by simpa [State.keepsRest] using h.2.2.2⟩

theorem State.changesOnly.setAdderFlags {s t : State} {R : List Reg} {F : List Flag} {M : List Addr}
    (h : s.changesOnly t R F M) (m : Byte) (k : Nat) (nv : Byte) :
    s.changesOnly (t.setAdderFlags m k nv) R (.c :: .v :: .z :: .n :: F) M :=
  ⟨fun q hq => by rw [State.reg_setAdderFlags]; exact h.1 q hq,
    fun g hg => by
      simp only [List.mem_cons, not_or] at hg
      rw [State.flag_setAdderFlags_other t m k nv g hg.1 hg.2.1 hg.2.2.1 hg.2.2.2.1]
      exact h.2.1 g hg.2.2.2.2,
    fun a ha => by rw [State.read_setAdderFlags]; exact h.2.2.1 a ha, by simpa [State.keepsRest] using h.2.2.2⟩

/-- Writing P whole may change every flag. -/
theorem State.changesOnly.setStatus {s t : State} {R : List Reg} {F : List Flag} {M : List Addr}
    (h : s.changesOnly t R F M) (v : Byte) : s.changesOnly (t.setStatus v) R [.c, .z, .i, .d, .b, .v, .n] M :=
  ⟨fun q hq => by rw [State.reg_setStatus]; exact h.1 q hq,
    fun g hg => absurd (by cases g <;> decide) hg,
    fun a ha => by rw [State.read_setStatus]; exact h.2.2.1 a ha, by simpa [State.keepsRest] using h.2.2.2⟩

theorem State.changesOnly.write {s t : State} {R : List Reg} {F : List Flag} {M : List Addr}
    (h : s.changesOnly t R F M) (ea : Addr) (v : Byte) : s.changesOnly (t.write ea v) R F (ea :: M) :=
  ⟨fun q hq => by rw [State.reg_write]; exact h.1 q hq,
    fun g hg => by rw [State.flag_write]; exact h.2.1 g hg,
    fun a ha => by
      rw [List.mem_cons, not_or] at ha
      rw [State.read_write_ne t ea a v ha.1]
      exact h.2.2.1 a ha.2,
    by simpa [State.keepsRest] using h.2.2.2⟩

theorem State.changesOnly.push {s t : State} {R : List Reg} {F : List Flag} {M : List Addr}
    (h : s.changesOnly t R F M) (v : Byte) : s.changesOnly (t.push v) (.s :: R) F (stackAddr t.sp :: M) :=
  (h.write _ v).setReg .s _

theorem State.changesOnly.popped {s t : State} {R : List Reg} {F : List Flag} {M : List Addr}
    (h : s.changesOnly t R F M) : s.changesOnly t.popped (.s :: R) F M :=
  h.setReg .s _

/-- The other owner's writes at a point are the same on both sides of a frame (20_memory.md R68). -/
theorem State.changesOnly.hostGap {s t : State} {R : List Reg} {F : List Flag} {M : List Addr}
    (h : s.changesOnly t R F M) : s.hostGap.changesOnly t.hostGap R F M :=
  ⟨fun q hq => by rw [State.reg_hostGap, State.reg_hostGap]; exact h.1 q hq,
    fun g hg => h.2.1 g hg,
    fun a ha => State.read_hostGap_congr h.2.2.2.2.1 h.2.2.2.2.2.2 (h.2.2.1 a ha),
    h.2.2.2.1, h.2.2.2.2.1, h.2.2.2.2.2.1, State.hostRest_congr h.2.2.2.2.1 h.2.2.2.2.2.2⟩

/-- A pushed word changes S and two stack bytes (20_memory.md R64), beyond what the other owner changes between the pushes. -/
theorem State.changesOnly_pushWord (s : State) (w : Addr) :
    s.hostGap.changesOnly (s.pushWord w) [.s] [] [stackAddr s.sp, stackAddr (s.sp - 1)] :=
  (((State.changesOnly_refl s).push (hiByte w)).hostGap.push (loByte w)).mono (by simp) (by simp) (by simp)

/-- An interrupt entry changes S, B, I, PC and three stack bytes (60_exceptions.md R332), beyond what the other owner changes
between its four primitives. -/
theorem State.changesOnly_interruptEntry (s : State) (ret : Addr) (b : Bool) :
    (s.hostGaps 3).changesOnly (s.interruptEntry ret b) [.s] [.b, .i]
      [stackAddr s.sp, stackAddr (s.sp - 1), stackAddr (s.sp - 1 - 1)] := by
  rw [State.interruptEntry_eq, State.entryFrame]
  exact (((((State.changesOnly_pushWord s ret).setFlag .b b).hostGap.push _).hostGap.setFlag .i true).setPC _).mono
    (by simp) (by simp) (by simp)

/-! ### Addresses that the other owner of memory does not write -/

theorem State.undisturbed.congr {s t : State} {ads : List Addr} (h : s.undisturbed ads) (hc : t.cfg = s.cfg)
    (hw : t.hostWrites = s.hostWrites) : t.undisturbed ads := by
  rw [State.undisturbed, hc, hw]
  exact h

theorem State.undisturbed.hostGap {s : State} {ads : List Addr} (h : s.undisturbed ads) : s.hostGap.undisturbed ads := by
  rcases h with h | h
  · exact .inl h
  · refine .inr fun ws hws => h ws ?_
    rw [State.hostGap_hostWrites, State.hostRest] at hws
    split at hws
    · exact hws
    · exact List.mem_of_mem_tail hws

theorem State.undisturbed.burst {s : State} {ads : List Addr} (h : s.undisturbed ads) {ad : Addr} (ha : ad ∈ ads) :
    ∀ w ∈ s.hostBurst, w.1 ≠ ad := by
  rintro w hw rfl
  rcases h with h | h
  · simp [State.hostBurst, h] at hw
  · unfold State.hostBurst at hw
    split at hw
    · cases hw
    · cases hs : s.hostWrites with
      | nil => simp [hs] at hw
      | cons ws r =>
        rw [hs, List.headD_cons] at hw
        exact h ws (by simp [hs]) w hw ha

/-- A listed address reads the same after a point between two primitives. -/
theorem State.undisturbed.read {s : State} {ads : List Addr} (h : s.undisturbed ads) {ad : Addr} (ha : ad ∈ ads) :
    s.hostGap.read ad = s.read ad :=
  State.read_hostGap_ne s ad (h.burst ha)

/-- The three bytes an interrupt entry stacks, where the other owner writes on none of them (60_exceptions.md R332). -/
theorem State.read_interruptEntry (s : State) (ret : Addr) (b : Bool)
    (h : s.undisturbed [stackAddr s.sp, stackAddr (s.sp - 1), stackAddr (s.sp - 1 - 1)]) :
    (s.interruptEntry ret b).read (stackAddr s.sp) = hiByte ret ∧
      (s.interruptEntry ret b).read (stackAddr (s.sp - 1)) = loByte ret ∧
      (s.interruptEntry ret b).read (stackAddr (s.sp - 1 - 1)) = forceReserved (putFlag .b b s.p) := by
  have h1 : ((s.pushWord ret).setFlag .b b).undisturbed [stackAddr s.sp, stackAddr (s.sp - 1), stackAddr (s.sp - 1 - 1)] :=
    h.hostGap.congr (by simp) (by simp [State.hostGap_hostWrites])
  have h2 : (s.entryFrame ret b).undisturbed [stackAddr s.sp, stackAddr (s.sp - 1), stackAddr (s.sp - 1 - 1)] :=
    h1.hostGap.congr (by simp [State.entryFrame]) (by simp [State.entryFrame])
  have h3 := State.sp_ne_pred s.sp
  have h4 := State.sp_ne_pred (s.sp - 1)
  have h5 : s.sp ≠ s.sp - 1 - 1 := by
    intro e
    have := congrArg BitVec.toNat e
    simp only [BitVec.toNat_sub] at this
    have := s.sp.isLt
    simp at *
    omega
  simp only [State.interruptEntry_eq, State.read_setPC, State.read_setFlag]
  rw [h2.read (by simp), h2.read (by simp), h2.read (by simp)]
  simp only [State.entryFrame]
  refine ⟨?_, ?_, ?_⟩
  · rw [State.read_push_ne _ _ _ (by simpa using stackAddr_ne _ _ h5), h1.read (by simp), State.read_setFlag,
      State.read_pushWord_hi s ret (h.burst (by simp))]
  · rw [State.read_push_ne _ _ _ (by simpa using stackAddr_ne _ _ h4), h1.read (by simp), State.read_setFlag,
      State.read_pushWord_lo]
  · exact State.read_push_same ((s.pushWord ret).setFlag .b b).hostGap _

/-! ### What each shared operation of the meanings does, where it completes -/

theorem operandValue_of_allows {mn : Mnemonic} {o : Operand} (s : State) (ha : mn.allows o.mode = true)
    (h1 : mn.allows .accumulator = false) (h2 : mn.allows .implied = false) : ∃ m, operandValue o s = some m := by
  cases o <;> simp_all [operandValue, resolve, Operand.mode]

theorem resolve_of_allows {mn : Mnemonic} {o : Operand} (s : State) (ha : mn.allows o.mode = true)
    (h1 : mn.allows .accumulator = false) (h2 : mn.allows .implied = false) : ∃ ea, resolve o s = some ea := by
  cases o <;> simp_all [resolve, Operand.mode]

theorem load_eq {mn : Mnemonic} {r : Reg} {o : Operand} {s : State} {m : Byte} (ha : mn.allows o.mode = true)
    (hm : operandValue o s = some m) :
    load mn r o s = .next ((((s.afterRead o).setReg r m).setZN m).advance o.mode) :=
  withValue_eq ha hm

theorem store_eq {mn : Mnemonic} {r : Reg} {o : Operand} {s : State} {ea : Addr} (ha : mn.allows o.mode = true)
    (hm : resolve o s = some ea) :
    store mn r o s = .next (((s.afterPointer o).hostGap.write ea (s.reg r)).advance o.mode) :=
  withAddress_eq ha hm

theorem logic_eq {mn : Mnemonic} {f : Byte → Byte → Byte} {o : Operand} {s : State} {m : Byte}
    (ha : mn.allows o.mode = true) (hm : operandValue o s = some m) :
    logic mn f o s = .next ((((s.afterRead o).setReg .a (f s.a m)).setZN (f s.a m)).advance o.mode) :=
  withValue_eq ha hm

theorem addWithCarry_eq {mn : Mnemonic} {f : Byte → Byte} {op : Byte} {o : Operand} {s : State} {m : Byte}
    (hd : s.cfg.decimalPolicy = .binary ∨ s.flag .d = false) (ha : mn.allows o.mode = true)
    (hm : operandValue o s = some m) :
    addWithCarry mn f op o s =
      .next ((((s.afterRead o).setAdderFlags s.a ((f m).toNat + s.carryIn) (f m)).setReg .a
        (adderResult s.a ((f m).toNat + s.carryIn))).advance o.mode) := by
  rw [addWithCarry, decimalCheck_eq hd, withValue_eq ha hm]

/-- What a shift or rotate leaves, given the location and the state at the read of it. -/
def shifted (out : Byte → Bool) (res : Byte → Bool → Byte) (m : Mode) (l : Location) (s : State) : State :=
  (((((s.gapAt l).setFlag .c (out (s.readLoc l))).writeLoc l (res (s.readLoc l) (s.flag .c))).setZN
    (res (s.readLoc l) (s.flag .c))).advance m)

theorem shift_eq {mn : Mnemonic} {out : Byte → Bool} {res : Byte → Bool → Byte} {o : Operand} {s : State}
    (ha : mn.allows o.mode = true) :
    shift mn out res o s =
      .next (shifted out res o.mode (locate o s) ((s.afterPointer o).gapAt (locate o s))) := by
  rw [shift, withLocation_eq ha]
  simp only [shifted, State.flag, State.gapAt_p, State.afterPointer_p]

theorem modifyMemory_eq {mn : Mnemonic} {f : Byte → Byte} {o : Operand} {s : State} {ea : Addr}
    (ha : mn.allows o.mode = true) (hm : resolve o s = some ea) :
    modifyMemory mn f o s =
      .next ((((s.afterPointer o).hostGap.hostGap.write ea (f ((s.afterPointer o).hostGap.read ea))).setZN
        (f ((s.afterPointer o).hostGap.read ea))).advance o.mode) :=
  withAddress_eq ha hm

theorem compare_eq {mn : Mnemonic} {r : Reg} {o : Operand} {s : State} {m : Byte} (ha : mn.allows o.mode = true)
    (hm : operandValue o s = some m) :
    compare mn r o s = .next (((s.afterRead o).setCompareFlags (s.reg r) m).advance o.mode) :=
  withValue_eq ha hm

theorem branch_eq (f : Flag) (want : Bool) (d : Byte) (s : State) :
    branch f want d s =
      .next (if s.flag f = want then s.hostGap.setPC (s.pc + 2 + sext16 d) else s.setPC (s.pc + 2)) := by
  simp only [branch]
  split <;> rfl

/-! ### If a shared operation answers a next state, which one -/

theorem load_next {mn : Mnemonic} {r : Reg} {o : Operand} {s t : State} (h : load mn r o s = .next t) :
    ∃ m, operandValue o s = some m ∧ t = (((s.afterRead o).setReg r m).setZN m).advance o.mode := by
  obtain ⟨m, hm, h⟩ := withValue_next h
  cases h
  exact ⟨m, hm, rfl⟩

theorem store_next {mn : Mnemonic} {r : Reg} {o : Operand} {s t : State} (h : store mn r o s = .next t) :
    ∃ ea, resolve o s = some ea ∧ t = ((s.afterPointer o).hostGap.write ea (s.reg r)).advance o.mode := by
  obtain ⟨ea, hm, h⟩ := withAddress_next h
  cases h
  exact ⟨ea, hm, rfl⟩

theorem logic_next {mn : Mnemonic} {f : Byte → Byte → Byte} {o : Operand} {s t : State} (h : logic mn f o s = .next t) :
    ∃ m, operandValue o s = some m ∧ t = (((s.afterRead o).setReg .a (f s.a m)).setZN (f s.a m)).advance o.mode := by
  obtain ⟨m, hm, h⟩ := withValue_next h
  cases h
  exact ⟨m, hm, rfl⟩

theorem addWithCarry_next {mn : Mnemonic} {f : Byte → Byte} {op : Byte} {o : Operand} {s t : State}
    (h : addWithCarry mn f op o s = .next t) :
    ∃ m, operandValue o s = some m ∧
      t = (((s.afterRead o).setAdderFlags s.a ((f m).toNat + s.carryIn) (f m)).setReg .a
        (adderResult s.a ((f m).toNat + s.carryIn))).advance o.mode := by
  obtain ⟨m, hm, h⟩ := withValue_next (decimalCheck_next h)
  cases h
  exact ⟨m, hm, rfl⟩

theorem shift_next {mn : Mnemonic} {out : Byte → Bool} {res : Byte → Bool → Byte} {o : Operand} {s t : State}
    (h : shift mn out res o s = .next t) :
    t = shifted out res o.mode (locate o s) ((s.afterPointer o).gapAt (locate o s)) := by
  have ha : mn.allows o.mode = true := by
    by_contra hn
    simp [shift, withLocation, invalidMode, hn] at h
  rw [shift_eq ha] at h
  cases h
  rfl

theorem modifyMemory_next {mn : Mnemonic} {f : Byte → Byte} {o : Operand} {s t : State}
    (h : modifyMemory mn f o s = .next t) :
    ∃ ea, resolve o s = some ea ∧
      t = (((s.afterPointer o).hostGap.hostGap.write ea (f ((s.afterPointer o).hostGap.read ea))).setZN
        (f ((s.afterPointer o).hostGap.read ea))).advance o.mode := by
  obtain ⟨ea, hm, h⟩ := withAddress_next h
  cases h
  exact ⟨ea, hm, rfl⟩

theorem compare_next {mn : Mnemonic} {r : Reg} {o : Operand} {s t : State} (h : compare mn r o s = .next t) :
    ∃ m, operandValue o s = some m ∧ t = ((s.afterRead o).setCompareFlags (s.reg r) m).advance o.mode := by
  obtain ⟨m, hm, h⟩ := withValue_next h
  cases h
  exact ⟨m, hm, rfl⟩

end Sys2Proof.Machine
end

