-- ==== Sys2Proof/Laws/PerInstr.lean ====
section
/-! SUPPORT. The family `EncodedShape`, one lemma per constructor: an instruction is well formed, and its encoding is its opcode
followed by as many operand bytes as its mode counts (30_encoding.md R90, R91, R94). -/

namespace Sys2Proof.Laws

/-- The shape of an instruction's encoding. -/
def EncodedShape.Statement (i : Instr) : Prop :=
  i.wellFormed = true ∧ (encode i).head? = some i.opcode ∧ (encode i).length = 1 + i.mode.len

theorem EncodedShape.ldaImm (imm : Byte) : EncodedShape.Statement (.ldaImm imm) := ⟨rfl, rfl, rfl⟩
theorem EncodedShape.ldaZp (zp : Byte) : EncodedShape.Statement (.ldaZp zp) := ⟨rfl, rfl, rfl⟩
theorem EncodedShape.ldaZpX (zp : Byte) : EncodedShape.Statement (.ldaZpX zp) := ⟨rfl, rfl, rfl⟩
theorem EncodedShape.ldaIndX (zp : Byte) : EncodedShape.Statement (.ldaIndX zp) := ⟨rfl, rfl, rfl⟩
theorem EncodedShape.ldaIndY (zp : Byte) : EncodedShape.Statement (.ldaIndY zp) := ⟨rfl, rfl, rfl⟩
theorem EncodedShape.ldaAbs (addr : Addr) : EncodedShape.Statement (.ldaAbs addr) := ⟨rfl, rfl, rfl⟩
theorem EncodedShape.ldaAbsX (addr : Addr) : EncodedShape.Statement (.ldaAbsX addr) := ⟨rfl, rfl, rfl⟩
theorem EncodedShape.ldaAbsY (addr : Addr) : EncodedShape.Statement (.ldaAbsY addr) := ⟨rfl, rfl, rfl⟩
theorem EncodedShape.ldxImm (imm : Byte) : EncodedShape.Statement (.ldxImm imm) := ⟨rfl, rfl, rfl⟩
theorem EncodedShape.ldxZp (zp : Byte) : EncodedShape.Statement (.ldxZp zp) := ⟨rfl, rfl, rfl⟩
theorem EncodedShape.ldxZpY (zp : Byte) : EncodedShape.Statement (.ldxZpY zp) := ⟨rfl, rfl, rfl⟩
theorem EncodedShape.ldxAbs (addr : Addr) : EncodedShape.Statement (.ldxAbs addr) := ⟨rfl, rfl, rfl⟩
theorem EncodedShape.ldxAbsY (addr : Addr) : EncodedShape.Statement (.ldxAbsY addr) := ⟨rfl, rfl, rfl⟩
theorem EncodedShape.ldyImm (imm : Byte) : EncodedShape.Statement (.ldyImm imm) := ⟨rfl, rfl, rfl⟩
theorem EncodedShape.ldyZp (zp : Byte) : EncodedShape.Statement (.ldyZp zp) := ⟨rfl, rfl, rfl⟩
theorem EncodedShape.ldyZpX (zp : Byte) : EncodedShape.Statement (.ldyZpX zp) := ⟨rfl, rfl, rfl⟩
theorem EncodedShape.ldyAbs (addr : Addr) : EncodedShape.Statement (.ldyAbs addr) := ⟨rfl, rfl, rfl⟩
theorem EncodedShape.ldyAbsX (addr : Addr) : EncodedShape.Statement (.ldyAbsX addr) := ⟨rfl, rfl, rfl⟩
theorem EncodedShape.staZp (zp : Byte) : EncodedShape.Statement (.staZp zp) := ⟨rfl, rfl, rfl⟩
theorem EncodedShape.staZpX (zp : Byte) : EncodedShape.Statement (.staZpX zp) := ⟨rfl, rfl, rfl⟩
theorem EncodedShape.staIndX (zp : Byte) : EncodedShape.Statement (.staIndX zp) := ⟨rfl, rfl, rfl⟩
theorem EncodedShape.staIndY (zp : Byte) : EncodedShape.Statement (.staIndY zp) := ⟨rfl, rfl, rfl⟩
theorem EncodedShape.staAbs (addr : Addr) : EncodedShape.Statement (.staAbs addr) := ⟨rfl, rfl, rfl⟩
theorem EncodedShape.staAbsX (addr : Addr) : EncodedShape.Statement (.staAbsX addr) := ⟨rfl, rfl, rfl⟩
theorem EncodedShape.staAbsY (addr : Addr) : EncodedShape.Statement (.staAbsY addr) := ⟨rfl, rfl, rfl⟩
theorem EncodedShape.stxZp (zp : Byte) : EncodedShape.Statement (.stxZp zp) := ⟨rfl, rfl, rfl⟩
theorem EncodedShape.stxZpY (zp : Byte) : EncodedShape.Statement (.stxZpY zp) := ⟨rfl, rfl, rfl⟩
theorem EncodedShape.stxAbs (addr : Addr) : EncodedShape.Statement (.stxAbs addr) := ⟨rfl, rfl, rfl⟩
theorem EncodedShape.styZp (zp : Byte) : EncodedShape.Statement (.styZp zp) := ⟨rfl, rfl, rfl⟩
theorem EncodedShape.styZpX (zp : Byte) : EncodedShape.Statement (.styZpX zp) := ⟨rfl, rfl, rfl⟩
theorem EncodedShape.styAbs (addr : Addr) : EncodedShape.Statement (.styAbs addr) := ⟨rfl, rfl, rfl⟩
theorem EncodedShape.tax : EncodedShape.Statement .tax := ⟨rfl, rfl, rfl⟩
theorem EncodedShape.tay : EncodedShape.Statement .tay := ⟨rfl, rfl, rfl⟩
theorem EncodedShape.txa : EncodedShape.Statement .txa := ⟨rfl, rfl, rfl⟩
theorem EncodedShape.tya : EncodedShape.Statement .tya := ⟨rfl, rfl, rfl⟩
theorem EncodedShape.tsx : EncodedShape.Statement .tsx := ⟨rfl, rfl, rfl⟩
theorem EncodedShape.txs : EncodedShape.Statement .txs := ⟨rfl, rfl, rfl⟩
theorem EncodedShape.adcImm (imm : Byte) : EncodedShape.Statement (.adcImm imm) := ⟨rfl, rfl, rfl⟩
theorem EncodedShape.adcZp (zp : Byte) : EncodedShape.Statement (.adcZp zp) := ⟨rfl, rfl, rfl⟩
theorem EncodedShape.adcZpX (zp : Byte) : EncodedShape.Statement (.adcZpX zp) := ⟨rfl, rfl, rfl⟩
theorem EncodedShape.adcIndX (zp : Byte) : EncodedShape.Statement (.adcIndX zp) := ⟨rfl, rfl, rfl⟩
theorem EncodedShape.adcIndY (zp : Byte) : EncodedShape.Statement (.adcIndY zp) := ⟨rfl, rfl, rfl⟩
theorem EncodedShape.adcAbs (addr : Addr) : EncodedShape.Statement (.adcAbs addr) := ⟨rfl, rfl, rfl⟩
theorem EncodedShape.adcAbsX (addr : Addr) : EncodedShape.Statement (.adcAbsX addr) := ⟨rfl, rfl, rfl⟩
theorem EncodedShape.adcAbsY (addr : Addr) : EncodedShape.Statement (.adcAbsY addr) := ⟨rfl, rfl, rfl⟩
theorem EncodedShape.sbcImm (imm : Byte) : EncodedShape.Statement (.sbcImm imm) := ⟨rfl, rfl, rfl⟩
theorem EncodedShape.sbcZp (zp : Byte) : EncodedShape.Statement (.sbcZp zp) := ⟨rfl, rfl, rfl⟩
theorem EncodedShape.sbcZpX (zp : Byte) : EncodedShape.Statement (.sbcZpX zp) := ⟨rfl, rfl, rfl⟩
theorem EncodedShape.sbcIndX (zp : Byte) : EncodedShape.Statement (.sbcIndX zp) := ⟨rfl, rfl, rfl⟩
theorem EncodedShape.sbcIndY (zp : Byte) : EncodedShape.Statement (.sbcIndY zp) := ⟨rfl, rfl, rfl⟩
theorem EncodedShape.sbcAbs (addr : Addr) : EncodedShape.Statement (.sbcAbs addr) := ⟨rfl, rfl, rfl⟩
theorem EncodedShape.sbcAbsX (addr : Addr) : EncodedShape.Statement (.sbcAbsX addr) := ⟨rfl, rfl, rfl⟩
theorem EncodedShape.sbcAbsY (addr : Addr) : EncodedShape.Statement (.sbcAbsY addr) := ⟨rfl, rfl, rfl⟩
theorem EncodedShape.andImm (imm : Byte) : EncodedShape.Statement (.andImm imm) := ⟨rfl, rfl, rfl⟩
theorem EncodedShape.andZp (zp : Byte) : EncodedShape.Statement (.andZp zp) := ⟨rfl, rfl, rfl⟩
theorem EncodedShape.andZpX (zp : Byte) : EncodedShape.Statement (.andZpX zp) := ⟨rfl, rfl, rfl⟩
theorem EncodedShape.andIndX (zp : Byte) : EncodedShape.Statement (.andIndX zp) := ⟨rfl, rfl, rfl⟩
theorem EncodedShape.andIndY (zp : Byte) : EncodedShape.Statement (.andIndY zp) := ⟨rfl, rfl, rfl⟩
theorem EncodedShape.andAbs (addr : Addr) : EncodedShape.Statement (.andAbs addr) := ⟨rfl, rfl, rfl⟩
theorem EncodedShape.andAbsX (addr : Addr) : EncodedShape.Statement (.andAbsX addr) := ⟨rfl, rfl, rfl⟩
theorem EncodedShape.andAbsY (addr : Addr) : EncodedShape.Statement (.andAbsY addr) := ⟨rfl, rfl, rfl⟩
theorem EncodedShape.oraImm (imm : Byte) : EncodedShape.Statement (.oraImm imm) := ⟨rfl, rfl, rfl⟩
theorem EncodedShape.oraZp (zp : Byte) : EncodedShape.Statement (.oraZp zp) := ⟨rfl, rfl, rfl⟩
theorem EncodedShape.oraZpX (zp : Byte) : EncodedShape.Statement (.oraZpX zp) := ⟨rfl, rfl, rfl⟩
theorem EncodedShape.oraIndX (zp : Byte) : EncodedShape.Statement (.oraIndX zp) := ⟨rfl, rfl, rfl⟩
theorem EncodedShape.oraIndY (zp : Byte) : EncodedShape.Statement (.oraIndY zp) := ⟨rfl, rfl, rfl⟩
theorem EncodedShape.oraAbs (addr : Addr) : EncodedShape.Statement (.oraAbs addr) := ⟨rfl, rfl, rfl⟩
theorem EncodedShape.oraAbsX (addr : Addr) : EncodedShape.Statement (.oraAbsX addr) := ⟨rfl, rfl, rfl⟩
theorem EncodedShape.oraAbsY (addr : Addr) : EncodedShape.Statement (.oraAbsY addr) := ⟨rfl, rfl, rfl⟩
theorem EncodedShape.eorImm (imm : Byte) : EncodedShape.Statement (.eorImm imm) := ⟨rfl, rfl, rfl⟩
theorem EncodedShape.eorZp (zp : Byte) : EncodedShape.Statement (.eorZp zp) := ⟨rfl, rfl, rfl⟩
theorem EncodedShape.eorZpX (zp : Byte) : EncodedShape.Statement (.eorZpX zp) := ⟨rfl, rfl, rfl⟩
theorem EncodedShape.eorIndX (zp : Byte) : EncodedShape.Statement (.eorIndX zp) := ⟨rfl, rfl, rfl⟩
theorem EncodedShape.eorIndY (zp : Byte) : EncodedShape.Statement (.eorIndY zp) := ⟨rfl, rfl, rfl⟩
theorem EncodedShape.eorAbs (addr : Addr) : EncodedShape.Statement (.eorAbs addr) := ⟨rfl, rfl, rfl⟩
theorem EncodedShape.eorAbsX (addr : Addr) : EncodedShape.Statement (.eorAbsX addr) := ⟨rfl, rfl, rfl⟩
theorem EncodedShape.eorAbsY (addr : Addr) : EncodedShape.Statement (.eorAbsY addr) := ⟨rfl, rfl, rfl⟩
theorem EncodedShape.aslAcc : EncodedShape.Statement .aslAcc := ⟨rfl, rfl, rfl⟩
theorem EncodedShape.aslZp (zp : Byte) : EncodedShape.Statement (.aslZp zp) := ⟨rfl, rfl, rfl⟩
theorem EncodedShape.aslZpX (zp : Byte) : EncodedShape.Statement (.aslZpX zp) := ⟨rfl, rfl, rfl⟩
theorem EncodedShape.aslAbs (addr : Addr) : EncodedShape.Statement (.aslAbs addr) := ⟨rfl, rfl, rfl⟩
theorem EncodedShape.aslAbsX (addr : Addr) : EncodedShape.Statement (.aslAbsX addr) := ⟨rfl, rfl, rfl⟩
theorem EncodedShape.lsrAcc : EncodedShape.Statement .lsrAcc := ⟨rfl, rfl, rfl⟩
theorem EncodedShape.lsrZp (zp : Byte) : EncodedShape.Statement (.lsrZp zp) := ⟨rfl, rfl, rfl⟩
theorem EncodedShape.lsrZpX (zp : Byte) : EncodedShape.Statement (.lsrZpX zp) := ⟨rfl, rfl, rfl⟩
theorem EncodedShape.lsrAbs (addr : Addr) : EncodedShape.Statement (.lsrAbs addr) := ⟨rfl, rfl, rfl⟩
theorem EncodedShape.lsrAbsX (addr : Addr) : EncodedShape.Statement (.lsrAbsX addr) := ⟨rfl, rfl, rfl⟩
theorem EncodedShape.rolAcc : EncodedShape.Statement .rolAcc := ⟨rfl, rfl, rfl⟩
theorem EncodedShape.rolZp (zp : Byte) : EncodedShape.Statement (.rolZp zp) := ⟨rfl, rfl, rfl⟩
theorem EncodedShape.rolZpX (zp : Byte) : EncodedShape.Statement (.rolZpX zp) := ⟨rfl, rfl, rfl⟩
theorem EncodedShape.rolAbs (addr : Addr) : EncodedShape.Statement (.rolAbs addr) := ⟨rfl, rfl, rfl⟩
theorem EncodedShape.rolAbsX (addr : Addr) : EncodedShape.Statement (.rolAbsX addr) := ⟨rfl, rfl, rfl⟩
theorem EncodedShape.rorAcc : EncodedShape.Statement .rorAcc := ⟨rfl, rfl, rfl⟩
theorem EncodedShape.rorZp (zp : Byte) : EncodedShape.Statement (.rorZp zp) := ⟨rfl, rfl, rfl⟩
theorem EncodedShape.rorZpX (zp : Byte) : EncodedShape.Statement (.rorZpX zp) := ⟨rfl, rfl, rfl⟩
theorem EncodedShape.rorAbs (addr : Addr) : EncodedShape.Statement (.rorAbs addr) := ⟨rfl, rfl, rfl⟩
theorem EncodedShape.rorAbsX (addr : Addr) : EncodedShape.Statement (.rorAbsX addr) := ⟨rfl, rfl, rfl⟩
theorem EncodedShape.bitZp (zp : Byte) : EncodedShape.Statement (.bitZp zp) := ⟨rfl, rfl, rfl⟩
theorem EncodedShape.bitAbs (addr : Addr) : EncodedShape.Statement (.bitAbs addr) := ⟨rfl, rfl, rfl⟩
theorem EncodedShape.incZp (zp : Byte) : EncodedShape.Statement (.incZp zp) := ⟨rfl, rfl, rfl⟩
theorem EncodedShape.incZpX (zp : Byte) : EncodedShape.Statement (.incZpX zp) := ⟨rfl, rfl, rfl⟩
theorem EncodedShape.incAbs (addr : Addr) : EncodedShape.Statement (.incAbs addr) := ⟨rfl, rfl, rfl⟩
theorem EncodedShape.incAbsX (addr : Addr) : EncodedShape.Statement (.incAbsX addr) := ⟨rfl, rfl, rfl⟩
theorem EncodedShape.decZp (zp : Byte) : EncodedShape.Statement (.decZp zp) := ⟨rfl, rfl, rfl⟩
theorem EncodedShape.decZpX (zp : Byte) : EncodedShape.Statement (.decZpX zp) := ⟨rfl, rfl, rfl⟩
theorem EncodedShape.decAbs (addr : Addr) : EncodedShape.Statement (.decAbs addr) := ⟨rfl, rfl, rfl⟩
theorem EncodedShape.decAbsX (addr : Addr) : EncodedShape.Statement (.decAbsX addr) := ⟨rfl, rfl, rfl⟩
theorem EncodedShape.inx : EncodedShape.Statement .inx := ⟨rfl, rfl, rfl⟩
theorem EncodedShape.iny : EncodedShape.Statement .iny := ⟨rfl, rfl, rfl⟩
theorem EncodedShape.dex : EncodedShape.Statement .dex := ⟨rfl, rfl, rfl⟩
theorem EncodedShape.dey : EncodedShape.Statement .dey := ⟨rfl, rfl, rfl⟩
theorem EncodedShape.cmpImm (imm : Byte) : EncodedShape.Statement (.cmpImm imm) := ⟨rfl, rfl, rfl⟩
theorem EncodedShape.cmpZp (zp : Byte) : EncodedShape.Statement (.cmpZp zp) := ⟨rfl, rfl, rfl⟩
theorem EncodedShape.cmpZpX (zp : Byte) : EncodedShape.Statement (.cmpZpX zp) := ⟨rfl, rfl, rfl⟩
theorem EncodedShape.cmpIndX (zp : Byte) : EncodedShape.Statement (.cmpIndX zp) := ⟨rfl, rfl, rfl⟩
theorem EncodedShape.cmpIndY (zp : Byte) : EncodedShape.Statement (.cmpIndY zp) := ⟨rfl, rfl, rfl⟩
theorem EncodedShape.cmpAbs (addr : Addr) : EncodedShape.Statement (.cmpAbs addr) := ⟨rfl, rfl, rfl⟩
theorem EncodedShape.cmpAbsX (addr : Addr) : EncodedShape.Statement (.cmpAbsX addr) := ⟨rfl, rfl, rfl⟩
theorem EncodedShape.cmpAbsY (addr : Addr) : EncodedShape.Statement (.cmpAbsY addr) := ⟨rfl, rfl, rfl⟩
theorem EncodedShape.cpxImm (imm : Byte) : EncodedShape.Statement (.cpxImm imm) := ⟨rfl, rfl, rfl⟩
theorem EncodedShape.cpxZp (zp : Byte) : EncodedShape.Statement (.cpxZp zp) := ⟨rfl, rfl, rfl⟩
theorem EncodedShape.cpxAbs (addr : Addr) : EncodedShape.Statement (.cpxAbs addr) := ⟨rfl, rfl, rfl⟩
theorem EncodedShape.cpyImm (imm : Byte) : EncodedShape.Statement (.cpyImm imm) := ⟨rfl, rfl, rfl⟩
theorem EncodedShape.cpyZp (zp : Byte) : EncodedShape.Statement (.cpyZp zp) := ⟨rfl, rfl, rfl⟩
theorem EncodedShape.cpyAbs (addr : Addr) : EncodedShape.Statement (.cpyAbs addr) := ⟨rfl, rfl, rfl⟩
theorem EncodedShape.jmpAbs (addr : Addr) : EncodedShape.Statement (.jmpAbs addr) := ⟨rfl, rfl, rfl⟩
theorem EncodedShape.jmpInd (addr : Addr) : EncodedShape.Statement (.jmpInd addr) := ⟨rfl, rfl, rfl⟩
theorem EncodedShape.jsrAbs (addr : Addr) : EncodedShape.Statement (.jsrAbs addr) := ⟨rfl, rfl, rfl⟩
theorem EncodedShape.rts : EncodedShape.Statement .rts := ⟨rfl, rfl, rfl⟩
theorem EncodedShape.bcc (disp : Byte) : EncodedShape.Statement (.bcc disp) := ⟨rfl, rfl, rfl⟩
theorem EncodedShape.bcs (disp : Byte) : EncodedShape.Statement (.bcs disp) := ⟨rfl, rfl, rfl⟩
theorem EncodedShape.beq (disp : Byte) : EncodedShape.Statement (.beq disp) := ⟨rfl, rfl, rfl⟩
theorem EncodedShape.bmi (disp : Byte) : EncodedShape.Statement (.bmi disp) := ⟨rfl, rfl, rfl⟩
theorem EncodedShape.bne (disp : Byte) : EncodedShape.Statement (.bne disp) := ⟨rfl, rfl, rfl⟩
theorem EncodedShape.bpl (disp : Byte) : EncodedShape.Statement (.bpl disp) := ⟨rfl, rfl, rfl⟩
theorem EncodedShape.bvc (disp : Byte) : EncodedShape.Statement (.bvc disp) := ⟨rfl, rfl, rfl⟩
theorem EncodedShape.bvs (disp : Byte) : EncodedShape.Statement (.bvs disp) := ⟨rfl, rfl, rfl⟩
theorem EncodedShape.pha : EncodedShape.Statement .pha := ⟨rfl, rfl, rfl⟩
theorem EncodedShape.pla : EncodedShape.Statement .pla := ⟨rfl, rfl, rfl⟩
theorem EncodedShape.php : EncodedShape.Statement .php := ⟨rfl, rfl, rfl⟩
theorem EncodedShape.plp : EncodedShape.Statement .plp := ⟨rfl, rfl, rfl⟩
theorem EncodedShape.clc : EncodedShape.Statement .clc := ⟨rfl, rfl, rfl⟩
theorem EncodedShape.sec : EncodedShape.Statement .sec := ⟨rfl, rfl, rfl⟩
theorem EncodedShape.cli : EncodedShape.Statement .cli := ⟨rfl, rfl, rfl⟩
theorem EncodedShape.sei : EncodedShape.Statement .sei := ⟨rfl, rfl, rfl⟩
theorem EncodedShape.cld : EncodedShape.Statement .cld := ⟨rfl, rfl, rfl⟩
theorem EncodedShape.sed : EncodedShape.Statement .sed := ⟨rfl, rfl, rfl⟩
theorem EncodedShape.clv : EncodedShape.Statement .clv := ⟨rfl, rfl, rfl⟩
theorem EncodedShape.nop : EncodedShape.Statement .nop := ⟨rfl, rfl, rfl⟩
theorem EncodedShape.brk : EncodedShape.Statement .brk := ⟨rfl, rfl, rfl⟩
theorem EncodedShape.rti : EncodedShape.Statement .rti := ⟨rfl, rfl, rfl⟩

end Sys2Proof.Laws
end

