-- ==== Sys2Proof/Laws/Step.lean ====
section
/-! SUPPORT. Everything one Step can do. -/

namespace Sys2Proof.Machine

/-! ### The state in which the meaning of a fetched instruction starts -/

@[simp] theorem State.fetched_a (s : State) (i : Instr) : (s.fetched i).a = s.a := by unfold State.fetched; split <;> rfl
@[simp] theorem State.fetched_x (s : State) (i : Instr) : (s.fetched i).x = s.x := by unfold State.fetched; split <;> rfl
@[simp] theorem State.fetched_y (s : State) (i : Instr) : (s.fetched i).y = s.y := by unfold State.fetched; split <;> rfl
@[simp] theorem State.fetched_sp (s : State) (i : Instr) : (s.fetched i).sp = s.sp := by unfold State.fetched; split <;> rfl
@[simp] theorem State.fetched_p (s : State) (i : Instr) : (s.fetched i).p = s.p := by unfold State.fetched; split <;> rfl
@[simp] theorem State.fetched_pc (s : State) (i : Instr) : (s.fetched i).pc = s.pc := by unfold State.fetched; split <;> rfl
@[simp] theorem State.fetched_halted (s : State) (i : Instr) : (s.fetched i).halted = s.halted := by unfold State.fetched; split <;> rfl
@[simp] theorem State.fetched_cfg (s : State) (i : Instr) : (s.fetched i).cfg = s.cfg := by unfold State.fetched; split <;> rfl
@[simp] theorem State.fetched_irqLevels (s : State) (i : Instr) : (s.fetched i).irqLevels = s.irqLevels := by unfold State.fetched; split <;> rfl
@[simp] theorem State.flag_fetched (s : State) (i : Instr) (g : Flag) : (s.fetched i).flag g = s.flag g := by
  unfold State.fetched; split <;> rfl
@[simp] theorem State.reg_fetched (s : State) (i : Instr) (q : Reg) : (s.fetched i).reg q = s.reg q := by cases q <;> simp

theorem State.fetched_wf (s : State) (i : Instr) (h : s.mem.wf = true) : (s.fetched i).mem.wf = true := by
  unfold State.fetched
  split
  · exact State.hostGap_wf s h
  · exact h

/-- Under exclusive use the meaning starts in the state of the fetch itself (20_memory.md R68). -/
theorem State.fetched_none (s : State) (i : Instr) (h : s.cfg.hostInterleave = .none) : s.fetched i = s := by
  unfold State.fetched
  split
  · exact State.hostGap_none s h
  · rfl

/-! ### The Step -/

/-- If a Step answers a next state, it took the IRQ or executed the fetched instruction (30_encoding.md R102). -/
theorem step_next {s t : State} (h : step s = .next t) :
    s.halted = none ∧
      ((s.takesIrq = true ∧ t = s.passBoundary.irqEntry) ∨
        (s.takesIrq = false ∧ ∃ i, fetch s = .ok i ∧ exec i (s.fetched i).passBoundary = .next t)) := by
  unfold step at h
  split at h
  · cases h
  · rename_i hh
    refine ⟨hh, ?_⟩
    split at h
    · rename_i hi
      exact .inl ⟨hi, by cases h; rfl⟩
    · rename_i hi
      split at h
      · exact .inr ⟨by simpa using hi, _, by assumption, h⟩
      · cases h

/-- A Step of a running core with no IRQ taken is exec of the fetched instruction (30_encoding.md R102). -/
theorem step_of_fetch {s : State} {i : Instr} (hh : s.halted = none) (hi : s.takesIrq = false) (hf : fetch s = .ok i) :
    step s = exec i (s.fetched i).passBoundary := by
  simp [step, hh, hi, hf]

/-- A Step of a running core that fetches no instruction faults (30_encoding.md R97). -/
theorem step_of_fetch_error {s : State} {r : Fault} (hh : s.halted = none) (hi : s.takesIrq = false)
    (hf : fetch s = .error r) : step s = .fault r := by
  simp [step, hh, hi, hf]

theorem step_of_irq {s : State} (hh : s.halted = none) (hi : s.takesIrq = true) :
    step s = .next s.passBoundary.irqEntry := by
  simp [step, hh, hi]

theorem step_of_halted {s : State} {r : Fault} (hh : s.halted = some r) : step s = .refused (.coreHalted r) := by
  simp [step, hh]

/-- The fetch by the row of the opcode at PC. -/
theorem fetch_eq (s : State) :
    fetch s =
      match opcodeRow (s.read s.pc) with
      | none => .error (.illegalOpcode (s.read s.pc))
      | some r => .ok (r.build (s.hostGap.read (s.pc + 1)) (s.hostGap.read (s.pc + 2))) := by
  simp only [fetch, fetchBytes, decode_three]
  rcases opcodeRow (s.read s.pc) with _ | ⟨_ | _ | _⟩ <;> rfl

end Sys2Proof.Machine
end

