-- ==== Sys2Proof/Tests/Slice0.lean ====
section
/-! SUPPORT. Tests. The expected values come from spec/: the opcode map R95 of 30_encoding.md, the vectors of 95_test_vectors.md
(named in each docstring), and hand calculation. `witness_<Name>` shows that the hypotheses of `Obligations.<Name>` can be met. -/

namespace Sys2Proof.Tests

open Sys2Proof Machine

/-! ### Helpers -/

/-- A machine with the construction values over the bytes listed, PC at 0x0600. -/
def machine (bytes : List (Addr × Byte)) : State :=
  { bytes.foldl (fun s c => s.write c.1 c.2) (construct Config.default []) with pc := 0x0600 }

/-- One Step answers a next state with the property. -/
def steps (s : State) (f : State → Bool) : Bool :=
  match step s with
  | .next t => f t
  | _ => false

/-- One Step faults with the reason. -/
def faults (s : State) (r : Fault) : Bool :=
  match step s with
  | .fault q => decide (q = r)
  | _ => false

/-- Boot answers a next state with the property. -/
def boots (s : State) (f : State → Bool) : Bool :=
  match boot s with
  | .next t => f t
  | _ => false

/-- The same machine shared with another owner of memory, which writes at the points between two primitives of the next Steps. -/
def shared (bytes : List (Addr × Byte)) (writes : List (List (Addr × Byte))) : State :=
  pokeWithin writes { machine bytes with cfg := { Config.default with hostInterleave := .perPrimitive } }

/-! ### WellFormed refuses forms that no opcode selects (30_encoding.md R96, R98) -/

theorem test_wellFormed_refuses_store_immediate :
    Form.wellFormed ⟨.sta, .immediate 0x05⟩ = false ∧ Form.wellFormed ⟨.stx, .immediate 0x05⟩ = false ∧
    Form.wellFormed ⟨.bit, .immediate 0x05⟩ = false := by decide

theorem test_wellFormed_refuses_jump_modes :
    Form.wellFormed ⟨.jsr, .indirect 0x1234⟩ = false ∧ Form.wellFormed ⟨.jmp, .zeroPage 0x12⟩ = false ∧
    Form.wellFormed ⟨.jmp, .immediate 0x12⟩ = false := by decide

theorem test_wellFormed_refuses_index_modes :
    Form.wellFormed ⟨.ldx, .zeroPageXIndex 0x10⟩ = false ∧ Form.wellFormed ⟨.lda, .zeroPageYIndex 0x10⟩ = false ∧
    Form.wellFormed ⟨.stx, .absoluteYIndex 0x1000⟩ = false ∧ Form.wellFormed ⟨.asl, .absoluteYIndex 0x1000⟩ = false := by
  decide

theorem test_wellFormed_refuses_operands :
    Form.wellFormed ⟨.lda, .implied⟩ = false ∧ Form.wellFormed ⟨.asl, .implied⟩ = false ∧
    Form.wellFormed ⟨.tax, .accumulator⟩ = false ∧ Form.wellFormed ⟨.bcc, .absolute 0x0600⟩ = false := by decide

theorem test_wellFormed_accepts :
    Form.wellFormed ⟨.lda, .immediate 0x05⟩ = true ∧ Form.wellFormed ⟨.jmp, .indirect 0x1234⟩ = true ∧
    Form.wellFormed ⟨.asl, .accumulator⟩ = true := by decide

/-! ### Decoding: every opcode of 30_encoding.md R95, its row in bits 7..4 and its column in bits 3..0, with the operand 0x5A or
0x1234 in the bytes after it -/

theorem test_decode_loads :
    decodeTableWord 16 0b01011010_10100000 = some (.ldyImm 0x5A) ∧
    decodeTableWord 16 0b01011010_10100001 = some (.ldaIndX 0x5A) ∧
    decodeTableWord 16 0b01011010_10100010 = some (.ldxImm 0x5A) ∧
    decodeTableWord 16 0b01011010_10100100 = some (.ldyZp 0x5A) ∧
    decodeTableWord 16 0b01011010_10100101 = some (.ldaZp 0x5A) ∧
    decodeTableWord 16 0b01011010_10100110 = some (.ldxZp 0x5A) ∧
    decodeTableWord 16 0b01011010_10101001 = some (.ldaImm 0x5A) ∧
    decodeTableWord 24 0b00010010_00110100_10101100 = some (.ldyAbs 0x1234) ∧
    decodeTableWord 24 0b00010010_00110100_10101101 = some (.ldaAbs 0x1234) ∧
    decodeTableWord 24 0b00010010_00110100_10101110 = some (.ldxAbs 0x1234) ∧
    decodeTableWord 16 0b01011010_10110001 = some (.ldaIndY 0x5A) ∧
    decodeTableWord 16 0b01011010_10110100 = some (.ldyZpX 0x5A) ∧
    decodeTableWord 16 0b01011010_10110101 = some (.ldaZpX 0x5A) ∧
    decodeTableWord 16 0b01011010_10110110 = some (.ldxZpY 0x5A) ∧
    decodeTableWord 24 0b00010010_00110100_10111001 = some (.ldaAbsY 0x1234) ∧
    decodeTableWord 24 0b00010010_00110100_10111100 = some (.ldyAbsX 0x1234) ∧
    decodeTableWord 24 0b00010010_00110100_10111101 = some (.ldaAbsX 0x1234) ∧
    decodeTableWord 24 0b00010010_00110100_10111110 = some (.ldxAbsY 0x1234) := by decide

theorem test_decode_stores_and_transfers :
    decodeTableWord 16 0b01011010_10000001 = some (.staIndX 0x5A) ∧
    decodeTableWord 16 0b01011010_10000100 = some (.styZp 0x5A) ∧
    decodeTableWord 16 0b01011010_10000101 = some (.staZp 0x5A) ∧
    decodeTableWord 16 0b01011010_10000110 = some (.stxZp 0x5A) ∧
    decodeTableWord 8 0b10001010 = some .txa ∧
    decodeTableWord 24 0b00010010_00110100_10001100 = some (.styAbs 0x1234) ∧
    decodeTableWord 24 0b00010010_00110100_10001101 = some (.staAbs 0x1234) ∧
    decodeTableWord 24 0b00010010_00110100_10001110 = some (.stxAbs 0x1234) ∧
    decodeTableWord 16 0b01011010_10010001 = some (.staIndY 0x5A) ∧
    decodeTableWord 16 0b01011010_10010100 = some (.styZpX 0x5A) ∧
    decodeTableWord 16 0b01011010_10010101 = some (.staZpX 0x5A) ∧
    decodeTableWord 16 0b01011010_10010110 = some (.stxZpY 0x5A) ∧
    decodeTableWord 8 0b10011000 = some .tya ∧
    decodeTableWord 24 0b00010010_00110100_10011001 = some (.staAbsY 0x1234) ∧
    decodeTableWord 8 0b10011010 = some .txs ∧
    decodeTableWord 24 0b00010010_00110100_10011101 = some (.staAbsX 0x1234) ∧
    decodeTableWord 8 0b10101000 = some .tay ∧
    decodeTableWord 8 0b10101010 = some .tax ∧
    decodeTableWord 8 0b10111010 = some .tsx := by decide

theorem test_decode_adc_sbc :
    decodeTableWord 16 0b01011010_01100001 = some (.adcIndX 0x5A) ∧
    decodeTableWord 16 0b01011010_01100101 = some (.adcZp 0x5A) ∧
    decodeTableWord 16 0b01011010_01101001 = some (.adcImm 0x5A) ∧
    decodeTableWord 24 0b00010010_00110100_01101101 = some (.adcAbs 0x1234) ∧
    decodeTableWord 16 0b01011010_01110001 = some (.adcIndY 0x5A) ∧
    decodeTableWord 16 0b01011010_01110101 = some (.adcZpX 0x5A) ∧
    decodeTableWord 24 0b00010010_00110100_01111001 = some (.adcAbsY 0x1234) ∧
    decodeTableWord 24 0b00010010_00110100_01111101 = some (.adcAbsX 0x1234) ∧
    decodeTableWord 16 0b01011010_11100001 = some (.sbcIndX 0x5A) ∧
    decodeTableWord 16 0b01011010_11100101 = some (.sbcZp 0x5A) ∧
    decodeTableWord 16 0b01011010_11101001 = some (.sbcImm 0x5A) ∧
    decodeTableWord 24 0b00010010_00110100_11101101 = some (.sbcAbs 0x1234) ∧
    decodeTableWord 16 0b01011010_11110001 = some (.sbcIndY 0x5A) ∧
    decodeTableWord 16 0b01011010_11110101 = some (.sbcZpX 0x5A) ∧
    decodeTableWord 24 0b00010010_00110100_11111001 = some (.sbcAbsY 0x1234) ∧
    decodeTableWord 24 0b00010010_00110100_11111101 = some (.sbcAbsX 0x1234) := by decide

theorem test_decode_logic :
    decodeTableWord 16 0b01011010_00000001 = some (.oraIndX 0x5A) ∧
    decodeTableWord 16 0b01011010_00000101 = some (.oraZp 0x5A) ∧
    decodeTableWord 16 0b01011010_00001001 = some (.oraImm 0x5A) ∧
    decodeTableWord 24 0b00010010_00110100_00001101 = some (.oraAbs 0x1234) ∧
    decodeTableWord 16 0b01011010_00010001 = some (.oraIndY 0x5A) ∧
    decodeTableWord 16 0b01011010_00010101 = some (.oraZpX 0x5A) ∧
    decodeTableWord 24 0b00010010_00110100_00011001 = some (.oraAbsY 0x1234) ∧
    decodeTableWord 24 0b00010010_00110100_00011101 = some (.oraAbsX 0x1234) ∧
    decodeTableWord 16 0b01011010_00100001 = some (.andIndX 0x5A) ∧
    decodeTableWord 16 0b01011010_00100101 = some (.andZp 0x5A) ∧
    decodeTableWord 16 0b01011010_00101001 = some (.andImm 0x5A) ∧
    decodeTableWord 24 0b00010010_00110100_00101101 = some (.andAbs 0x1234) ∧
    decodeTableWord 16 0b01011010_00110001 = some (.andIndY 0x5A) ∧
    decodeTableWord 16 0b01011010_00110101 = some (.andZpX 0x5A) ∧
    decodeTableWord 24 0b00010010_00110100_00111001 = some (.andAbsY 0x1234) ∧
    decodeTableWord 24 0b00010010_00110100_00111101 = some (.andAbsX 0x1234) ∧
    decodeTableWord 16 0b01011010_01000001 = some (.eorIndX 0x5A) ∧
    decodeTableWord 16 0b01011010_01000101 = some (.eorZp 0x5A) ∧
    decodeTableWord 16 0b01011010_01001001 = some (.eorImm 0x5A) ∧
    decodeTableWord 24 0b00010010_00110100_01001101 = some (.eorAbs 0x1234) ∧
    decodeTableWord 16 0b01011010_01010001 = some (.eorIndY 0x5A) ∧
    decodeTableWord 16 0b01011010_01010101 = some (.eorZpX 0x5A) ∧
    decodeTableWord 24 0b00010010_00110100_01011001 = some (.eorAbsY 0x1234) ∧
    decodeTableWord 24 0b00010010_00110100_01011101 = some (.eorAbsX 0x1234) := by decide

theorem test_decode_shifts :
    decodeTableWord 16 0b01011010_00000110 = some (.aslZp 0x5A) ∧
    decodeTableWord 8 0b00001010 = some .aslAcc ∧
    decodeTableWord 24 0b00010010_00110100_00001110 = some (.aslAbs 0x1234) ∧
    decodeTableWord 16 0b01011010_00010110 = some (.aslZpX 0x5A) ∧
    decodeTableWord 24 0b00010010_00110100_00011110 = some (.aslAbsX 0x1234) ∧
    decodeTableWord 16 0b01011010_01000110 = some (.lsrZp 0x5A) ∧
    decodeTableWord 8 0b01001010 = some .lsrAcc ∧
    decodeTableWord 24 0b00010010_00110100_01001110 = some (.lsrAbs 0x1234) ∧
    decodeTableWord 16 0b01011010_01010110 = some (.lsrZpX 0x5A) ∧
    decodeTableWord 24 0b00010010_00110100_01011110 = some (.lsrAbsX 0x1234) := by decide

theorem test_decode_rotates :
    decodeTableWord 16 0b01011010_00100110 = some (.rolZp 0x5A) ∧
    decodeTableWord 8 0b00101010 = some .rolAcc ∧
    decodeTableWord 24 0b00010010_00110100_00101110 = some (.rolAbs 0x1234) ∧
    decodeTableWord 16 0b01011010_00110110 = some (.rolZpX 0x5A) ∧
    decodeTableWord 24 0b00010010_00110100_00111110 = some (.rolAbsX 0x1234) ∧
    decodeTableWord 16 0b01011010_01100110 = some (.rorZp 0x5A) ∧
    decodeTableWord 8 0b01101010 = some .rorAcc ∧
    decodeTableWord 24 0b00010010_00110100_01101110 = some (.rorAbs 0x1234) ∧
    decodeTableWord 16 0b01011010_01110110 = some (.rorZpX 0x5A) ∧
    decodeTableWord 24 0b00010010_00110100_01111110 = some (.rorAbsX 0x1234) := by decide

theorem test_decode_bit_inc_dec :
    decodeTableWord 16 0b01011010_00100100 = some (.bitZp 0x5A) ∧
    decodeTableWord 24 0b00010010_00110100_00101100 = some (.bitAbs 0x1234) ∧
    decodeTableWord 8 0b10001000 = some .dey ∧
    decodeTableWord 16 0b01011010_11000110 = some (.decZp 0x5A) ∧
    decodeTableWord 8 0b11001000 = some .iny ∧
    decodeTableWord 8 0b11001010 = some .dex ∧
    decodeTableWord 24 0b00010010_00110100_11001110 = some (.decAbs 0x1234) ∧
    decodeTableWord 16 0b01011010_11010110 = some (.decZpX 0x5A) ∧
    decodeTableWord 24 0b00010010_00110100_11011110 = some (.decAbsX 0x1234) ∧
    decodeTableWord 16 0b01011010_11100110 = some (.incZp 0x5A) ∧
    decodeTableWord 8 0b11101000 = some .inx ∧
    decodeTableWord 24 0b00010010_00110100_11101110 = some (.incAbs 0x1234) ∧
    decodeTableWord 16 0b01011010_11110110 = some (.incZpX 0x5A) ∧
    decodeTableWord 24 0b00010010_00110100_11111110 = some (.incAbsX 0x1234) := by decide

theorem test_decode_compare :
    decodeTableWord 16 0b01011010_11000000 = some (.cpyImm 0x5A) ∧
    decodeTableWord 16 0b01011010_11000001 = some (.cmpIndX 0x5A) ∧
    decodeTableWord 16 0b01011010_11000100 = some (.cpyZp 0x5A) ∧
    decodeTableWord 16 0b01011010_11000101 = some (.cmpZp 0x5A) ∧
    decodeTableWord 16 0b01011010_11001001 = some (.cmpImm 0x5A) ∧
    decodeTableWord 24 0b00010010_00110100_11001100 = some (.cpyAbs 0x1234) ∧
    decodeTableWord 24 0b00010010_00110100_11001101 = some (.cmpAbs 0x1234) ∧
    decodeTableWord 16 0b01011010_11010001 = some (.cmpIndY 0x5A) ∧
    decodeTableWord 16 0b01011010_11010101 = some (.cmpZpX 0x5A) ∧
    decodeTableWord 24 0b00010010_00110100_11011001 = some (.cmpAbsY 0x1234) ∧
    decodeTableWord 24 0b00010010_00110100_11011101 = some (.cmpAbsX 0x1234) ∧
    decodeTableWord 16 0b01011010_11100000 = some (.cpxImm 0x5A) ∧
    decodeTableWord 16 0b01011010_11100100 = some (.cpxZp 0x5A) ∧
    decodeTableWord 24 0b00010010_00110100_11101100 = some (.cpxAbs 0x1234) := by decide

theorem test_decode_jumps_and_branches :
    decodeTableWord 16 0b01011010_00010000 = some (.bpl 0x5A) ∧
    decodeTableWord 24 0b00010010_00110100_00100000 = some (.jsrAbs 0x1234) ∧
    decodeTableWord 16 0b01011010_00110000 = some (.bmi 0x5A) ∧
    decodeTableWord 24 0b00010010_00110100_01001100 = some (.jmpAbs 0x1234) ∧
    decodeTableWord 16 0b01011010_01010000 = some (.bvc 0x5A) ∧
    decodeTableWord 8 0b01100000 = some .rts ∧
    decodeTableWord 24 0b00010010_00110100_01101100 = some (.jmpInd 0x1234) ∧
    decodeTableWord 16 0b01011010_01110000 = some (.bvs 0x5A) ∧
    decodeTableWord 16 0b01011010_10010000 = some (.bcc 0x5A) ∧
    decodeTableWord 16 0b01011010_10110000 = some (.bcs 0x5A) ∧
    decodeTableWord 16 0b01011010_11010000 = some (.bne 0x5A) ∧
    decodeTableWord 16 0b01011010_11110000 = some (.beq 0x5A) := by decide

theorem test_decode_stack_flags_system :
    decodeTableWord 8 0b00000000 = some .brk ∧
    decodeTableWord 8 0b00001000 = some .php ∧
    decodeTableWord 8 0b00011000 = some .clc ∧
    decodeTableWord 8 0b00101000 = some .plp ∧
    decodeTableWord 8 0b00111000 = some .sec ∧
    decodeTableWord 8 0b01000000 = some .rti ∧
    decodeTableWord 8 0b01001000 = some .pha ∧
    decodeTableWord 8 0b01011000 = some .cli ∧
    decodeTableWord 8 0b01101000 = some .pla ∧
    decodeTableWord 8 0b01111000 = some .sei ∧
    decodeTableWord 8 0b10111000 = some .clv ∧
    decodeTableWord 8 0b11011000 = some .cld ∧
    decodeTableWord 8 0b11101010 = some .nop ∧
    decodeTableWord 8 0b11111000 = some .sed := by decide

/-- Undefined opcodes and short lists are refused by name (30_encoding.md R97; log 13). -/
theorem test_decode_refuses :
    decode [0x02, 0x00, 0x00] = .error (.undefined 0x02) ∧ decode [0xFF] = .error (.undefined 0xFF) ∧
    decode [] = .error .empty ∧ decode [0xA9] = .error (.truncated 0xA9) ∧ decode [0x4C, 0x34] = .error (.truncated 0x4C) := by
  decide

/-! ### Instructions: one Step each -/

/-- 95_test_vectors.md A1. -/
theorem test_lda_immediate :
    steps (machine [(0x0600, 0xA9), (0x0601, 0x5A)])
      (fun t => t.a == 0x5A && t.p == 0x20 && t.pc == 0x0602) = true := by decide

/-- 95_test_vectors.md A2. -/
theorem test_lda_zeroPage :
    steps (machine [(0x0600, 0xA5), (0x0601, 0x80), (0x0080, 0x11)])
      (fun t => t.a == 0x11 && t.p == 0x20 && t.pc == 0x0602) = true := by decide

/-- 95_test_vectors.md A3. -/
theorem test_lda_zeroPageX_wraps_in_page_zero :
    steps { machine [(0x0600, 0xB5), (0x0601, 0xFF), (0x0001, 0x22), (0x0101, 0x99)] with x := 0x02 }
      (fun t => t.a == 0x22 && t.p == 0x20 && t.pc == 0x0602) = true := by decide

/-- 95_test_vectors.md A4. -/
theorem test_ldx_zeroPageY_wraps :
    steps { machine [(0x0600, 0xB6), (0x0601, 0xF0), (0x0010, 0x33), (0x0110, 0x99)] with y := 0x20 }
      (fun t => t.x == 0x33 && t.p == 0x20 && t.pc == 0x0602) = true := by decide

/-- 95_test_vectors.md A5. -/
theorem test_lda_absolute :
    steps (machine [(0x0600, 0xAD), (0x0601, 0x34), (0x0602, 0x12), (0x1234, 0x44)])
      (fun t => t.a == 0x44 && t.p == 0x20 && t.pc == 0x0603) = true := by decide

/-- 95_test_vectors.md A6. -/
theorem test_lda_absoluteX_crosses_page :
    steps { machine [(0x0600, 0xBD), (0x0601, 0xF0), (0x0602, 0x12), (0x1310, 0x55)] with x := 0x20 }
      (fun t => t.a == 0x55 && t.p == 0x20 && t.pc == 0x0603) = true := by decide

/-- 95_test_vectors.md A7. -/
theorem test_lda_absoluteY_wraps_at_64K :
    steps { machine [(0x0600, 0xB9), (0x0601, 0xF0), (0x0602, 0xFF), (0x0010, 0x66)] with y := 0x20 }
      (fun t => t.a == 0x66 && t.p == 0x20 && t.pc == 0x0603) = true := by decide

/-- 95_test_vectors.md A9. -/
theorem test_jmp_indirect_crosses_page :
    steps (machine [(0x0600, 0x6C), (0x0601, 0xFF), (0x0602, 0x10), (0x1000, 0x56), (0x10FF, 0x34), (0x1100, 0x12)])
      (fun t => t.p == 0x20 && t.pc == 0x1234) = true := by decide

/-- 95_test_vectors.md A11. -/
theorem test_lda_indexedIndirect_word16 :
    steps { machine [(0x0600, 0xA1), (0x0601, 0xFF), (0x0000, 0x50), (0x00FF, 0x00), (0x0100, 0x40), (0x4000, 0x88), (0x5000, 0x99)] with x := 0x00 }
      (fun t => t.a == 0x88 && t.p == 0xA0 && t.pc == 0x0602) = true := by decide

/-- 95_test_vectors.md A12. -/
theorem test_lda_indexedIndirect_zeropage :
    steps { machine [(0x0600, 0xA1), (0x0601, 0xFF), (0x0000, 0x50), (0x00FF, 0x00), (0x0100, 0x40), (0x4000, 0x88), (0x5000, 0x99)] with x := 0x00, cfg := { Config.default with zpPointerWrap := .zeropage } }
      (fun t => t.a == 0x99 && t.p == 0xA0 && t.pc == 0x0602) = true := by decide

/-- 95_test_vectors.md A13. -/
theorem test_lda_indirectIndexed :
    steps { machine [(0x0600, 0xB1), (0x0601, 0x40), (0x0040, 0xF0), (0x0041, 0x12), (0x1310, 0xAB)] with y := 0x20 }
      (fun t => t.a == 0xAB && t.p == 0xA0 && t.pc == 0x0602) = true := by decide

/-- 95_test_vectors.md A15. -/
theorem test_sta_absolute_operand_wraps :
    steps { machine [(0xFFFE, 0x8D), (0xFFFF, 0x00), (0x0000, 0x03)] with a := 0x5E, pc := 0xFFFE }
      (fun t => t.p == 0x20 && t.pc == 0x0001 && t.read 0x0300 == 0x5E) = true := by decide

/-- 95_test_vectors.md M1. -/
theorem test_lda_zero :
    steps { machine [(0x0600, 0xA9), (0x0601, 0x00)] with a := 0x55, p := 0xA0 }
      (fun t => t.a == 0x00 && t.p == 0x22 && t.pc == 0x0602) = true := by decide

/-- 95_test_vectors.md M3. -/
theorem test_ldx_negative :
    steps (machine [(0x0600, 0xA2), (0x0601, 0xFF)])
      (fun t => t.x == 0xFF && t.p == 0xA0 && t.pc == 0x0602) = true := by decide

/-- 95_test_vectors.md M4. -/
theorem test_ldy_zeroPageX :
    steps { machine [(0x0600, 0xB4), (0x0601, 0x10), (0x0005, 0x01)] with x := 0xF5 }
      (fun t => t.y == 0x01 && t.p == 0x20 && t.pc == 0x0602) = true := by decide

/-- 95_test_vectors.md M5. -/
theorem test_sta_absoluteX_no_flags :
    steps { machine [(0x0600, 0x9D), (0x0601, 0xFF), (0x0602, 0x01)] with a := 0x00, x := 0x01, p := 0xA1 }
      (fun t => t.p == 0xA1 && t.pc == 0x0603 && t.read 0x0200 == 0x00) = true := by decide

/-- 95_test_vectors.md M6. -/
theorem test_stx_zeroPageY :
    steps { machine [(0x0600, 0x96), (0x0601, 0x10)] with x := 0x80, y := 0xF0 }
      (fun t => t.p == 0x20 && t.pc == 0x0602 && t.read 0x0000 == 0x80) = true := by decide

/-- 95_test_vectors.md M7. -/
theorem test_sty_absolute :
    steps { machine [(0x0600, 0x8C), (0x0601, 0x00), (0x0602, 0x03)] with y := 0x7E }
      (fun t => t.p == 0x20 && t.pc == 0x0603 && t.read 0x0300 == 0x7E) = true := by decide

/-- 95_test_vectors.md M8. -/
theorem test_tax :
    steps { machine [(0x0600, 0xAA)] with a := 0x00, x := 0x12 }
      (fun t => t.x == 0x00 && t.p == 0x22 && t.pc == 0x0601) = true := by decide

/-- 95_test_vectors.md M9. -/
theorem test_tay :
    steps { machine [(0x0600, 0xA8)] with a := 0xC3 }
      (fun t => t.y == 0xC3 && t.p == 0xA0 && t.pc == 0x0601) = true := by decide

/-- 95_test_vectors.md M10. -/
theorem test_txa :
    steps { machine [(0x0600, 0x8A)] with x := 0x7F, a := 0x80, p := 0xA0 }
      (fun t => t.a == 0x7F && t.p == 0x20 && t.pc == 0x0601) = true := by decide

/-- 95_test_vectors.md M11. -/
theorem test_tya :
    steps { machine [(0x0600, 0x98)] with y := 0xFF }
      (fun t => t.a == 0xFF && t.p == 0xA0 && t.pc == 0x0601) = true := by decide

/-- 95_test_vectors.md M12. -/
theorem test_tsx :
    steps { machine [(0x0600, 0xBA)] with sp := 0x00 }
      (fun t => t.p == 0x22 && t.pc == 0x0601) = true := by decide

/-- 95_test_vectors.md M13. -/
theorem test_txs_no_flags :
    steps { machine [(0x0600, 0x9A)] with x := 0x00, p := 0xA0 }
      (fun t => t.sp == 0x00 && t.p == 0xA0 && t.pc == 0x0601) = true := by decide

/-- 95_test_vectors.md U4. -/
theorem test_adc_adder_operand_256 :
    steps { machine [(0x0600, 0x69), (0x0601, 0xFF)] with a := 0x00, p := 0x21 }
      (fun t => t.p == 0x23 && t.pc == 0x0602) = true := by decide

/-- 95_test_vectors.md U10. -/
theorem test_sbc_borrow_in :
    steps { machine [(0x0600, 0xE9), (0x0601, 0x03)] with a := 0x05, p := 0x20 }
      (fun t => t.a == 0x01 && t.p == 0x21 && t.pc == 0x0602) = true := by decide

/-- 95_test_vectors.md U12. -/
theorem test_sbc_signed_overflow :
    steps { machine [(0x0600, 0xE9), (0x0601, 0x01)] with a := 0x80, p := 0x21 }
      (fun t => t.a == 0x7F && t.p == 0x61 && t.pc == 0x0602) = true := by decide

/-- 95_test_vectors.md U16. -/
theorem test_and_zero :
    steps { machine [(0x0600, 0x29), (0x0601, 0x00)] with a := 0xFF, p := 0xE1 }
      (fun t => t.a == 0x00 && t.p == 0x63 && t.pc == 0x0602) = true := by decide

/-- 95_test_vectors.md U17. -/
theorem test_ora_negative :
    steps { machine [(0x0600, 0x09), (0x0601, 0x80)] with a := 0x0F }
      (fun t => t.a == 0x8F && t.p == 0xA0 && t.pc == 0x0602) = true := by decide

/-- 95_test_vectors.md U18. -/
theorem test_eor_zero :
    steps { machine [(0x0600, 0x49), (0x0601, 0xFF)] with a := 0xFF }
      (fun t => t.a == 0x00 && t.p == 0x22 && t.pc == 0x0602) = true := by decide

/-- 95_test_vectors.md U19. -/
theorem test_asl_accumulator :
    steps { machine [(0x0600, 0x0A)] with a := 0x81 }
      (fun t => t.a == 0x02 && t.p == 0x21 && t.pc == 0x0601) = true := by decide

/-- 95_test_vectors.md U20. -/
theorem test_asl_memory :
    steps (machine [(0x0600, 0x06), (0x0601, 0x10), (0x0010, 0x80)])
      (fun t => t.p == 0x23 && t.pc == 0x0602 && t.read 0x0010 == 0x00) = true := by decide

/-- 95_test_vectors.md U21. -/
theorem test_lsr_accumulator :
    steps { machine [(0x0600, 0x4A)] with a := 0x01, p := 0xA0 }
      (fun t => t.a == 0x00 && t.p == 0x23 && t.pc == 0x0601) = true := by decide

/-- 95_test_vectors.md U22. -/
theorem test_rol_accumulator :
    steps { machine [(0x0600, 0x2A)] with a := 0x81, p := 0x21 }
      (fun t => t.a == 0x03 && t.p == 0x21 && t.pc == 0x0601) = true := by decide

/-- 95_test_vectors.md U24. -/
theorem test_ror_accumulator :
    steps { machine [(0x0600, 0x6A)] with a := 0x02, p := 0x21 }
      (fun t => t.a == 0x81 && t.p == 0xA0 && t.pc == 0x0601) = true := by decide

/-- 95_test_vectors.md U25. -/
theorem test_ror_memory :
    steps { machine [(0x0600, 0x76), (0x0601, 0x10), (0x0011, 0x01)] with x := 0x01 }
      (fun t => t.p == 0x23 && t.pc == 0x0602 && t.read 0x0011 == 0x00) = true := by decide

/-- 95_test_vectors.md U27. -/
theorem test_bit_zeroPage :
    steps { machine [(0x0600, 0x24), (0x0601, 0x10), (0x0010, 0xC0)] with a := 0x01, p := 0x21 }
      (fun t => t.p == 0xE3 && t.pc == 0x0602) = true := by decide

/-- 95_test_vectors.md U28. -/
theorem test_bit_absolute_clears :
    steps { machine [(0x0600, 0x2C), (0x0601, 0x00), (0x0602, 0x03), (0x0300, 0x3F)] with a := 0x0F, p := 0xE0 }
      (fun t => t.p == 0x20 && t.pc == 0x0603) = true := by decide

/-- 95_test_vectors.md U29. -/
theorem test_inc_wraps :
    steps (machine [(0x0600, 0xE6), (0x0601, 0x10), (0x0010, 0xFF)])
      (fun t => t.p == 0x22 && t.pc == 0x0602 && t.read 0x0010 == 0x00) = true := by decide

/-- 95_test_vectors.md U30. -/
theorem test_inc_absoluteX :
    steps { machine [(0x0600, 0xFE), (0x0601, 0x00), (0x0602, 0x03), (0x0302, 0x7F)] with x := 0x02 }
      (fun t => t.p == 0xA0 && t.pc == 0x0603 && t.read 0x0302 == 0x80) = true := by decide

/-- 95_test_vectors.md U31. -/
theorem test_dec_wraps :
    steps (machine [(0x0600, 0xC6), (0x0601, 0x10), (0x0010, 0x00)])
      (fun t => t.p == 0xA0 && t.pc == 0x0602 && t.read 0x0010 == 0xFF) = true := by decide

/-- 95_test_vectors.md U32. -/
theorem test_inx_wraps :
    steps { machine [(0x0600, 0xE8)] with x := 0xFF }
      (fun t => t.x == 0x00 && t.p == 0x22 && t.pc == 0x0601) = true := by decide

/-- 95_test_vectors.md U33. -/
theorem test_iny_negative :
    steps { machine [(0x0600, 0xC8)] with y := 0x7F }
      (fun t => t.y == 0x80 && t.p == 0xA0 && t.pc == 0x0601) = true := by decide

/-- 95_test_vectors.md U34. -/
theorem test_dex_zero :
    steps { machine [(0x0600, 0xCA)] with x := 0x01 }
      (fun t => t.x == 0x00 && t.p == 0x22 && t.pc == 0x0601) = true := by decide

/-- 95_test_vectors.md U35. -/
theorem test_dey_wraps :
    steps { machine [(0x0600, 0x88)] with y := 0x00 }
      (fun t => t.y == 0xFF && t.p == 0xA0 && t.pc == 0x0601) = true := by decide

/-- 95_test_vectors.md F2. -/
theorem test_cmp_with_zero :
    steps { machine [(0x0600, 0xC9), (0x0601, 0x00)] with a := 0x81 }
      (fun t => t.p == 0xA1 && t.pc == 0x0602) = true := by decide

/-- 95_test_vectors.md F4. -/
theorem test_cmp_writes_overflow :
    steps { machine [(0x0600, 0xC9), (0x0601, 0x01)] with a := 0x80 }
      (fun t => t.p == 0x61 && t.pc == 0x0602) = true := by decide

/-- 95_test_vectors.md F6. -/
theorem test_cpx_zeroPage :
    steps { machine [(0x0600, 0xE4), (0x0601, 0x10), (0x0010, 0x20)] with x := 0x10 }
      (fun t => t.p == 0xA0 && t.pc == 0x0602) = true := by decide

/-- 95_test_vectors.md F7. -/
theorem test_cpy_equal :
    steps { machine [(0x0600, 0xC0), (0x0601, 0x00)] with y := 0x00, p := 0x20 }
      (fun t => t.p == 0x23 && t.pc == 0x0602) = true := by decide

/-- 95_test_vectors.md F8. -/
theorem test_jmp_absolute :
    steps (machine [(0x0600, 0x4C), (0x0601, 0x34), (0x0602, 0x12)])
      (fun t => t.p == 0x20 && t.pc == 0x1234) = true := by decide

/-- 95_test_vectors.md F9. -/
theorem test_jsr :
    steps (machine [(0x0600, 0x20), (0x0601, 0x00), (0x0602, 0x80)])
      (fun t => t.sp == 0xFD && t.p == 0x20 && t.pc == 0x8000 && t.read 0x01FF == 0x06 && t.read 0x01FE == 0x02) = true := by decide

/-- 95_test_vectors.md F12. -/
theorem test_jsr_stack_wraps :
    steps { machine [(0x0600, 0x20), (0x0601, 0x00), (0x0602, 0x80)] with sp := 0x00 }
      (fun t => t.sp == 0xFE && t.p == 0x20 && t.pc == 0x8000 && t.read 0x0100 == 0x06 && t.read 0x01FF == 0x02) = true := by decide

/-- 95_test_vectors.md F11. -/
theorem test_rts_wraps :
    steps { machine [(0x0600, 0x60), (0x01FE, 0xFF), (0x01FF, 0xFF)] with sp := 0xFD }
      (fun t => t.sp == 0xFF && t.p == 0x20 && t.pc == 0x0000) = true := by decide

/-- 95_test_vectors.md F13. -/
theorem test_bcc_taken :
    steps (machine [(0x0600, 0x90), (0x0601, 0x10)])
      (fun t => t.p == 0x20 && t.pc == 0x0612) = true := by decide

/-- 95_test_vectors.md F14. -/
theorem test_bcc_not_taken :
    steps { machine [(0x0600, 0x90), (0x0601, 0x10)] with p := 0x21 }
      (fun t => t.p == 0x21 && t.pc == 0x0602) = true := by decide

/-- 95_test_vectors.md F15. -/
theorem test_bcs_self :
    steps { machine [(0x0600, 0xB0), (0x0601, 0xFE)] with p := 0x21 }
      (fun t => t.p == 0x21 && t.pc == 0x0600) = true := by decide

/-- 95_test_vectors.md F16. -/
theorem test_beq_farthest_back :
    steps { machine [(0x0600, 0xF0), (0x0601, 0x80)] with p := 0x22 }
      (fun t => t.p == 0x22 && t.pc == 0x0582) = true := by decide

/-- 95_test_vectors.md F17. -/
theorem test_bne_farthest_forward :
    steps (machine [(0x0600, 0xD0), (0x0601, 0x7F)])
      (fun t => t.p == 0x20 && t.pc == 0x0681) = true := by decide

/-- 95_test_vectors.md F18. -/
theorem test_bmi_wraps_up :
    steps { machine [(0xFFF0, 0x30), (0xFFF1, 0x20)] with p := 0xA0, pc := 0xFFF0 }
      (fun t => t.p == 0xA0 && t.pc == 0x0012) = true := by decide

/-- 95_test_vectors.md F19. -/
theorem test_bpl_back :
    steps { machine [(0x0010, 0x10), (0x0011, 0xF0)] with pc := 0x0010 }
      (fun t => t.p == 0x20 && t.pc == 0x0002) = true := by decide

/-- 95_test_vectors.md F20. -/
theorem test_bvc_not_taken :
    steps { machine [(0x0600, 0x50), (0x0601, 0x10)] with p := 0x60 }
      (fun t => t.p == 0x60 && t.pc == 0x0602) = true := by decide

/-- 95_test_vectors.md F21. -/
theorem test_bvs_taken :
    steps { machine [(0x0600, 0x70), (0x0601, 0x04)] with p := 0x60 }
      (fun t => t.p == 0x60 && t.pc == 0x0606) = true := by decide

/-- 95_test_vectors.md F22. -/
theorem test_bne_wraps_down :
    steps { machine [(0x0001, 0xD0), (0x0002, 0xFC)] with pc := 0x0001 }
      (fun t => t.p == 0x20 && t.pc == 0xFFFF) = true := by decide

/-- 95_test_vectors.md K2. -/
theorem test_pha_stack_wraps :
    steps { machine [(0x0600, 0x48)] with a := 0x42, sp := 0x00 }
      (fun t => t.sp == 0xFF && t.p == 0x20 && t.pc == 0x0601 && t.read 0x0100 == 0x42) = true := by decide

/-- 95_test_vectors.md K3. -/
theorem test_pla_stack_wraps :
    steps (machine [(0x0600, 0x68), (0x0100, 0x80)])
      (fun t => t.a == 0x80 && t.sp == 0x00 && t.p == 0xA0 && t.pc == 0x0601) = true := by decide

/-- 95_test_vectors.md K6. -/
theorem test_php_pushes_stored_b :
    steps { machine [(0x0600, 0x08)] with p := 0x34 }
      (fun t => t.sp == 0xFE && t.p == 0x34 && t.pc == 0x0601 && t.read 0x01FF == 0x34) = true := by decide

/-- 95_test_vectors.md K7. -/
theorem test_plp_forces_bit_five :
    steps { machine [(0x0600, 0x28), (0x01FF, 0x00)] with sp := 0xFE }
      (fun t => t.sp == 0xFF && t.p == 0x20 && t.pc == 0x0601) = true := by decide

/-- 95_test_vectors.md K9. -/
theorem test_plp_all_flags :
    steps { machine [(0x0600, 0x28), (0x01FF, 0xFF)] with sp := 0xFE }
      (fun t => t.sp == 0xFF && t.p == 0xFF && t.pc == 0x0601) = true := by decide

/-- 95_test_vectors.md S1. -/
theorem test_clc :
    steps { machine [(0x0600, 0x18)] with p := 0xFF }
      (fun t => t.p == 0xFE && t.pc == 0x0601) = true := by decide

/-- 95_test_vectors.md S2. -/
theorem test_sec :
    steps (machine [(0x0600, 0x38)])
      (fun t => t.p == 0x21 && t.pc == 0x0601) = true := by decide

/-- 95_test_vectors.md S3. -/
theorem test_cli :
    steps { machine [(0x0600, 0x58)] with p := 0x24 }
      (fun t => t.p == 0x20 && t.pc == 0x0601) = true := by decide

/-- 95_test_vectors.md S4. -/
theorem test_sei :
    steps (machine [(0x0600, 0x78)])
      (fun t => t.p == 0x24 && t.pc == 0x0601) = true := by decide

/-- 95_test_vectors.md S5. -/
theorem test_cld :
    steps { machine [(0x0600, 0xD8)] with p := 0x28 }
      (fun t => t.p == 0x20 && t.pc == 0x0601) = true := by decide

/-- 95_test_vectors.md S6. -/
theorem test_sed :
    steps (machine [(0x0600, 0xF8)])
      (fun t => t.p == 0x28 && t.pc == 0x0601) = true := by decide

/-- 95_test_vectors.md S7. -/
theorem test_clv :
    steps { machine [(0x0600, 0xB8)] with p := 0x60 }
      (fun t => t.p == 0x20 && t.pc == 0x0601) = true := by decide

/-- 95_test_vectors.md S8. -/
theorem test_nop :
    steps { machine [(0x0600, 0xEA)] with a := 0x12, p := 0xE3 }
      (fun t => t.p == 0xE3 && t.pc == 0x0601) = true := by decide

/-- 95_test_vectors.md S10. -/
theorem test_brk_not_masked :
    steps { machine [(0x0600, 0x00), (0xFFFE, 0x00), (0xFFFF, 0x90)] with p := 0x24 }
      (fun t => t.sp == 0xFC && t.p == 0x34 && t.pc == 0x9000 && t.read 0x01FF == 0x06 && t.read 0x01FE == 0x02 && t.read 0x01FD == 0x34) = true := by decide

/-- 95_test_vectors.md S12. -/
theorem test_rti :
    steps { machine [(0x0600, 0x40), (0x01FD, 0x00), (0x01FE, 0x34), (0x01FF, 0x12)] with sp := 0xFC }
      (fun t => t.sp == 0xFF && t.p == 0x20 && t.pc == 0x1234) = true := by decide

/-- 95_test_vectors.md E3. -/
theorem test_irq_taken :
    steps { machine [(0x0600, 0xEA), (0xFFFE, 0x00), (0xFFFF, 0x08)] with irqLevels := [true] }
      (fun t => t.sp == 0xFC && t.p == 0x24 && t.pc == 0x0800 && t.read 0x01FF == 0x06 && t.read 0x01FE == 0x00 && t.read 0x01FD == 0x20) = true := by decide

/-- 95_test_vectors.md E4. -/
theorem test_irq_masked :
    steps { machine [(0x0600, 0xEA), (0xFFFE, 0x00), (0xFFFF, 0x08)] with p := 0x24, irqLevels := [true] }
      (fun t => t.p == 0x24 && t.pc == 0x0601) = true := by decide

/-- 95_test_vectors.md E5. -/
theorem test_irq_pushes_b_clear :
    steps { machine [(0x0600, 0xEA), (0xFFFE, 0x00), (0xFFFF, 0x08)] with p := 0x3B, irqLevels := [true] }
      (fun t => t.sp == 0xFC && t.p == 0x2F && t.pc == 0x0800 && t.read 0x01FF == 0x06 && t.read 0x01FE == 0x00 && t.read 0x01FD == 0x2B) = true := by decide

/-- 95_test_vectors.md U8 and U36: D is ignored under the policy binary, and ADC is refused under refuse. -/
theorem test_adc_decimal_policy :
    steps { machine [(0x0600, 0x69), (0x0601, 0x01)] with a := 0x09, p := 0x28 } (fun t => t.a == 0x0A && t.p == 0x28) = true ∧
    faults { machine [(0x0600, 0x69), (0x0601, 0x01)] with a := 0x09, p := 0x28, cfg := { Config.default with decimalPolicy := .refuse } }
      (.decimalRefused 0x69) = true := by decide

/-- 95_test_vectors.md E1, E2: undefined opcodes fault with code 1 and change nothing but the record. -/
theorem test_undefined_opcode_faults :
    faults { machine [(0x0600, 0x02)] with a := 0x12, p := 0x21 } (.illegalOpcode 0x02) = true ∧
    faults (machine [(0x0600, 0xFF)]) (.illegalOpcode 0xFF) = true ∧
    hostStep false (machine [(0x0600, 0xFF)]) =
      ({ machine [(0x0600, 0xFF)] with halted := some (.illegalOpcode 0xFF) }, some (.illegalOpcode 0xFF)) := by decide

/-- 95_test_vectors.md 2.1: the rows of the adder routine, as (m, k, nv, result, C, V, Z, N). -/
theorem test_adder_routine :
    [((0x50, 80, 0x50, 0xA0, false, true, false, true) : Byte × Nat × Byte × Byte × Bool × Bool × Bool × Bool),
      (0xD0, 208, 0xD0, 0xA0, true, false, false, true), (0x00, 256, 0xFF, 0x00, true, false, true, false),
      (0x7F, 1, 0x01, 0x80, false, true, false, true), (0x80, 255, 0xFF, 0x7F, true, true, false, false),
      (0x80, 128, 0x80, 0x00, true, true, true, false), (0x01, 256, 0x00, 0x01, true, false, false, false),
      (0x05, 253, 0xFC, 0x02, true, false, false, false)].all
      (fun (m, k, nv, r, c, v, z, n) =>
        adderResult m k == r && getFlag .c (adderFlags m k nv 0x20) == c && getFlag .v (adderFlags m k nv 0x20) == v &&
          getFlag .z (adderFlags m k nv 0x20) == z && getFlag .n (adderFlags m k nv 0x20) == n) = true := by decide

/-- 95_test_vectors.md B1, B3: boot writes PC only. -/
theorem test_boot :
    boots (construct Config.default [(0xFFFD, 0x80)]) (fun t => t.pc == 0x8000 && t.sp == 0xFF && t.p == 0x20) = true ∧
    boots { machine [(0xFFFD, 0x06)] with a := 0x12, p := 0xE3, pc := 0x1234 }
      (fun t => t.pc == 0x0600 && t.a == 0x12 && t.p == 0xE3) = true := by decide

/-- Memory stays canonical and loses a byte that becomes the unlisted one (20_memory.md R60; log 1). -/
theorem test_memory_canonical :
    ((State.reset.write 0x0010 0x01).write 0x0005 0x02).mem = [(0x0005, 0x02), (0x0010, 0x01)] ∧
    ((State.reset.write 0x0010 0x01).write 0x0010 0x00).mem = [] := by decide

/-- The next Step after reset runs the word that `withFetchWord` stores (log 11). -/
theorem test_withFetchWord :
    steps (State.reset.withFetchWord 16 0x80A9) (fun t => t.a == 0x80 && t.pc == 0x0002) = true := by decide

/-! ### Another owner of memory: 20_memory.md R68, R76, R77, R79, by hand; a Step passes one point before each primitive after
the opcode read -/

/-- INC's three points are before the operand byte, the read and the write: a host write before the write is lost, one before the
read is seen, and a point not listed writes nothing (R79). -/
theorem test_perPrimitive_inc_is_not_atomic :
    steps (shared [(0x0600, 0xE6), (0x0601, 0x10), (0x0010, 0x41)] [[], [], [(0x0010, 0x99)], [(0x0010, 0x77)]])
      (fun t => t.read 0x0010 == 0x42 && t.hostWrites == [[(0x0010, 0x77)]]) = true ∧
    steps (shared [(0x0600, 0xE6), (0x0601, 0x10), (0x0010, 0x41)] [[], [(0x0010, 0x99)]])
      (fun t => t.read 0x0010 == 0x9A && t.hostWrites == []) = true := by decide

/-- Under `none` the same Step is atomic, and the list of host writes is neither read nor changed (R68). -/
theorem test_none_step_is_atomic :
    steps (pokeWithin [[], [(0x0010, 0x99)]] (machine [(0x0600, 0xE6), (0x0601, 0x10), (0x0010, 0x41)]))
      (fun t => t.read 0x0010 == 0x42 && t.hostWrites == [[], [(0x0010, 0x99)]]) = true := by decide

/-- A host write between JSR's two pushes replaces the stacked high byte; the target was read before (R77). -/
theorem test_perPrimitive_jsr_between_pushes :
    steps (shared [(0x0600, 0x20), (0x0601, 0x00), (0x0602, 0x80)] [[], [(0x0602, 0x99)], [(0x01FF, 0xEE)]])
      (fun t => t.pc == 0x8000 && t.sp == 0xFD && t.read 0x01FF == 0xEE && t.read 0x01FE == 0x02) = true := by decide

/-- After the opcode read a host write may change the operand byte, but not the instruction (R77). -/
theorem test_perPrimitive_operand_byte :
    steps (shared [(0x0600, 0xA5), (0x0601, 0x10), (0x0011, 0x77)] [[(0x0600, 0xEA), (0x0601, 0x11)]])
      (fun t => t.a == 0x77 && t.pc == 0x0602 && t.read 0x0600 == 0xEA) = true := by decide

/-- A branch reads its displacement only where it is taken (44_control_flow.md R247). -/
theorem test_perPrimitive_branch :
    steps (shared [(0x0600, 0x90), (0x0601, 0x10)] [[(0x0601, 0x20)]])
      (fun t => t.pc == 0x0622 && t.hostWrites == []) = true ∧
    steps { shared [(0x0600, 0x90), (0x0601, 0x10)] [[(0x0601, 0x20)]] with p := 0x21 }
      (fun t => t.pc == 0x0602 && t.hostWrites == [[(0x0601, 0x20)]] && t.read 0x0601 == 0x10) = true := by decide

/-- The pointer of `(zp),Y` is one word read under `word16`, so no host write parts its bytes, and two byte reads under
`zeropage` (41_addressing.md R152). -/
theorem test_perPrimitive_pointer :
    steps (shared [(0x0600, 0xB1), (0x0601, 0x10), (0x0011, 0x12), (0x1200, 0x55), (0x1300, 0x66)] [[], [], [(0x0011, 0x13)]])
      (fun t => t.a == 0x55) = true ∧
    steps { shared [(0x0600, 0xB1), (0x0601, 0x10), (0x0011, 0x12), (0x1200, 0x55), (0x1300, 0x66)] [[], [], [(0x0011, 0x13)]] with
        cfg := { Config.default with hostInterleave := .perPrimitive, zpPointerWrap := .zeropage } }
      (fun t => t.a == 0x66) = true := by decide

/-- The IRQ entry has a point between two of its four primitives: before the second push, the third, and the vector read. -/
theorem test_perPrimitive_irq_entry :
    steps { shared [(0xFFFF, 0x08)] [[], [], [(0x01FF, 0xEE), (0xFFFF, 0x09)], []] with irqLevels := [true] }
      (fun t => t.pc == 0x0900 && t.read 0x01FF == 0xEE && t.read 0x01FE == 0x00 && t.hostWrites == [[]]) = true := by decide

/-- A word that `withFetchWord` stores runs whatever the other owner was to write after the opcode read (log 11). -/
theorem test_perPrimitive_withFetchWord :
    steps ((shared [] [[(0x0601, 0x11)]]).withFetchWord 16 0x80A9) (fun t => t.a == 0x80 && t.pc == 0x0602) = true := by decide

/-! ### Witnesses: hypotheses of the obligations met together, one for each clause, at boundary values -/

/-- A running machine in the middle of a program: an instruction at PC, operands in page 0, stack bytes, both vectors. -/
def busy : State :=
  { machine [(0x0600, 0x69), (0x0601, 0x50), (0x0010, 0x80), (0x00FF, 0x34), (0x0100, 0x12), (0x01FF, 0x06),
      (0xFFFD, 0x06), (0xFFFF, 0x90)] with a := 0x81, x := 0xFF, y := 0x02, sp := 0x00, p := 0xE1 }

/-- The same machine shared with an owner that writes outside the stack page, the bytes after PC, and never at the second point. -/
def busyShared : State :=
  { busy with cfg := { Config.default with hostInterleave := .perPrimitive }, hostWrites := [[(0x0010, 0x99)], [], [(0x0011, 0x7F)]] }

theorem busyShared_undisturbed (ads : List Addr) (h : (0x0010 : Addr) ∉ ads ∧ (0x0011 : Addr) ∉ ads) :
    busyShared.undisturbed ads :=
  .inr (by simpa [busyShared] using h)

/-- A state that refuses a decimal ADC. -/
def refusing : State := { busy with p := 0x2C, cfg := { Config.default with decimalPolicy := .refuse } }

theorem witness_BootLoadsPCFromResetVector :
    busy.halted = none ∧ busy.read 0xFFFC = 0x00 ∧ busy.read 0xFFFD = 0x06 := by decide

theorem witness_ReadAfterWriteReturnsTheByte :
    (0x0000 : Addr) ≠ 0xFFFF ∧ (0xFFFF : Addr) ≠ 0x0000 := by decide

theorem witness_CanonicalMemoryIsDeterminedByReads :
    busy.mem.wf = true ∧ (∀ ad : Addr, busy.read ad = { busy with a := 0x00 }.read ad) := ⟨by decide, fun _ => rfl⟩

theorem witness_LoadPlacesImageOrIsRefused :
    0xFFFE + [(0x00 : Byte), 0x80].length ≤ 65536 ∧ 65536 < 0xFFFF + [(0x00 : Byte), 0x80].length ∧
      (0xFFFD : Addr).toNat < 0xFFFE ∧ 0x0010 + [(0x00 : Byte), 0x80].length ≤ (0x0012 : Addr).toNat := by decide

theorem witness_ZeroAndNegativeComeFromOneResult :
    Flag.c ∉ [Flag.z, .n] ∧ (busy.setZN 0x00).flag .z = true ∧ (busy.setZN 0x80).flag .n = true := by decide

/-- One state per clause: the routine at k = 256, then ADC, SBC, CMP, CPX and CPY. -/
theorem witness_AdderRoutineSetsCarryOverflowZeroNegative :
    256 ≤ 256 ∧
    (operandValue (Instr.adcImm 0xFF).operand busy = some 0xFF ∧ (∃ t, exec (.adcImm 0xFF) busy = .next t) ∧
      ((Instr.adcImm 0xFF).mnemonic, (0xFF : Byte)) ∈ [(Mnemonic.adc, (0xFF : Byte)), (Mnemonic.sbc, ~~~0xFF)]) ∧
    (operandValue (Instr.sbcImm 0x00).operand busy = some 0x00 ∧ (∃ t, exec (.sbcImm 0x00) busy = .next t) ∧
      ((Instr.sbcImm 0x00).mnemonic, (0xFF : Byte)) ∈ [(Mnemonic.adc, (0x00 : Byte)), (Mnemonic.sbc, ~~~0x00)]) ∧
    (∃ t, exec (.cmpImm 0x00) busy = .next t) ∧ (∃ t, exec (.cpxImm 0x00) busy = .next t) ∧
    (∃ t, exec (.cpyImm 0x00) busy = .next t) ∧
    ((Instr.cpyImm 0x00).mnemonic, Reg.y) ∈ [(Mnemonic.cmp, Reg.a), (Mnemonic.cpx, Reg.x), (Mnemonic.cpy, Reg.y)] := ⟨by decide, ⟨rfl, ⟨_, rfl⟩, by decide⟩, ⟨rfl, ⟨_, rfl⟩, by decide⟩, ⟨_, rfl⟩, ⟨_, rfl⟩, ⟨_, rfl⟩, by decide⟩

theorem witness_ResolverGivesEffectiveAddresses :
    (Instr.ldxZpY 0xF0).mode = .zeroPageYIndex ∧ (Instr.stxZpY 0xF0).mode = .zeroPageYIndex ∧ resolve .accumulator busy = none ∧
      resolve (.zeroPage 0xFF) busy = some 0x00FF := by decide

/-- Pointers at 0xFF, under both settings of each parameter. -/
theorem witness_ResolverIndexesAndFollowsPointers :
    255 = ((0x00 : Byte).toNat + busy.x.toNat) % 256 ∧
    256 = (if busy.cfg.zpPointerWrap = .word16 then (255 + 1) % 65536 else (255 + 1) % 256) ∧
    0 = (if { busy with cfg := { Config.default with zpPointerWrap := .zeropage } }.cfg.zpPointerWrap = .word16 then
      (255 + 1) % 65536 else (255 + 1) % 256) ∧ 255 = (0xFF : Byte).toNat ∧
    (∀ s ∈ [busy, busyShared], s.hostGap = (if s.cfg.zpPointerWrap = .word16 then s.hostGap else s.hostGap.hostGap)) := by decide

theorem witness_OperandIsTheByteAtTheEffectiveAddress :
    fetch busy = .ok (.adcImm 0x50) ∧ fetch { busy with pc := 0xFFFF } = .ok (.bcc 0x00) ∧
      fetch { busy.write 0xFFFF 0xAD with pc := 0xFFFF } = .ok (.ldaAbs 0x0000) ∧
      (fetch { busyShared with hostWrites := [[(0x0601, 0x51)]] } = .ok (.adcImm 0x51) ∧
        busyShared = busyShared.fetched (.adcImm 0x50)) := by decide

theorem witness_DecodedBytesAreTheEncoding :
    decode [0xAD, 0x34, 0x12, 0xEA] = .ok (.ldaAbs 0x1234, [0xEA]) ∧ decode [0xA9, 0x80] = .ok (.ldaImm 0x80, []) ∧
      decode [0xEA] = .ok (.nop, []) := by decide

theorem witness_LengthIsOnePlusOperandBytesOfTheMode :
    (Instr.ldaImm 0x01).opcode = (Instr.ldaImm 0x02).opcode := by decide

theorem witness_LoadsWriteRegisterAndZeroNegative :
    ((Instr.ldaImm 0x00).mnemonic, Reg.a) ∈ [(Mnemonic.lda, Reg.a), (Mnemonic.ldx, Reg.x), (Mnemonic.ldy, Reg.y)] ∧
      ((Instr.ldxZpY 0xFF).mnemonic, Reg.x) ∈ [(Mnemonic.lda, Reg.a), (Mnemonic.ldx, Reg.x), (Mnemonic.ldy, Reg.y)] ∧
      ((Instr.ldyAbsX 0xFFFF).mnemonic, Reg.y) ∈ [(Mnemonic.lda, Reg.a), (Mnemonic.ldx, Reg.x), (Mnemonic.ldy, Reg.y)] := by decide

theorem witness_StoresWriteOneByteAndNoFlag :
    ((Instr.staAbsX 0xFFFF).mnemonic, Reg.a) ∈ [(Mnemonic.sta, Reg.a), (Mnemonic.stx, Reg.x), (Mnemonic.sty, Reg.y)] ∧
      ((Instr.stxZpY 0xFF).mnemonic, Reg.x) ∈ [(Mnemonic.sta, Reg.a), (Mnemonic.stx, Reg.x), (Mnemonic.sty, Reg.y)] ∧
      ((Instr.styZpX 0x00).mnemonic, Reg.y) ∈ [(Mnemonic.sta, Reg.a), (Mnemonic.stx, Reg.x), (Mnemonic.sty, Reg.y)] := by decide

theorem witness_TransfersCopyRegisterAndSetZeroNegative :
    [(Instr.tax, Reg.a, Reg.x), (Instr.tay, Reg.a, Reg.y), (Instr.txa, Reg.x, Reg.a), (Instr.tya, Reg.y, Reg.a)].all
      (fun v => v ∈ [(Instr.tax, Reg.a, Reg.x), (Instr.tay, Reg.a, Reg.y), (Instr.txa, Reg.x, Reg.a),
        (Instr.tya, Reg.y, Reg.a)]) = true := by decide

/-- Binary with D set, and refuse with D clear. -/
theorem witness_AdcAndSbcAddWithCarry :
    ({ busy with p := 0x28 }.decimalAllowed ∧ (Instr.adcAbsX 0xFFFF).mnemonic = .adc) ∧
    ({ busy with p := 0x21, cfg := { Config.default with decimalPolicy := .refuse } }.decimalAllowed ∧
      (Instr.sbcIndY 0xFF).mnemonic = .sbc) := ⟨⟨.inl rfl, rfl⟩, ⟨.inr (by decide), rfl⟩⟩

theorem witness_AdcOverflowIsSignedOverflow :
    (Instr.adcImm 0x80).mnemonic = .adc ∧ operandValue (Instr.adcImm 0x80).operand busy = some 0x80 ∧
    ∃ t, exec (.adcImm 0x80) busy = .next t := ⟨rfl, rfl, _, rfl⟩

theorem witness_SbcSubtractsWithBorrow :
    (Instr.sbcImm 0x01).mnemonic = .sbc ∧ operandValue (Instr.sbcImm 0x01).operand busy = some 0x01 ∧
    0 = (if busy.flag .c then 0 else 1) ∧ 1 = (if { busy with p := 0x20 }.flag .c then 0 else 1) ∧
    (∃ t, exec (.sbcImm 0x01) busy = .next t) ∧ ∃ t, exec (.sbcImm 0x01) { busy with p := 0x20 } = .next t := ⟨rfl, rfl, by decide, by decide, ⟨_, rfl⟩, _, rfl⟩

theorem witness_DecimalPolicyRefusesOnlyWithDSet :
    ((Instr.adcImm 0x50).mnemonic = .adc ∧ refusing.cfg.decimalPolicy = .refuse ∧ refusing.flag .d = true) ∧
    exec (.sbcZp 0x10) refusing = .fault (.decimalRefused 0xE5) := ⟨by decide, rfl⟩

theorem witness_LogicWritesAccumulatorAndZeroNegative :
    operandValue (Instr.andZp 0x10).operand busy = some 0x80 ∧
    ((Instr.andZp 0x10).mnemonic, busy.a &&& 0x80) ∈
      [(Mnemonic.and, busy.a &&& 0x80), (Mnemonic.ora, busy.a ||| 0x80), (Mnemonic.eor, busy.a ^^^ 0x80)] ∧
    (operandValue (Instr.oraImm 0x00).operand busy = some 0x00 ∧ ((Instr.oraImm 0x00).mnemonic, (0x81 : Byte)) ∈
      [(Mnemonic.and, busy.a &&& 0x00), (Mnemonic.ora, busy.a ||| 0x00), (Mnemonic.eor, busy.a ^^^ 0x00)]) ∧
    operandValue (Instr.eorImm 0x81).operand busy = some 0x81 ∧ ((Instr.eorImm 0x81).mnemonic, (0x00 : Byte)) ∈
      [(Mnemonic.and, busy.a &&& 0x81), (Mnemonic.ora, busy.a ||| 0x81), (Mnemonic.eor, busy.a ^^^ 0x81)] := by decide

/-- The accumulator and a memory location, with C set; the values are those of 43_alu.md R205 to R208 by hand. -/
theorem witness_ShiftsAndRotatesMoveOneBitThroughCarry :
    (locate Instr.rorAcc.operand busy = .acc ∧ (busy.gapAt .acc).readLoc .acc = 0x81 ∧ (if busy.flag .c then 0x01 else 0x00) = (0x01 : Byte) ∧
      (if busy.flag .c then 0x80 else 0x00) = (0x80 : Byte) ∧
      ∀ v ∈ [(Mnemonic.ror, true, (0xC0 : Byte)), (Mnemonic.rol, true, 0x03), (Mnemonic.lsr, true, 0x40), (Mnemonic.asl, true, 0x02)],
        v ∈ [(Mnemonic.asl, (0x81 : Byte).getLsbD 7, (0x81 : Byte) <<< 1), (Mnemonic.lsr, (0x81 : Byte).getLsbD 0, (0x81 : Byte) >>> 1),
          (Mnemonic.rol, (0x81 : Byte).getLsbD 7, ((0x81 : Byte) <<< 1) ||| 0x01),
          (Mnemonic.ror, (0x81 : Byte).getLsbD 0, ((0x81 : Byte) >>> 1) ||| 0x80)]) ∧
    (locate (Instr.aslZp 0x10).operand busy = .mem 0x0010 ∧ (busy.gapAt (.mem 0x0010)).readLoc (.mem 0x0010) = 0x80 ∧
      (busyShared.gapAt (.mem 0x0010)).readLoc (.mem 0x0010) = 0x99 ∧
      (Mnemonic.asl, true, (0x00 : Byte)) ∈ [(Mnemonic.asl, (0x80 : Byte).getLsbD 7, (0x80 : Byte) <<< 1),
        (Mnemonic.lsr, (0x80 : Byte).getLsbD 0, (0x80 : Byte) >>> 1),
        (Mnemonic.rol, (0x80 : Byte).getLsbD 7, ((0x80 : Byte) <<< 1) ||| 0x01),
        (Mnemonic.ror, (0x80 : Byte).getLsbD 0, ((0x80 : Byte) >>> 1) ||| 0x80)]) := by decide

theorem witness_BitCopiesMemoryBitsToNegativeAndOverflow :
    (Instr.bitZp 0x10).mnemonic = .bit ∧ (Instr.bitAbs 0xFFFF).mnemonic = .bit := by decide

theorem witness_IncAndDecChangeMemoryByOne :
    resolve (Instr.incZp 0x01).operand busy = some 0x0001 ∧
    ((Instr.incZp 0x01).mnemonic, busy.hostGap.read 0x0001 + 1) ∈
      [(Mnemonic.inc, busy.hostGap.read 0x0001 + 1), (Mnemonic.dec, busy.hostGap.read 0x0001 - 1)] ∧
    resolve (Instr.decAbsX 0xFFFF).operand busy = some 0x00FE ∧
    ((Instr.decAbsX 0xFFFF).mnemonic, busy.hostGap.read 0x00FE - 1) ∈
      [(Mnemonic.inc, busy.hostGap.read 0x00FE + 1), (Mnemonic.dec, busy.hostGap.read 0x00FE - 1)] ∧
    resolve (Instr.incZp 0x10).operand busyShared = some 0x0010 ∧ busyShared.hostGap.read 0x0010 + 1 = 0x9A := by decide

theorem witness_IndexRegistersCountByOne :
    (Instr.inx, Reg.x, (0x00 : Byte)) ∈ [(Instr.inx, Reg.x, busy.x + 1), (Instr.iny, Reg.y, busy.y + 1),
      (Instr.dex, Reg.x, busy.x - 1), (Instr.dey, Reg.y, busy.y - 1)] ∧
    (Instr.dey, Reg.y, (0x01 : Byte)) ∈ [(Instr.inx, Reg.x, busy.x + 1), (Instr.iny, Reg.y, busy.y + 1),
      (Instr.dex, Reg.x, busy.x - 1), (Instr.dey, Reg.y, busy.y - 1)] := by decide

theorem witness_CompareOrdersRegisterAndOperand :
    ((Instr.cmpImm 0x00).mnemonic, Reg.a) ∈ [(Mnemonic.cmp, Reg.a), (Mnemonic.cpx, Reg.x), (Mnemonic.cpy, Reg.y)] ∧
    ((Instr.cpxZp 0xFF).mnemonic, Reg.x) ∈ [(Mnemonic.cmp, Reg.a), (Mnemonic.cpx, Reg.x), (Mnemonic.cpy, Reg.y)] ∧
    ((Instr.cpyAbs 0xFFFF).mnemonic, Reg.y) ∈ [(Mnemonic.cmp, Reg.a), (Mnemonic.cpx, Reg.x), (Mnemonic.cpy, Reg.y)] := by decide

theorem witness_JmpSetsPCToTheEffectiveAddress :
    (Operand.immediate 0x12).mode ≠ .absolute ∧ (Operand.immediate 0x12).mode ≠ .indirect := by decide

/-- S = 0: the two pushes wrap within page 1; exclusive use, and an owner that leaves the stacked byte alone. -/
theorem witness_JsrPushesItsLastByteAddress :
    busy.sp = 0x00 ∧ stackAddr busy.sp = 0x0100 ∧ stackAddr (busy.sp - 1) = 0x01FF ∧ busy.undisturbed [stackAddr busy.sp] ∧
      busyShared.undisturbed [stackAddr busyShared.sp] := ⟨by decide, by decide, by decide, .inl rfl, busyShared_undisturbed _ (by decide)⟩

theorem witness_RtsAfterJsrResumesAfterTheCall :
    busy.undisturbed [stackAddr busy.sp, stackAddr (busy.sp - 1)] ∧
      busyShared.undisturbed [stackAddr busyShared.sp, stackAddr (busyShared.sp - 1)] := ⟨.inl rfl, busyShared_undisturbed _ (by decide)⟩

/-- Each branch taken and not taken: the two states have every flag set and every flag clear. -/
theorem witness_BranchesTestOneFlag :
    [Flag.c, .z, .n, .v].all (fun f => { busy with p := 0xFF }.flag f == true) = true ∧
    [Flag.c, .z, .n, .v].all (fun f => { busy with p := 0x20 }.flag f == false) = true ∧
    (Instr.bvs 0x80, Flag.v, true) ∈ [(Instr.bcc 0x80, Flag.c, false), (Instr.bcs 0x80, Flag.c, true),
      (Instr.beq 0x80, Flag.z, true), (Instr.bmi 0x80, Flag.n, true), (Instr.bne 0x80, Flag.z, false),
      (Instr.bpl 0x80, Flag.n, false), (Instr.bvc 0x80, Flag.v, false), (Instr.bvs 0x80, Flag.v, true)] := by decide

theorem witness_PlaPullsAccumulator :
    (0x06 : Byte) = { busy with sp := 0xFE }.hostGap.read (stackAddr ({ busy with sp := 0xFE }.sp + 1)) ∧
      (0x99 : Byte) = { busyShared with sp := 0x0F, hostWrites := [[(0x0110, 0x99)]] }.hostGap.read
        (stackAddr ({ busyShared with sp := 0x0F, hostWrites := [[(0x0110, 0x99)]] }.sp + 1)) := by decide

theorem witness_FlagInstructionsWriteOneFlag :
    (Instr.clv, Flag.v, false) ∈ [(Instr.clc, Flag.c, false), (Instr.sec, Flag.c, true), (Instr.cli, Flag.i, false),
      (Instr.sei, Flag.i, true), (Instr.cld, Flag.d, false), (Instr.sed, Flag.d, true), (Instr.clv, Flag.v, false)] := by decide

theorem witness_BrkTakesTheInterruptEntry :
    busy.undisturbed [stackAddr busy.sp, stackAddr (busy.sp - 1), stackAddr (busy.sp - 2)] ∧
      busyShared.undisturbed [stackAddr busyShared.sp, stackAddr (busyShared.sp - 1), stackAddr (busyShared.sp - 2)] :=
  ⟨.inl rfl, busyShared_undisturbed _ (by decide)⟩

theorem witness_RtiAfterBrkResumesTwoBytesOn :
    { busy with pc := 0xFFFF }.undisturbed [stackAddr busy.sp, stackAddr (busy.sp - 1), stackAddr (busy.sp - 2)] ∧
      busyShared.undisturbed [stackAddr busyShared.sp, stackAddr (busyShared.sp - 1), stackAddr (busyShared.sp - 2)] :=
  ⟨.inl rfl, busyShared_undisturbed _ (by decide)⟩

theorem witness_StepRunsTheDecodedInstruction :
    (busy.halted = none ∧ busy.takesIrq = false ∧
      decode [busy.read busy.pc, busy.hostGap.read (busy.pc + 1), busy.hostGap.read (busy.pc + 2)] =
        .ok (.adcImm 0x50, [0x00])) ∧
    (busyShared.halted = none ∧ busyShared.takesIrq = false ∧
      decode [busyShared.read busyShared.pc, busyShared.hostGap.read (busyShared.pc + 1),
        busyShared.hostGap.read (busyShared.pc + 2)] = .ok (.adcImm 0x50, [0x00])) := by decide

theorem witness_StoredInstructionIsTheNextOneRun :
    ({ busy with pc := 0xFFFF }.halted = none ∧ { busy with pc := 0xFFFF }.takesIrq = false ∧
      { busy with pc := 0xFFFF }.undisturbed [0x0000, 0x0001]) ∧
    { busy with irqLevels := [true], p := 0x24 }.takesIrq = false ∧
    (busyShared.takesIrq = false ∧ busyShared.undisturbed [busyShared.pc + 1, busyShared.pc + 2]) :=
  ⟨⟨rfl, by decide, .inl rfl⟩, by decide, by decide, busyShared_undisturbed _ (by decide)⟩

theorem witness_EnabledIrqIsTakenInPlaceOfTheInstruction :
    ({ busy with irqLevels := [true, false] }.halted = none ∧
      { busy with irqLevels := [true, false] }.irqLevels = true :: [false] ∧
      { busy with irqLevels := [true, false] }.flag .i = false ∧
      { busy with irqLevels := [true, false] }.undisturbed [stackAddr busy.sp, stackAddr (busy.sp - 1), stackAddr (busy.sp - 2)]) ∧
    { busyShared with irqLevels := [true] }.undisturbed [stackAddr busy.sp, stackAddr (busy.sp - 1), stackAddr (busy.sp - 2)] :=
  ⟨⟨rfl, rfl, by decide, .inl rfl⟩, busyShared_undisturbed _ (by decide)⟩

theorem witness_HaltedCoreHasNoStepAndNoBoot :
    { busy with halted := some (.decimalRefused 0x69) }.halted = some (.decimalRefused 0x69) := by decide

/-- Both reasons a Step can record. -/
theorem witness_FaultsArePreciseAndRecorded :
    refusing.halted = none ∧ (hostStep false refusing).2 = some (.decimalRefused 0x69) ∧
    (machine [(0x0600, 0xFF)]).halted = none ∧ (hostStep true { machine [(0x0600, 0xFF)] with p := 0x24 }).2 = some (.illegalOpcode 0xFF) := by decide

theorem witness_RunningCoreStepsOrFaultsByName :
    ({ busy with irqLevels := [true] }.halted = none ∧ { busy with irqLevels := [true] }.takesIrq = true) ∧
    ((machine [(0x0600, 0x02)]).takesIrq = false ∧ (machine [(0x0600, 0x02)]).read 0x0600 ∈ undefinedOpcodes) ∧
    (refusing.halted = none ∧ refusing.takesIrq = false ∧ refusing.read refusing.pc ∈ adcSbcOpcodes ∧
      refusing.cfg.decimalPolicy = .refuse ∧ refusing.flag .d = true) ∧
    (busy.takesIrq = false ∧ busy.read busy.pc ∉ undefinedOpcodes ∧
      ¬ (busy.read busy.pc ∈ adcSbcOpcodes ∧ busy.cfg.decimalPolicy = .refuse ∧ busy.flag .d = true)) := by decide

/-- The state has the invariant, and one Step of it answers a next state: ADC of 0x50 to 0x81 with C set gives 0xD2. -/
theorem witness_EveryStepKeepsTheInvariant :
    busy.Inv ∧ steps busy (fun t => t.a == 0xD2) = true := ⟨⟨by decide, by unfold State.reservedBitSet; decide⟩, by decide⟩

theorem witness_ResetHasTheInvariant :
    (busy.mem).wf = true := by decide

theorem witness_StepKeepsParametersAndConsumesOneLevel :
    steps { busy with irqLevels := [false, true] } (fun t => t.irqLevels == [true]) = true ∧
      steps { busy with irqLevels := [true] } (fun t => t.irqLevels == []) = true ∧
      (busy.cfg.hostInterleave = .none ∧ steps { busy with hostWrites := [[(0x0601, 0x51)]] } (fun t => t.a == 0xD2) = true) := by
  decide

/-- A store, an interrupt entry, and one state for each clause about the other owner: exclusive use, no write listed, and a point
whose second write to an address is the one that is read. -/
theorem witness_MemoryChangesOnlyAtStoreAddresses :
    ((∃ t, exec (.staAbs 0xFFFF) busy = .next t) ∧ storeAddresses (.staAbs 0xFFFF) busy = [0xFFFF] ∧
      (∃ t, exec .brk busy = .next t) ∧ storeAddresses .brk busy = [0x0100, 0x01FF, 0x01FE] ∧
      (0x0010 : Addr) ∉ storeAddresses .brk busy) ∧
    busy.cfg.hostInterleave = .none ∧
    ({ busyShared with hostWrites := [] }.cfg.hostInterleave = .perPrimitive ∧ { busyShared with hostWrites := [] }.hostWrites = []) ∧
    (busyShared.cfg.hostInterleave = .perPrimitive ∧
      busyShared.hostWrites = [(0x0010, 0x99)] :: [[], [(0x0011, 0x7F)]]) ∧
    { busyShared with hostWrites := [[(0x0010, 0x99), (0x0010, 0x00)]] }.hostGap.read 0x0010 = 0x00 :=
  ⟨⟨⟨_, rfl⟩, by decide, ⟨_, rfl⟩, by decide, by decide⟩, rfl, ⟨rfl, rfl⟩, ⟨rfl, rfl⟩, by decide⟩

theorem witness_RegistersChangeOnlyByTheListedInstructions :
    (∃ t, exec (.ldaImm 0x12) busy = .next t ∧ t.a ≠ busy.a) ∧ (∃ t, exec .inx busy = .next t ∧ t.x ≠ busy.x) ∧
      (∃ t, exec .iny busy = .next t ∧ t.y ≠ busy.y) ∧ ∃ t, exec .pha busy = .next t ∧ t.sp ≠ busy.sp := ⟨⟨_, rfl, by decide⟩, ⟨_, rfl, by decide⟩, ⟨_, rfl, by decide⟩, _, rfl, by decide⟩

theorem witness_FlagsChangeOnlyByTheListedInstructions :
    (∃ t, exec .clc busy = .next t ∧ t.flag .c ≠ busy.flag .c) ∧ (∃ t, exec (.ldaImm 0x00) busy = .next t ∧ t.flag .z ≠ busy.flag .z) ∧
    (∃ t, exec (.ldaImm 0x00) busy = .next t ∧ t.flag .n ≠ busy.flag .n) ∧ (∃ t, exec .sei busy = .next t ∧ t.flag .i ≠ busy.flag .i) ∧
    (∃ t, exec .sed busy = .next t ∧ t.flag .d ≠ busy.flag .d) ∧ (∃ t, exec .brk busy = .next t ∧ t.flag .b ≠ busy.flag .b) ∧
    ∃ t, exec .clv busy = .next t ∧ t.flag .v ≠ busy.flag .v := 
  ⟨⟨_, rfl, by decide⟩, ⟨_, rfl, by decide⟩, ⟨_, rfl, by decide⟩, ⟨_, rfl, by decide⟩, ⟨_, rfl, by decide⟩, ⟨_, rfl, by decide⟩,
    _, rfl, by decide⟩

theorem witness_NonTransferInstructionsAdvancePC :
    (Instr.ldaAbs 0x1234).mnemonic ∉ [.jmp, .jsr, .rts, .brk, .rti, .bcc, .bcs, .beq, .bmi, .bne, .bpl, .bvc, .bvs] ∧
    ∃ t, exec (.ldaAbs 0x1234) { busy with pc := 0xFFFF } = .next t := ⟨by decide, _, rfl⟩

theorem witness_DecimalFlagChangesNoOtherResult :
    busy.cfg.decimalPolicy = .binary ∧ (Instr.adcImm 0x50).mnemonic ∉ [.php, .brk, .plp, .rti, .cld, .sed] ∧
    ∃ t, exec (.adcImm 0x50) busy = .next t := ⟨rfl, by decide, _, rfl⟩

theorem witness_HandlersFaultOnModesWithoutMeaning :
    (Mnemonic.lda, handleLda) ∈
      [(Mnemonic.lda, handleLda), (.ldx, handleLdx), (.ldy, handleLdy), (.sta, handleSta), (.stx, handleStx),
      (.sty, handleSty), (.and, handleAnd), (.ora, handleOra), (.eor, handleEor), (.asl, handleAsl), (.lsr, handleLsr),
      (.rol, handleRol), (.ror, handleRor), (.bit, handleBit), (.inc, handleInc), (.dec, handleDec), (.cmp, handleCmp),
      (.cpx, handleCpx), (.cpy, handleCpy), (.jmp, handleJmp), (.jsr, handleJsr)] ∧
    Operand.accumulator.mode ∉ Mnemonic.modes .lda ∧ (Operand.immediate 0x12).mode ∉ Mnemonic.modes .sta ∧
    (Operand.indirect 0x1234).mode ∉ Mnemonic.modes .jsr ∧ Operand.implied.mode ∉ Mnemonic.modes .asl := ⟨List.mem_cons_self, by decide⟩

/-- The second clause of the same statement: ADC and SBC, with a decimal refusal and without, on a mode that has no opcode. -/
theorem witness_HandlersFaultOnModesWithoutMeaning_adc_sbc :
    (Mnemonic.adc, handleAdc) ∈ [(Mnemonic.adc, handleAdc), (.sbc, handleSbc)] ∧
    (Mnemonic.sbc, handleSbc) ∈ [(Mnemonic.adc, handleAdc), (.sbc, handleSbc)] ∧
    Operand.accumulator.mode ∉ Mnemonic.modes .adc ∧ (Operand.indirect 0xFFFF).mode ∉ Mnemonic.modes .sbc ∧
    busy.decimalAllowed ∧ ¬ refusing.decimalAllowed :=
  ⟨List.mem_cons_self, List.mem_cons_of_mem _ List.mem_cons_self, by decide, by decide, .inl rfl, by
    simp only [State.decimalAllowed, not_or]; exact ⟨by decide, by decide⟩⟩

end Sys2Proof.Tests
end

