-- ==== Sys2Proof/Proofs/StateFamily.lean ====
section
/-! PROOFS. The family of 10_state.md: the layout of the status register (R27) and the advance of PC (R33). -/

namespace Sys2Proof.Machine

/-! ### The status register -/

/-- At reset every flag is 0 (10_state.md R40). -/
theorem State.flag_reset (f : Flag) : State.reset.flag f = false := by cases f <;> rfl

/-- Settles O7: the clauses about a write of P are the laws of `putFlag` and `forceReserved`. -/
theorem statusRegisterLayoutAndReservedBit : Obligations.StatusRegisterLayoutAndReservedBit := by
  unfold Obligations.StatusRegisterLayoutAndReservedBit
  refine ⟨?layout, ?flagWrite, ?wholeWrite, ?wholeRead, ?atReset⟩
  case layout => exact ⟨rfl, rfl, rfl, rfl, rfl, rfl, rfl⟩
  case flagWrite => exact fun s f g b => ⟨putFlag_reserved f b s.p, s.flag_setFlag f g b⟩
  case wholeWrite => exact fun s v => ⟨rfl, forceReserved_reserved v, s.flag_setStatus v⟩
  case wholeRead => exact fun s => ⟨s.status_reserved, s.getFlag_status⟩
  case atReset => exact ⟨State.reset.status_reserved, State.flag_reset⟩

/-! ### Where PC is after each shared operation of the meanings, if it answers a next state

Each of them ends in `advance`, over updates that keep PC. -/

/-- An advance of a state with the same PC. -/
theorem advance_next_pc {u s t : State} {m : Mode} (h : (.next (u.advance m) : Result) = .next t)
    (hu : u.pc = s.pc) : t.pc = (s.advance m).pc := by
  cases h
  simp [hu]

theorem load_pc {mn : Mnemonic} {r : Reg} {o : Operand} {s t : State} (h : load mn r o s = .next t) :
    t.pc = (s.advance o.mode).pc := by
  obtain ⟨m, -, rfl⟩ := load_next h
  simp

theorem store_pc {mn : Mnemonic} {r : Reg} {o : Operand} {s t : State} (h : store mn r o s = .next t) :
    t.pc = (s.advance o.mode).pc := by
  obtain ⟨ea, -, rfl⟩ := store_next h
  simp

theorem addWithCarry_pc {mn : Mnemonic} {f : Byte → Byte} {op : Byte} {o : Operand} {s t : State}
    (h : addWithCarry mn f op o s = .next t) : t.pc = (s.advance o.mode).pc := by
  obtain ⟨m, -, rfl⟩ := addWithCarry_next h
  simp

theorem logic_pc {mn : Mnemonic} {f : Byte → Byte → Byte} {o : Operand} {s t : State}
    (h : logic mn f o s = .next t) : t.pc = (s.advance o.mode).pc := by
  obtain ⟨m, -, rfl⟩ := logic_next h
  simp

theorem shift_pc {mn : Mnemonic} {out : Byte → Bool} {res : Byte → Bool → Byte} {o : Operand} {s t : State}
    (h : shift mn out res o s = .next t) : t.pc = (s.advance o.mode).pc := by
  rw [shift_next h]
  simp [shifted]

theorem handleBit_pc {o : Operand} {s t : State} (h : handleBit o s = .next t) : t.pc = (s.advance o.mode).pc := by
  obtain ⟨m, -, h⟩ := withValue_next h
  exact advance_next_pc h (by simp)

theorem modifyMemory_pc {mn : Mnemonic} {f : Byte → Byte} {o : Operand} {s t : State}
    (h : modifyMemory mn f o s = .next t) : t.pc = (s.advance o.mode).pc := by
  obtain ⟨ea, -, rfl⟩ := modifyMemory_next h
  simp

theorem compare_pc {mn : Mnemonic} {r : Reg} {o : Operand} {s t : State} (h : compare mn r o s = .next t) :
    t.pc = (s.advance o.mode).pc := by
  obtain ⟨m, -, rfl⟩ := compare_next h
  simp

/-! ### Where PC is after an instruction that transfers no control -/

/-- The mnemonics that set PC themselves: jumps, calls, returns and branches (10_state.md R33). -/
def controlTransfers : List Mnemonic :=
  [.jmp, .jsr, .rts, .brk, .rti, .bcc, .bcs, .beq, .bmi, .bne, .bpl, .bvc, .bvs]

/-- An allowed mode of a mnemonic with the Implied mode alone. -/
theorem mode_eq_implied {mn : Mnemonic} {m : Mode} (ha : mn.allows m = true) (h1 : mn.modes = [.implied]) :
    m = .implied := by
  simpa [Mnemonic.allows, h1] using ha

/-- A handler that transfers no control advances PC past the instruction (10_state.md R33). -/
theorem handle_pc {mn : Mnemonic} {o : Operand} {op : Byte} {s t : State} (ha : mn.allows o.mode = true)
    (hn : mn ∉ controlTransfers) (h : handle mn o op s = .next t) : t.pc = (s.advance o.mode).pc := by
  cases mn with
  | lda | ldx | ldy => exact load_pc h
  | sta | stx | sty => exact store_pc h
  | adc | sbc => exact addWithCarry_pc h
  | and | ora | eor => exact logic_pc h
  | asl | lsr | rol | ror =>
    simp only [handle, handleAsl, handleLsr, handleRol, handleRor] at h
    exact shift_pc h
  | bit => exact handleBit_pc h
  | inc | dec =>
    simp only [handle, handleInc, handleDec] at h
    exact modifyMemory_pc h
  | cmp | cpx | cpy => exact compare_pc h
  | tax | tay | txa | tya | tsx | txs | inx | iny | dex | dey | pha | pla | php | plp | clc | sec | cli | sei | cld | sed
  | clv | nop =>
    rw [mode_eq_implied ha rfl]
    exact advance_next_pc h rfl
  | jmp | jsr | rts | brk | rti | bcc | bcs | beq | bmi | bne | bpl | bvc | bvs => exact absurd (by decide) hn

/-- `advance` is addition mod 65536 (10_state.md R33). -/
theorem State.advance_pc_toNat (s : State) (m : Mode) :
    (s.advance m).pc.toNat = (s.pc.toNat + 1 + m.len) % 65536 := by
  simp [BitVec.toNat_add, Nat.add_assoc]

/-- Settles O58: every instruction is its mnemonic's handler on an allowed mode, and `handle_pc` says where that handler
leaves PC. -/
theorem nonTransferInstructionsAdvancePC : Obligations.NonTransferInstructionsAdvancePC := by
  unfold Obligations.NonTransferInstructionsAdvancePC
  intro i s t hn h
  rw [exec_eq_handle] at h
  calc t.pc.toNat = (s.advance i.mode).pc.toNat := congrArg BitVec.toNat (handle_pc i.allows_mode hn h)
    _ = (s.pc.toNat + 1 + i.mode.len) % 65536 := s.advance_pc_toNat i.mode

end Sys2Proof.Machine
end

