-- ==== Sys2Proof/Proofs/MemoryFamily.lean ====
section
/-! PROOFS. The family of 20_memory.md: a read after a write (R61), the word read (R62), and the bytes of a fetched
instruction (R65). -/

namespace Sys2Proof.Machine

/-! ### Reads, writes and words -/

/-- Settles O3: the two clauses are the laws of a read after a write. -/
theorem readAfterWriteReturnsTheByte : Obligations.ReadAfterWriteReturnsTheByte := by
  unfold Obligations.ReadAfterWriteReturnsTheByte
  exact fun s ad v => ⟨s.read_write_same ad v, fun b hb => s.read_write_ne ad b v hb⟩

/-- The next address, mod 65536 (20_memory.md R62). -/
theorem addr_add_one (ad : Addr) : ad + 1 = BitVec.ofNat 16 ((ad.toNat + 1) % 65536) :=
  BitVec.eq_of_toNat_eq (by simp [BitVec.toNat_add])

/-- Settles O4: the word read joins the bytes at `ad` and `ad + 1`, and `0xFFFF + 1` is `0x0000`. -/
theorem wordReadIsLittleEndianAndWraps : Obligations.WordReadIsLittleEndianAndWraps := by
  unfold Obligations.WordReadIsLittleEndianAndWraps
  refine ⟨fun s ad => ?littleEndian, fun s => ?wraps⟩
  case littleEndian => rw [← addr_add_one, State.readWord, wordOfBytes_toNat]
  case wraps => rfl

/-! ### The decoder on the bytes of an instruction, by the three layouts (30_encoding.md R90) -/

theorem decode_plain {op : Byte} {i : Instr} (h : opcodeRow op = some (.plain i)) (rest : List Byte) :
    decode (op :: rest) = .ok (i, rest) := by
  simp [decode, h]

theorem decode_byte {op : Byte} {f : Byte → Instr} (h : opcodeRow op = some (.byte f)) (b : Byte) (rest : List Byte) :
    decode (op :: b :: rest) = .ok (f b, rest) := by
  simp [decode, h]

theorem decode_word {op : Byte} {f : Addr → Instr} (h : opcodeRow op = some (.word f)) (w : Addr) (rest : List Byte) :
    decode (op :: loByte w :: hiByte w :: rest) = .ok (f w, rest) := by
  simp [decode, h]

/-- The decoder gives an instruction back from its bytes, whatever follows them: the opcode's row builds it from an
operand of the layout's size. Rewriting the opcode to its literal, free of the operand, lets `rfl` evaluate the row. -/
theorem decode_encode_append (i : Instr) (rest : List Byte) : decode (encode i ++ rest) = .ok (i, rest) := by
  cases i with
  | tax | tay | txa | tya | tsx | txs | aslAcc | lsrAcc | rolAcc | rorAcc | inx | iny | dex | dey | rts | pha | pla
  | php | plp | clc | sec | cli | sei | cld | sed | clv | nop | brk | rti =>
    exact decode_plain rfl rest
  | ldaImm | ldaZp | ldaZpX | ldaIndX | ldaIndY | ldxImm | ldxZp | ldxZpY | ldyImm | ldyZp | ldyZpX | staZp | staZpX
  | staIndX | staIndY | stxZp | stxZpY | styZp | styZpX | adcImm | adcZp | adcZpX | adcIndX | adcIndY | sbcImm
  | sbcZp | sbcZpX | sbcIndX | sbcIndY | andImm | andZp | andZpX | andIndX | andIndY | oraImm | oraZp | oraZpX
  | oraIndX | oraIndY | eorImm | eorZp | eorZpX | eorIndX | eorIndY | aslZp | aslZpX | lsrZp | lsrZpX | rolZp | rolZpX
  | rorZp | rorZpX | bitZp | incZp | incZpX | decZp | decZpX | cmpImm | cmpZp | cmpZpX | cmpIndX | cmpIndY | cpxImm
  | cpxZp | cpyImm | cpyZp | bcc | bcs | beq | bmi | bne | bpl | bvc | bvs =>
    exact decode_byte (by rw [Instr.opcode]; rfl) _ rest
  | ldaAbs | ldaAbsX | ldaAbsY | ldxAbs | ldxAbsY | ldyAbs | ldyAbsX | staAbs | staAbsX | staAbsY | stxAbs | styAbs
  | adcAbs | adcAbsX | adcAbsY | sbcAbs | sbcAbsX | sbcAbsY | andAbs | andAbsX | andAbsY | oraAbs | oraAbsX
  | oraAbsY | eorAbs | eorAbsX | eorAbsY | aslAbs | aslAbsX | lsrAbs | lsrAbsX | rolAbs | rolAbsX | rorAbs | rorAbsX
  | bitAbs | incAbs | incAbsX | decAbs | decAbsX | cmpAbs | cmpAbsX | cmpAbsY | cpxAbs | cpyAbs | jmpAbs | jmpInd
  | jsrAbs =>
    exact decode_word (by rw [Instr.opcode]; rfl) _ rest

/-! ### The fetch -/

theorem fetch_of_decode {s : State} {i : Instr} {rest : List Byte} (h : decode (fetchBytes s) = .ok (i, rest)) :
    fetch s = .ok i := by
  simp [fetch, h]

/-- The bytes of a fetched instruction are the first of the three that the fetch looks at (20_memory.md R65). -/
theorem encode_of_fetch {s : State} {i : Instr} (h : fetch s = .ok i) : encode i = (fetchBytes s).take i.length := by
  rw [fetch_eq] at h
  split at h
  case h_1 => cases h
  case h_2 r hr =>
    cases h
    rw [encode_build _ r hr, Instr.length, Nat.add_comm, fetchBytes, List.take_succ_cons]

/-- Settles O12: a fetched instruction's bytes are those fetched, and fetched bytes that begin with an instruction's
bytes decode to it. -/
theorem fetchedInstructionCarriesItsBytes : Obligations.FetchedInstructionCarriesItsBytes := by
  unfold Obligations.FetchedInstructionCarriesItsBytes
  intro s i
  change fetch s = .ok i ↔ (fetchBytes s).take i.length = encode i
  constructor
  · exact fun h => (encode_of_fetch h).symm
  · intro h
    apply fetch_of_decode
    rw [← List.take_append_drop i.length (fetchBytes s), h]
    exact decode_encode_append i _

end Sys2Proof.Machine
end

