-- ==== Sys2Proof/Proofs/EncodingFamily.lean ====
section
/-! PROOFS. The family of 30_encoding.md: operand-byte counts and instruction lengths (R91, R94). -/

namespace Sys2Proof.Machine

/-- The opcode alone tells the mnemonic and the mode (30_encoding.md R94). -/
theorem mnemonic_mode_eq_of_opcode_eq {i j : Instr} (h : i.opcode = j.opcode) :
    i.mnemonic = j.mnemonic ∧ i.mode = j.mode := by
  have hsome : some (i.mnemonic, i.mode) = some (j.mnemonic, j.mode) := by
    rw [← decodeOpcode_opcode i, ← decodeOpcode_opcode j, h]
  exact Prod.mk.inj (Option.some.inj hsome)

/-- Settles O17: the counts are those of `Mode.len`, the length of an encoding is `encode_length`, and the opcode tells the
mode, which tells the length. -/
theorem lengthIsOnePlusOperandBytesOfTheMode : Obligations.LengthIsOnePlusOperandBytesOfTheMode := by
  unfold Obligations.LengthIsOnePlusOperandBytesOfTheMode
  refine ⟨?counts, ?encoding, fun i j h => ?byOpcode⟩
  case counts => decide
  case encoding => exact encode_length
  case byOpcode =>
    obtain ⟨hmnemonic, hmode⟩ := mnemonic_mode_eq_of_opcode_eq h
    exact ⟨hmnemonic, hmode, by rw [Instr.length, Instr.length, hmode]⟩

end Sys2Proof.Machine
end

