-- ==== Sys2Proof/Proofs/FlagFamily.lean ====
section
/-! PROOFS. The family of 40_flag_engine.md: Zero and Negative of one result (R122), the adder routine (R120, R121, R123) and
what the engine leaves unchanged (R125). -/

namespace Sys2Proof.Machine

/-! ### Zero and Negative -/

/-- A byte with bit 7 set is not 0, so one result never sets both Z and N (40_flag_engine.md R122). -/
theorem State.flag_setZN_not_both (s : State) (v : Byte) :
    ¬ ((s.setZN v).flag .z = true ∧ (s.setZN v).flag .n = true) := by
  rw [State.flag_setZN_z, State.flag_setZN_n]
  rintro ⟨hz, hn⟩
  rw [beq_iff_eq.mp hz] at hn
  exact absurd hn (by decide)

/-- `ZN` writes Z and N only (40_flag_engine.md R125). -/
theorem State.changesOnly_setZN (s : State) (v : Byte) : s.changesOnly (s.setZN v) [] [.z, .n] [] :=
  (State.changesOnly_refl s).setZN v

/-- Settles O8: Z is the test for 0 and N the sign bit of the value. -/
theorem zeroAndNegativeComeFromOneResult : Obligations.ZeroAndNegativeComeFromOneResult := by
  unfold Obligations.ZeroAndNegativeComeFromOneResult
  intro s v
  obtain ⟨-, hflags, -⟩ := s.changesOnly_setZN v
  refine ⟨?zero, ?negative, ?bitSeven, s.flag_setZN_not_both v, hflags⟩
  case zero => rw [State.flag_setZN_z, beq_iff_eq]
  case negative => rw [State.flag_setZN_n, BitVec.msb_eq_toInt, decide_eq_true_iff]
  case bitSeven => rw [State.flag_setZN_n, BitVec.msb_eq_getLsbD_last]

/-! ### The adder routine -/

theorem adderResult_toNat (m : Byte) (k : Nat) : (adderResult m k).toNat = (m.toNat + k) % 256 :=
  BitVec.toNat_ofNat _ _

theorem adderResult_eq_zero_iff (m : Byte) (k : Nat) : adderResult m k = 0 ↔ (m.toNat + k) % 256 = 0 := by
  rw [← BitVec.toNat_inj, adderResult_toNat]
  rfl

theorem carryOfSum_iff (sum : Nat) : carryOfSum sum = true ↔ 256 ≤ sum := decide_eq_true_iff

/-- Bit 8 of a sum of 9 bits is the carry (40_flag_engine.md R120). -/
theorem carryOfSum_eq_testBit {sum : Nat} (h : sum < 512) : carryOfSum sum = sum.testBit 8 := by
  rw [carryOfSum, Nat.testBit_eq_decide_div_mod_eq, decide_eq_decide]
  omega

theorem overflowOf_iff (m nv r : Byte) : overflowOf m nv r = true ↔ (m ^^^ r) &&& (nv ^^^ r) &&& 0x80 ≠ 0 :=
  bne_iff_ne

/-- The adder writes C, V, Z and N only (40_flag_engine.md R125). -/
theorem State.changesOnly_setAdderFlags (s : State) (m : Byte) (k : Nat) (nv : Byte) :
    s.changesOnly (s.setAdderFlags m k nv) [] [.c, .v, .z, .n] [] :=
  (State.changesOnly_refl s).setAdderFlags m k nv

/-! ### The operands that each caller gives to the adder routine (40_flag_engine.md R123) -/

/-- ADC and SBC call `AddCore(A, nv + C, nv)`, where `nv` is the operand as `f` transforms it. -/
theorem addWithCarry_calls_adder {mn : Mnemonic} {f : Byte → Byte} {op : Byte} {o : Operand} {s t : State} {m : Byte}
    (hm : operandValue o s = some m) (h : addWithCarry mn f op o s = .next t) :
    t.a = adderResult s.a ((f m).toNat + (s.flag .c).toNat) ∧
      t.p = (s.setAdderFlags s.a ((f m).toNat + (s.flag .c).toNat) (f m)).p := by
  obtain ⟨m', hm', rfl⟩ := addWithCarry_next h
  obtain rfl : m = m' := Option.some.inj (hm.symm.trans hm')
  exact ⟨rfl, by simp [State.carryIn]⟩

/-- A compare calls `AddCore(R, ~M + 1, (~M + 1) mod 256)`. -/
theorem compare_calls_adder {mn : Mnemonic} {r : Reg} {o : Operand} {s t : State} {m : Byte}
    (hm : operandValue o s = some m) (h : compare mn r o s = .next t) :
    t.p = (s.setAdderFlags (s.reg r) ((~~~m).toNat + 1) (BitVec.ofNat 8 (((~~~m).toNat + 1) % 256))).p := by
  obtain ⟨m', hm', rfl⟩ := compare_next h
  obtain rfl : m = m' := Option.some.inj (hm.symm.trans hm')
  have hlow : BitVec.ofNat 8 (negatedOperand m % 256) = BitVec.ofNat 8 (negatedOperand m) :=
    BitVec.eq_of_toNat_eq (by simp)
  rw [← negatedOperand, hlow]
  simp

/-- Settles O9: each flag is the law of `setAdderFlags` for it, and each caller's handler is one of the two shared
operations above. -/
theorem adderRoutineSetsCarryOverflowZeroNegative : Obligations.AdderRoutineSetsCarryOverflowZeroNegative := by
  unfold Obligations.AdderRoutineSetsCarryOverflowZeroNegative
  refine ⟨fun s m k nv hk => ?routine, fun i s t m nv hm h hcaller => ?addSubtract,
    fun i s t m r hm h hcaller => ?compares⟩
  case routine =>
    refine ⟨adderResult_toNat m k, ?carryBit, ?carry, ?overflow, ?zero, ?negative, adderFlags_reserved m k nv s.p,
      s.changesOnly_setAdderFlags m k nv, rfl⟩
    case carryBit =>
      have hsum : m.toNat + k < 512 := by have := m.isLt; omega
      rw [State.flag_setAdderFlags_c, carryOfSum_eq_testBit hsum]
    case carry => rw [State.flag_setAdderFlags_c, carryOfSum_iff]
    case overflow => rw [State.flag_setAdderFlags_v, overflowOf_iff]
    case zero => rw [State.flag_setAdderFlags_z, beq_iff_eq, adderResult_eq_zero_iff]
    case negative => rw [State.flag_setAdderFlags_n, BitVec.msb_eq_getLsbD_last]
  case addSubtract =>
    rw [exec_eq_handle] at h
    simp only [List.mem_cons, List.not_mem_nil, or_false, Prod.mk.injEq] at hcaller
    obtain ⟨hmn, rfl⟩ | ⟨hmn, rfl⟩ := hcaller
    all_goals
      rw [hmn] at h
      exact addWithCarry_calls_adder hm h
  case compares =>
    rw [exec_eq_handle] at h
    simp only [List.mem_cons, List.not_mem_nil, or_false, Prod.mk.injEq] at hcaller
    obtain ⟨hmn, rfl⟩ | ⟨hmn, rfl⟩ | ⟨hmn, rfl⟩ := hcaller
    all_goals
      rw [hmn] at h
      exact compare_calls_adder hm h

end Sys2Proof.Machine
end

