-- ==== Sys2Proof/Proofs/AddressingFamily.lean ====
section
/-! PROOFS. The family of 41_addressing.md: the operand of a fetched instruction (R153) and the effective addresses of the
modes that follow no pointer (R141 to R147, R154). -/

namespace Sys2Proof.Machine

/-! ### The operand bytes that a fetched instruction carries -/

/-- The operand bytes are those from PC + 1 up, read past the point after the opcode read, as many as the mode has. -/
theorem operand_bytes_of_fetch {s : State} {i : Instr} (h : fetch s = .ok i) :
    i.operand.bytes = [s.hostGap.read (s.pc + 1), s.hostGap.read (s.pc + 2)].take i.mode.len := by
  have hencode := encode_of_fetch h
  rw [Instr.length, Nat.add_comm, fetchBytes, List.take_succ_cons, encode] at hencode
  exact (List.cons.inj hencode).2

/-- The only operand byte of a fetched instruction is the byte at PC + 1. -/
theorem operand_byte_of_fetch {s : State} {i : Instr} {b : Byte} (h : fetch s = .ok i) (hb : i.operand.bytes = [b]) :
    b = s.hostGap.read (s.pc + 1) := by
  have hlen : i.mode.len = 1 := by rw [Instr.mode, ← Instr.operand, ← Operand.bytes_length, hb]; rfl
  have hbytes := operand_bytes_of_fetch h
  rw [hlen, hb] at hbytes
  exact (List.cons.inj hbytes).1

/-- Where the handler reads the operand byte, the meaning starts in the state of the fetch (41_addressing.md R142, R143). -/
theorem State.fetched_of_handler_reads (s : State) {i : Instr} (h : resolverReads i.operand.mode = false) :
    s.fetched i = s := by
  rw [Instr.operand] at h
  simp [State.fetched, Instr.mode, h]

/-- Settles O13: Immediate and Relative carry the byte at PC + 1, as the operand read after the opcode finds it; the value
of every other mode is by definition the byte at the effective address. -/
theorem operandIsTheByteAtTheEffectiveAddress : Obligations.OperandIsTheByteAtTheEffectiveAddress := by
  unfold Obligations.OperandIsTheByteAtTheEffectiveAddress
  rintro s _ i hf rfl
  cases ho : i.operand with
  | immediate b | relative b =>
    have hb : b = s.hostGap.read (s.pc + 1) := operand_byte_of_fetch hf (by rw [ho]; rfl)
    rw [s.fetched_of_handler_reads (by rw [ho]; rfl)]
    exact congrArg some hb
  | accumulator | implied | zeroPage | zeroPageXIndex | zeroPageYIndex | preIndexIndirect | postIndexIndirect | absolute
  | absoluteXIndex | absoluteYIndex | indirect => rfl

/-! ### Effective addresses without a pointer -/

/-- A page-zero address is the byte with high byte 0 (41_addressing.md R144). -/
theorem zext16_eq_ofNat (v : Byte) : zext16 v = BitVec.ofNat 16 v.toNat :=
  (BitVec.ofNat_toNat 16 v).symm

/-- Indexing within page zero drops the carry (41_addressing.md R145, R146). -/
theorem zext16_add (v w : Byte) : zext16 (v + w) = BitVec.ofNat 16 ((v.toNat + w.toNat) % 256) := by
  rw [zext16_eq_ofNat, BitVec.toNat_add]

/-- The row of ZeroPageYIndex in 30_encoding.md R96. -/
theorem allows_zeroPageYIndex {mn : Mnemonic} (h : mn.allows .zeroPageYIndex = true) : mn = .ldx ∨ mn = .stx := by
  revert h
  cases mn <;> decide

theorem locate_of_resolve_none {o : Operand} {s : State} (h : resolve o s = none) : locate o s = .acc := by
  simp [locate, h]

theorem locate_of_resolve {o : Operand} {s : State} {ea : Addr} (h : resolve o s = some ea) : locate o s = .mem ea := by
  simp [locate, h]

/-- Settles O10: each address is the resolver's arm for the mode, read as a natural number; LDX and STX are the mnemonics
that allow ZeroPageYIndex, and `locate` follows the resolver. -/
theorem resolverGivesEffectiveAddresses : Obligations.ResolverGivesEffectiveAddresses := by
  unfold Obligations.ResolverGivesEffectiveAddresses
  intro s
  have hnext : some (s.pc + 1) = some (BitVec.ofNat 16 ((s.pc.toNat + 1) % 65536)) := congrArg some (addr_add_one s.pc)
  refine ⟨rfl, rfl, fun _ => hnext, fun _ => hnext, fun zp => ?zeroPage, fun zp => ?xIndexed, fun zp => ?yIndexed,
    fun _ => rfl, fun i hmode => ?yIndexedUse, fun o => ?location⟩
  case zeroPage => exact congrArg some (zext16_eq_ofNat zp)
  case xIndexed => exact congrArg some (zext16_add zp s.x)
  case yIndexed => exact congrArg some (zext16_add zp s.y)
  case yIndexedUse => exact allows_zeroPageYIndex (hmode ▸ i.allows_mode)
  case location => exact ⟨locate_of_resolve_none, fun _ => locate_of_resolve⟩

end Sys2Proof.Machine
end

