-- ==== Sys2Proof/Proofs/DataMovementFamily.lean ====
section
/-! PROOFS. The family of 42_data_movement.md: loads (R170 to R172), stores (R173 to R175) and register transfers with Zero
and Negative (R176 to R179). -/

namespace Sys2Proof.Machine

/-! ### The opcodes of a mnemonic -/

/-- The opcodes in the row of a mnemonic, in the order of its modes (30_encoding.md R96). -/
def mnemonicOpcodes : Mnemonic → List Byte
  | .lda => [0xA9, 0xA5, 0xB5, 0xA1, 0xB1, 0xAD, 0xBD, 0xB9]
  | .ldx => [0xA2, 0xA6, 0xB6, 0xAE, 0xBE]
  | .ldy => [0xA0, 0xA4, 0xB4, 0xAC, 0xBC]
  | .sta => [0x85, 0x95, 0x81, 0x91, 0x8D, 0x9D, 0x99]
  | .stx => [0x86, 0x96, 0x8E]
  | .sty => [0x84, 0x94, 0x8C]
  | .tax => [0xAA] | .tay => [0xA8] | .txa => [0x8A] | .tya => [0x98] | .tsx => [0xBA] | .txs => [0x9A]
  | .adc => [0x69, 0x65, 0x75, 0x61, 0x71, 0x6D, 0x7D, 0x79]
  | .sbc => [0xE9, 0xE5, 0xF5, 0xE1, 0xF1, 0xED, 0xFD, 0xF9]
  | .and => [0x29, 0x25, 0x35, 0x21, 0x31, 0x2D, 0x3D, 0x39]
  | .ora => [0x09, 0x05, 0x15, 0x01, 0x11, 0x0D, 0x1D, 0x19]
  | .eor => [0x49, 0x45, 0x55, 0x41, 0x51, 0x4D, 0x5D, 0x59]
  | .asl => [0x0A, 0x06, 0x16, 0x0E, 0x1E]
  | .lsr => [0x4A, 0x46, 0x56, 0x4E, 0x5E]
  | .rol => [0x2A, 0x26, 0x36, 0x2E, 0x3E]
  | .ror => [0x6A, 0x66, 0x76, 0x6E, 0x7E]
  | .bit => [0x24, 0x2C]
  | .inc => [0xE6, 0xF6, 0xEE, 0xFE]
  | .dec => [0xC6, 0xD6, 0xCE, 0xDE]
  | .inx => [0xE8] | .iny => [0xC8] | .dex => [0xCA] | .dey => [0x88]
  | .cmp => [0xC9, 0xC5, 0xD5, 0xC1, 0xD1, 0xCD, 0xDD, 0xD9]
  | .cpx => [0xE0, 0xE4, 0xEC]
  | .cpy => [0xC0, 0xC4, 0xCC]
  | .jmp => [0x4C, 0x6C]
  | .jsr => [0x20] | .rts => [0x60] | .brk => [0x00] | .rti => [0x40]
  | .bcc => [0x90] | .bcs => [0xB0] | .beq => [0xF0] | .bmi => [0x30]
  | .bne => [0xD0] | .bpl => [0x10] | .bvc => [0x50] | .bvs => [0x70]
  | .pha => [0x48] | .pla => [0x68] | .php => [0x08] | .plp => [0x28]
  | .clc => [0x18] | .sec => [0x38] | .cli => [0x58] | .sei => [0x78]
  | .cld => [0xD8] | .sed => [0xF8] | .clv => [0xB8] | .nop => [0xEA]

/-- Every opcode of a row selects the row's mnemonic, the opcode of each mode selecting that mode. -/
theorem decodeOpcode_mnemonicOpcodes (mn : Mnemonic) :
    (mnemonicOpcodes mn).map decodeOpcode = mn.modes.map fun m => some (mn, m) := by
  cases mn <;> rfl

/-- The opcode of an instruction stands in the row of its mnemonic. -/
theorem opcode_mem_mnemonicOpcodes (i : Instr) : i.opcode ∈ mnemonicOpcodes i.mnemonic := by
  rw [← List.elem_iff]
  cases i <;> rfl

/-- The opcodes of a mnemonic are those of its row (30_encoding.md R93, R96). -/
theorem mnemonic_eq_iff_opcode_mem (mn : Mnemonic) (i : Instr) :
    i.mnemonic = mn ↔ i.opcode ∈ mnemonicOpcodes mn := by
  constructor
  · rintro rfl
    exact opcode_mem_mnemonicOpcodes i
  · intro h
    have hrow : decodeOpcode i.opcode ∈ mn.modes.map fun m => some (mn, m) :=
      decodeOpcode_mnemonicOpcodes mn ▸ List.mem_map_of_mem h
    rw [decodeOpcode_opcode, List.mem_map] at hrow
    obtain ⟨m, -, hm⟩ := hrow
    exact (Prod.mk.inj (Option.some.inj hm)).1.symm

/-! ### A register takes a value, with Zero and Negative from it -/

/-- Negative is bit 7 of the value (40_flag_engine.md R122). -/
theorem State.flag_setZN_n_eq_getLsbD (s : State) (v : Byte) : (s.setZN v).flag .n = v.getLsbD 7 := by
  rw [State.flag_setZN_n, BitVec.msb_eq_getLsbD_last]

/-- What loads and transfers end in: the register takes the value, Z and N come from it, PC advances, and nothing else
changes. -/
theorem State.setReg_setZN_advance (u : State) (r : Reg) (v : Byte) (m : Mode) {t : State}
    (ht : ((u.setReg r v).setZN v).advance m = t) :
    t.reg r = v ∧ t.flag .z = (v == 0) ∧ t.flag .n = v.getLsbD 7 ∧ t.pc = u.pc + BitVec.ofNat 16 (1 + m.len) ∧
      u.changesOnly t [r] [.z, .n] [] := by
  subst ht
  refine ⟨?register, ?zero, ?negative, ?counter, ?frame⟩
  case register => simp
  case zero => simp
  case negative => exact (u.setReg r v).flag_setZN_n_eq_getLsbD v
  case counter => simp
  case frame => exact (((State.changesOnly_refl u).setReg r v).setZN v).advance m

/-! ### Loads -/

/-- A load completes in every mode of its mnemonic; memory is as the other owner leaves it at the operand read. -/
theorem load_completes {mn : Mnemonic} {o : Operand} (r : Reg) (s : State) (ha : mn.allows o.mode = true)
    (hacc : mn.allows .accumulator = false) (himp : mn.allows .implied = false) :
    ∃ m t, operandValue o s = some m ∧ load mn r o s = .next t ∧
      t.reg r = m ∧ t.flag .z = (m == 0) ∧ t.flag .n = m.getLsbD 7 ∧
      t.pc = s.pc + BitVec.ofNat 16 (1 + o.mode.len) ∧ (s.afterRead o).changesOnly t [r] [.z, .n] [] := by
  obtain ⟨m, hm⟩ := operandValue_of_allows s ha hacc himp
  have hend := (s.afterRead o).setReg_setZN_advance r m o.mode rfl
  rw [State.afterRead_pc] at hend
  exact ⟨m, _, hm, load_eq ha hm, hend⟩

/-- Settles O19: each handler is `load` for its register, and its points between primitives are those of the operand
read. -/
theorem loadsWriteRegisterAndZeroNegative : Obligations.LoadsWriteRegisterAndZeroNegative := by
  unfold Obligations.LoadsWriteRegisterAndZeroNegative
  refine ⟨mnemonic_eq_iff_opcode_mem .lda, mnemonic_eq_iff_opcode_mem .ldx, mnemonic_eq_iff_opcode_mem .ldy,
    fun i s r hload => ?_⟩
  have ha := i.allows_mode
  rw [exec_eq_handle, State.interleaved, accesses]
  simp only [List.mem_cons, List.not_mem_nil, or_false, Prod.mk.injEq] at hload
  obtain ⟨hmn, rfl⟩ | ⟨hmn, rfl⟩ | ⟨hmn, rfl⟩ := hload
  all_goals
    rw [hmn] at ha ⊢
    exact load_completes _ s ha rfl rfl

/-! ### Stores -/

/-- A store completes in every mode of its mnemonic; memory is as the other owner leaves it before the write, but for the
byte at the effective address. -/
theorem store_completes {mn : Mnemonic} {o : Operand} (r : Reg) (s : State) (ha : mn.allows o.mode = true)
    (hacc : mn.allows .accumulator = false) (himp : mn.allows .implied = false) :
    ∃ ea t, resolve o s = some ea ∧ store mn r o s = .next t ∧ t.read ea = s.reg r ∧
      t.pc = s.pc + BitVec.ofNat 16 (1 + o.mode.len) ∧ (s.afterPointer o).hostGap.changesOnly t [] [] [ea] := by
  obtain ⟨ea, hea⟩ := resolve_of_allows s ha hacc himp
  refine ⟨ea, _, hea, store_eq ha hea, ?byte, ?counter, ?frame⟩
  case byte => rw [State.read_advance, State.read_write_same]
  case counter => simp
  case frame => exact ((State.changesOnly_refl _).write ea (s.reg r)).advance o.mode

/-- Settles O20: each handler is `store` for its register, and its points between primitives are those of the pointer reads
and the one before the write. -/
theorem storesWriteOneByteAndNoFlag : Obligations.StoresWriteOneByteAndNoFlag := by
  unfold Obligations.StoresWriteOneByteAndNoFlag
  refine ⟨mnemonic_eq_iff_opcode_mem .sta, mnemonic_eq_iff_opcode_mem .stx, mnemonic_eq_iff_opcode_mem .sty,
    fun i s r hstore => ?_⟩
  have ha := i.allows_mode
  rw [exec_eq_handle, State.interleaved, accesses]
  simp only [List.mem_cons, List.not_mem_nil, or_false, Prod.mk.injEq] at hstore
  obtain ⟨hmn, rfl⟩ | ⟨hmn, rfl⟩ | ⟨hmn, rfl⟩ := hstore
  all_goals
    rw [hmn] at ha ⊢
    exact store_completes _ s ha rfl rfl

/-! ### Transfers -/

/-- A transfer completes: the destination takes the source, with Zero and Negative from it. -/
theorem transfer_completes (src dst : Reg) (s : State) :
    ∃ t, transfer src dst s = .next t ∧ t.reg dst = s.reg src ∧ t.flag .z = (s.reg src == 0) ∧
      t.flag .n = (s.reg src).getLsbD 7 ∧ t.pc = s.pc + 1 ∧ s.changesOnly t [dst] [.z, .n] [] :=
  ⟨_, rfl, s.setReg_setZN_advance dst (s.reg src) .implied rfl⟩

/-- Settles O21: each of the four is `transfer` for its registers. -/
theorem transfersCopyRegisterAndSetZeroNegative : Obligations.TransfersCopyRegisterAndSetZeroNegative := by
  unfold Obligations.TransfersCopyRegisterAndSetZeroNegative
  refine ⟨mnemonic_eq_iff_opcode_mem .tax, mnemonic_eq_iff_opcode_mem .tay, mnemonic_eq_iff_opcode_mem .txa,
    mnemonic_eq_iff_opcode_mem .tya, fun i s src dst htransfer => ?_⟩
  simp only [List.mem_cons, List.not_mem_nil, or_false, Prod.mk.injEq] at htransfer
  obtain ⟨rfl, rfl, rfl⟩ | ⟨rfl, rfl, rfl⟩ | ⟨rfl, rfl, rfl⟩ | ⟨rfl, rfl, rfl⟩ := htransfer
  all_goals exact transfer_completes _ _ s

end Sys2Proof.Machine
end

