-- ==== Sys2Proof/Proofs/AluFamily.lean ====
section
/-! PROOFS. The family of 43_alu.md: logic (R202 to R204), shifts and rotates (R205 to R208) and BIT (R209). -/

namespace Sys2Proof.Machine

/-! ### Logic -/

/-- A logic instruction completes in every mode of its mnemonic; memory is as the other owner leaves it at the operand read. -/
theorem logic_completes {mn : Mnemonic} {f : Byte → Byte → Byte} {o : Operand} {s : State} {m : Byte}
    (ha : mn.allows o.mode = true) (hm : operandValue o s = some m) :
    ∃ t, logic mn f o s = .next t ∧ t.a = f s.a m ∧ t.flag .z = (f s.a m == 0) ∧ t.flag .n = (f s.a m).getLsbD 7 ∧
      t.pc = s.pc + BitVec.ofNat 16 (1 + o.mode.len) ∧ (s.afterRead o).changesOnly t [.a] [.z, .n] [] := by
  have hend := (s.afterRead o).setReg_setZN_advance .a (f s.a m) o.mode rfl
  rw [State.afterRead_pc] at hend
  exact ⟨_, logic_eq ha hm, hend⟩

/-- Settles O27: each handler is `logic` for its operator, and its points between primitives are those of the operand read. -/
theorem logicWritesAccumulatorAndZeroNegative : Obligations.LogicWritesAccumulatorAndZeroNegative := by
  unfold Obligations.LogicWritesAccumulatorAndZeroNegative
  refine ⟨mnemonic_eq_iff_opcode_mem .and, mnemonic_eq_iff_opcode_mem .ora, mnemonic_eq_iff_opcode_mem .eor,
    fun i s m hm r hlogic => ?_⟩
  have ha := i.allows_mode
  rw [exec_eq_handle, State.interleaved, accesses]
  simp only [List.mem_cons, List.not_mem_nil, or_false, Prod.mk.injEq] at hlogic
  obtain ⟨hmn, rfl⟩ | ⟨hmn, rfl⟩ | ⟨hmn, rfl⟩ := hlogic
  all_goals
    rw [hmn] at ha ⊢
    exact logic_completes ha hm

/-! ### The location of a shift's operand -/

/-- A location holds what was written to it (43_alu.md section 3). -/
@[simp] theorem State.readLoc_writeLoc_same (s : State) (l : Location) (v : Byte) : (s.writeLoc l v).readLoc l = v := by
  cases l with
  | acc => rfl
  | mem ea => exact s.read_write_same ea v

@[simp] theorem State.readLoc_setZN (s : State) (v : Byte) (l : Location) : (s.setZN v).readLoc l = s.readLoc l := by
  cases l <;> rfl

@[simp] theorem State.readLoc_advance (s : State) (m : Mode) (l : Location) : (s.advance m).readLoc l = s.readLoc l := by
  cases l <;> rfl

@[simp] theorem State.flag_writeLoc (s : State) (l : Location) (v : Byte) (g : Flag) :
    (s.writeLoc l v).flag g = s.flag g :=
  State.flag_congr s _ (s.writeLoc_p l v) g

/-- A mnemonic with no mode that reads a pointer reaches its operand with no point passed (41_addressing.md R155). -/
theorem State.afterPointer_of_allows {mn : Mnemonic} {o : Operand} (s : State) (ha : mn.allows o.mode = true)
    (hind : mn.allows .indirect = false) (hpre : mn.allows .preIndexIndirect = false)
    (hpost : mn.allows .postIndexIndirect = false) : s.afterPointer o = s := by
  cases o with
  | indirect | preIndexIndirect | postIndexIndirect => simp_all [Operand.mode]
  | accumulator | implied | immediate | relative | zeroPage | zeroPageXIndex | zeroPageYIndex | absolute | absoluteXIndex
  | absoluteYIndex => rfl

/-! ### Shifts and rotates -/

/-- With 0 entering, a shift left is the bare one (43_alu.md R205). -/
theorem shiftLeft_false (v : Byte) : shiftLeft v false = v <<< 1 := BitVec.or_zero

/-- With 0 entering, a shift right is the bare one (43_alu.md R206). -/
theorem shiftRight_false (v : Byte) : shiftRight v false = v >>> 1 := BitVec.or_zero

/-- What `shifted` leaves: the location holds the result, C is the bit shifted out, Z and N come from the result, PC advances. -/
theorem shifted_values (out : Byte → Bool) (res : Byte → Bool → Byte) (m : Mode) (l : Location) (u : State) {v r : Byte}
    (hv : u.readLoc l = v) (hr : res v (u.flag .c) = r) {t : State} (ht : shifted out res m l u = t) :
    t.flag .c = out v ∧ t.readLoc l = r ∧ t.flag .z = (r == 0) ∧ t.flag .n = r.getLsbD 7 ∧
      t.pc = u.pc + BitVec.ofNat 16 (1 + m.len) := by
  subst hv hr ht
  refine ⟨?carry, ?result, ?zero, ?negative, ?counter⟩
  case carry => simp [shifted, State.flag_setZN_other]
  case result => simp [shifted]
  case zero => simp [shifted]
  case negative => exact State.flag_setZN_n_eq_getLsbD _ _
  case counter => simp [shifted]

/-- On the accumulator `shifted` changes A and C, Z and N alone. -/
theorem State.changesOnly_shifted_acc (out : Byte → Bool) (res : Byte → Bool → Byte) (m : Mode) (u : State) :
    u.changesOnly (shifted out res m .acc u) [.a] [.c, .z, .n] [] :=
  (((((State.changesOnly_refl u).setFlag .c _).setReg .a _).setZN _).advance m).mono (by simp) (by simp) (by simp)

/-- On memory `shifted` changes the byte and C, Z and N alone, beyond what the other owner changes before the write. -/
theorem State.changesOnly_shifted_mem (out : Byte → Bool) (res : Byte → Bool → Byte) (m : Mode) (ea : Addr) (u : State) :
    u.hostGap.changesOnly (shifted out res m (.mem ea) u) [] [.c, .z, .n] [ea] :=
  (((((State.changesOnly_refl u.hostGap).setFlag .c _).write ea _).setZN _).advance m).mono (by simp) (by simp) (by simp)

/-- The mnemonics of 43_alu.md section 3. -/
def shiftMnemonics : List Mnemonic := [.asl, .lsr, .rol, .ror]

/-- No shift or rotate reads a pointer. -/
theorem State.afterPointer_of_shift {mn : Mnemonic} {o : Operand} (s : State) (hmn : mn ∈ shiftMnemonics)
    (ha : mn.allows o.mode = true) : s.afterPointer o = s := by
  have hmodes : ∀ mn ∈ shiftMnemonics, mn.allows .indirect = false ∧ mn.allows .preIndexIndirect = false ∧
      mn.allows .postIndexIndirect = false := by decide
  obtain ⟨hind, hpre, hpost⟩ := hmodes mn hmn
  exact s.afterPointer_of_allows ha hind hpre hpost

/-- A shift or rotate of memory passes two points, before the read and before the write (20_memory.md R79). -/
theorem State.interleaved_of_shift {i : Instr} {s : State} {ea : Addr} (hmn : i.mnemonic ∈ shiftMnemonics)
    (hl : locate i.operand s = .mem ea) : s.interleaved i = s.hostGap.hostGap := by
  simp only [shiftMnemonics, List.mem_cons, List.not_mem_nil, or_false] at hmn
  rw [State.interleaved, accesses, hl]
  obtain hmn | hmn | hmn | hmn := hmn <;> rw [hmn] <;> rfl

/-- A shift or rotate, whose handler is `shift` for `out` and `res`, completes in every mode of its mnemonic. -/
theorem shift_completes {i : Instr} {mn : Mnemonic} {s : State} {l : Location} {v r : Byte} (out : Byte → Bool)
    (res : Byte → Bool → Byte) (hi : i.mnemonic = mn) (hmn : mn ∈ shiftMnemonics)
    (hhandle : handle mn i.operand i.opcode s = shift mn out res i.operand s) (hl : locate i.operand s = l)
    (hv : (s.gapAt l).readLoc l = v) (hr : res v (s.flag .c) = r) :
    ∃ t, exec i s = .next t ∧ t.flag .c = out v ∧ t.readLoc l = r ∧ t.flag .z = (r == 0) ∧ t.flag .n = r.getLsbD 7 ∧
      t.pc = s.pc + BitVec.ofNat 16 i.length ∧ (l = .acc → s.changesOnly t [.a] [.c, .z, .n] []) ∧
      (∀ ea, l = .mem ea → (s.interleaved i).changesOnly t [] [.c, .z, .n] [ea]) := by
  subst hi
  have hflag : (s.gapAt l).flag .c = s.flag .c := State.flag_congr s _ (s.gapAt_p l) .c
  obtain ⟨hc, hloc, hz, hn, hpc⟩ := shifted_values out res i.mode l (s.gapAt l) hv (hflag ▸ hr) rfl
  have hnext : exec i s = .next (shifted out res i.mode l (s.gapAt l)) := by
    rw [exec_eq_handle, hhandle, shift_eq i.allows_mode, s.afterPointer_of_shift hmn i.allows_mode, hl]
    rfl
  refine ⟨_, hnext, hc, hloc, hz, hn, s.gapAt_pc l ▸ hpc, ?accumulator, ?memory⟩
  case accumulator =>
    rintro rfl
    exact State.changesOnly_shifted_acc out res i.mode s
  case memory =>
    rintro ea rfl
    rw [State.interleaved_of_shift hmn hl]
    exact State.changesOnly_shifted_mem out res i.mode ea s.hostGap

/-- Settles O28: each handler is `shift` for its two functions of the old value and the old carry. -/
theorem shiftsAndRotatesMoveOneBitThroughCarry : Obligations.ShiftsAndRotatesMoveOneBitThroughCarry := by
  unfold Obligations.ShiftsAndRotatesMoveOneBitThroughCarry
  refine ⟨mnemonic_eq_iff_opcode_mem .asl, mnemonic_eq_iff_opcode_mem .lsr, mnemonic_eq_iff_opcode_mem .rol,
    mnemonic_eq_iff_opcode_mem .ror, fun i s l v r c0 c7 out hl hv hc0 hc7 hshift => ?_⟩
  subst hc0 hc7
  simp only [List.mem_cons, List.not_mem_nil, or_false, Prod.mk.injEq] at hshift
  obtain ⟨hmn, rfl, rfl⟩ | ⟨hmn, rfl, rfl⟩ | ⟨hmn, rfl, rfl⟩ | ⟨hmn, rfl, rfl⟩ := hshift
  · exact shift_completes (·.getLsbD 7) (fun v _ => shiftLeft v false) hmn (by decide) rfl hl hv (shiftLeft_false v)
  · exact shift_completes (·.getLsbD 0) (fun v _ => shiftRight v false) hmn (by decide) rfl hl hv (shiftRight_false v)
  · exact shift_completes (·.getLsbD 7) shiftLeft hmn (by decide) rfl hl hv rfl
  · exact shift_completes (·.getLsbD 0) shiftRight hmn (by decide) rfl hl hv rfl

/-! ### BIT -/

theorem handleBit_eq {o : Operand} {s : State} {m : Byte} (ha : Mnemonic.bit.allows o.mode = true)
    (hm : operandValue o s = some m) :
    handleBit o s =
      .next (((((s.afterRead o).setFlag .z (s.a &&& m == 0)).setFlag .n (m.getLsbD 7)).setFlag .v (m.getLsbD 6)).advance
        o.mode) :=
  withValue_eq ha hm

/-- Settles O29: BIT has an operand in every mode, and its points between primitives are those of the operand read. -/
theorem bitCopiesMemoryBitsToNegativeAndOverflow : Obligations.BitCopiesMemoryBitsToNegativeAndOverflow := by
  unfold Obligations.BitCopiesMemoryBitsToNegativeAndOverflow
  refine ⟨mnemonic_eq_iff_opcode_mem .bit, fun i s hmn => ?_⟩
  have ha := i.allows_mode
  rw [exec_eq_handle, State.interleaved, accesses]
  rw [hmn] at ha ⊢
  obtain ⟨m, hm⟩ := operandValue_of_allows s ha rfl rfl
  refine ⟨m, _, hm, handleBit_eq ha hm, ?zero, ?negative, ?overflow, ?counter, ?frame⟩
  case zero => simp [State.flag_setFlag]
  case negative => simp [State.flag_setFlag]
  case overflow => simp
  case counter => simp [Instr.length, Instr.mode, Instr.operand]
  case frame =>
    exact (((((State.changesOnly_refl (s.afterRead i.operand)).setFlag .z _).setFlag .n _).setFlag .v _).advance _).mono
      (by simp) (by simp) (by simp)

end Sys2Proof.Machine
end

