-- ==== Sys2Proof/Proofs/ControlFlowFamily.lean ====
section
/-! PROOFS. The family of 44_control_flow.md: JMP (R244) and RTS (R246). -/

namespace Sys2Proof.Machine

/-! ### JMP -/

/-- An address is asked for in an allowed mode only (30_encoding.md R98, 41_addressing.md R156). -/
theorem withAddress_not_allowed {mn : Mnemonic} {o : Operand} (s : State) (k : Addr → Result)
    (h : mn.allows o.mode = false) : withAddress mn o s k = .fault (.invalidAddressingMode mn o.mode) := by
  simp [withAddress, invalidMode, h]

theorem handleJmp_eq {o : Operand} {s : State} {ea : Addr} (ha : Mnemonic.jmp.allows o.mode = true)
    (hea : resolve o s = some ea) : handleJmp o s = .next ((s.afterPointer o).setPC ea) :=
  withAddress_eq ha hea

/-- The row of JMP in 30_encoding.md R96. -/
theorem jmp_not_allows {m : Mode} (habs : m ≠ .absolute) (hind : m ≠ .indirect) : Mnemonic.jmp.allows m = false := by
  simp [Mnemonic.allows, Mnemonic.modes, habs, hind]

/-- Settles O33: JMP goes to the address that the resolver gives, past the one pointer read of Indirect and no read of
Absolute; these two modes are the whole row of JMP. -/
theorem jmpSetsPCToTheEffectiveAddress : Obligations.JmpSetsPCToTheEffectiveAddress := by
  unfold Obligations.JmpSetsPCToTheEffectiveAddress
  refine ⟨mnemonic_eq_iff_opcode_mem .jmp, fun s w => ?absolute, fun s w => ?indirect, fun s o habs hind => ?otherMode⟩
  case absolute =>
    have hea : resolve (.absolute w) s = some w := rfl
    exact handleJmp_eq rfl hea
  case indirect =>
    have hea : resolve (.indirect w) s = some (s.hostGap.readWord w) := rfl
    exact handleJmp_eq rfl hea
  case otherMode => exact withAddress_not_allowed s _ (jmp_not_allows habs hind)

/-! ### RTS -/

/-- Two steps of S are one of 2, mod 256 (45_stack.md R271). -/
theorem byte_add_one_add_one (v : Byte) : v + 1 + 1 = v + 2 := BitVec.add_assoc v 1 1

/-- The point between two pops commutes with the first, so two pops raise S by 2 beyond what the other owner does
(45_stack.md R271, 20_memory.md R68). -/
theorem State.poppedWord_eq (s : State) : s.poppedWord = { s.hostGap with sp := s.sp + 2 } := by
  rw [← byte_add_one_add_one]
  rfl

/-- The low byte is read where the first pop finds it, the high byte one point later and one stack byte up. -/
theorem State.popWordValue_eq (s : State) :
    s.popWordValue = wordOfBytes (s.read (stackAddr (s.sp + 1))) (s.hostGap.read (stackAddr (s.sp + 2))) := by
  rw [← byte_add_one_add_one]
  rfl

/-- Settles O35: RTS pops a word past the point before the first pop, and goes to that word plus 1. -/
theorem rtsReturnsToPoppedAddressPlusOne : Obligations.RtsReturnsToPoppedAddressPlusOne := by
  unfold Obligations.RtsReturnsToPoppedAddressPlusOne
  refine ⟨fun i => (mnemonic_eq_iff_opcode_mem .rts i).trans List.mem_singleton, fun s => ?_⟩
  have hexec : exec .rts s = .next (s.hostGap.poppedWord.setPC (s.hostGap.popWordValue + 1)) := rfl
  rw [hexec, State.poppedWord_eq, State.popWordValue_eq]
  rfl

end Sys2Proof.Machine
end

