-- ==== Sys2Proof/Proofs/StackFamily.lean ====
section
/-! PROOFS. The family of 45_stack.md: push and pop (R270 to R272), PHA and PHP (R273, R275), PLP (R276). -/

namespace Sys2Proof.Machine

/-! ### Push and pop -/

/-- S falls by 1 mod 256 (45_stack.md R270). -/
theorem State.push_sp_toNat (s : State) (v : Byte) : (s.push v).sp.toNat = (s.sp.toNat + 255) % 256 := by
  rw [State.push_sp, BitVec.toNat_sub, Nat.add_comm]
  rfl

/-- S rises by 1 mod 256 (45_stack.md R271). -/
theorem State.popped_sp_toNat (s : State) : s.popped.sp.toNat = (s.sp.toNat + 1) % 256 :=
  BitVec.toNat_add s.sp 1

/-- Settles O38: the frames of a push and of a pop, the place of the stack page, and the pop after a push. -/
theorem pushAndPopMoveOneByteWithinPageOne : Obligations.PushAndPopMoveOneByteWithinPageOne := by
  unfold Obligations.PushAndPopMoveOneByteWithinPageOne
  refine ⟨fun sp => ⟨rfl, stackAddr_toNat sp⟩, fun s v => ?push, fun s => ?pop, fun s v => ?popAfterPush⟩
  case push =>
    exact ⟨s.push_sp_toNat v, s.read_push_same v, s.push_pc v, (State.changesOnly_refl s).push v⟩
  case pop =>
    exact ⟨s.popped_sp_toNat, rfl, s.popped_pc, (State.changesOnly_refl s).popped⟩
  case popAfterPush =>
    refine ⟨s.popValue_push v, ?_⟩
    rw [State.popped_sp, State.push_sp, BitVec.sub_add_cancel]

/-! ### PHA and PHP -/

/-- What PHA and PHP end in: the byte at `0x0100 | S`, S lowered, PC past the one byte, and the frame against the state `u`
that the other owner leaves before the push (20_memory.md R68). -/
theorem State.push_advance (u : State) (v : Byte) {t : State} (ht : (u.push v).advance .implied = t) :
    t.read (stackAddr u.sp) = v ∧ t.sp = u.sp - 1 ∧ t.pc = u.pc + 1 ∧
      u.changesOnly t [.s] [] [stackAddr u.sp] := by
  subst ht
  refine ⟨?byte, ?pointer, ?counter, ?frame⟩
  case byte => rw [State.read_advance, State.read_push_same]
  case pointer => rw [State.advance_sp, State.push_sp]
  case counter => rw [State.advance_pc, State.push_pc]; rfl
  case frame => exact ((State.changesOnly_refl u).push v).advance .implied

/-- Settles O39: both push past the one point before their write, PHA the accumulator and PHP the status byte, whose bits
are the flags and the reserved 1. -/
theorem pushInstructionsStoreOneStackByte : Obligations.PushInstructionsStoreOneStackByte := by
  unfold Obligations.PushInstructionsStoreOneStackByte
  refine ⟨fun i => (mnemonic_eq_iff_opcode_mem .pha i).trans List.mem_singleton,
    fun i => (mnemonic_eq_iff_opcode_mem .php i).trans List.mem_singleton, fun s => ?pha, fun s => ?php⟩
  case pha => exact ⟨_, rfl, s.hostGap.push_advance s.a rfl⟩
  case php =>
    obtain ⟨hbyte, hpointer, hcounter, hframe⟩ := s.hostGap.push_advance s.status rfl
    rw [State.hostGap_sp] at hbyte
    refine ⟨_, rfl, ?reserved, fun f => ?flag, hpointer, hcounter, hframe⟩
    case reserved => rw [hbyte, State.status_reserved]
    case flag =>
      rw [hbyte]
      exact s.getFlag_status f

/-! ### PLP -/

/-- Settles O40: past the one point before the pop, P is the byte popped with the reserved bit forced, which is no flag's
bit. -/
theorem plpRestoresEveryFlagAndForcesBitFive : Obligations.PlpRestoresEveryFlagAndForcesBitFive := by
  unfold Obligations.PlpRestoresEveryFlagAndForcesBitFive
  refine ⟨fun i => (mnemonic_eq_iff_opcode_mem .plp i).trans List.mem_singleton,
    fun s => ⟨_, rfl, fun f => ?flag, ?reserved, rfl, rfl, rfl, ?frame⟩⟩
  case flag => exact getFlag_forceReserved f s.hostGap.popValue
  case reserved => exact forceReserved_reserved s.hostGap.popValue
  case frame => exact ((State.changesOnly_refl s.hostGap).popped.setStatus _).advance .implied

end Sys2Proof.Machine
end

