-- ==== Sys2Proof/Proofs/ResetFamily.lean ====
section
/-! PROOFS. The family of 70_reset_and_hazards.md: boot (R361). -/

namespace Sys2Proof.Machine

/-- Of two jumps in a row the last one counts. -/
@[simp] theorem State.setPC_setPC (s : State) (v w : Addr) : (s.setPC v).setPC w = s.setPC w := rfl

@[simp] theorem State.readWord_setPC (s : State) (w ad : Addr) : (s.setPC w).readWord ad = s.readWord ad := by
  simp only [State.readWord, State.read_setPC]

/-- The reset vector is the bytes at 0xFFFC and 0xFFFD, the low byte first (70_reset_and_hazards.md R361). -/
theorem State.readWord_resetVector (s : State) :
    s.readWord resetVector = wordOfBytes (s.read 0xFFFC) (s.read 0xFFFD) := by
  have hnext : resetVector + 1 = 0xFFFD := by decide
  rw [State.readWord, hnext, resetVector]

/-- Boot of a running core jumps through the reset vector: the default that PC takes first is overwritten, and the vector
is read as before (70_reset_and_hazards.md R361, R363). -/
theorem boot_of_running {s : State} (hs : s.halted = none) : boot s = .next (s.setPC (s.readWord resetVector)) := by
  simp only [boot, hs, State.readWord_setPC, State.setPC_setPC]

/-- Settles O2: boot jumps through the reset vector, and a jump replaces PC alone. -/
theorem bootLoadsPCFromResetVector : Obligations.BootLoadsPCFromResetVector := by
  unfold Obligations.BootLoadsPCFromResetVector
  intro s hs
  rw [boot_of_running hs, State.readWord_resetVector, State.setPC]

end Sys2Proof.Machine
end

/-! PROOFS. The statements about the model as a whole: decoding and encoding, memory and the invariant, what completes and
what faults, the values and frames of the remaining instructions, the Step, and what no instruction sees or changes. -/

namespace Sys2Proof.Machine

/-! ### Decoding and encoding (30_encoding.md R90 to R97) -/

/-- Settles O15: the earlier law of the decoder on an encoding followed by any bytes. -/
theorem decodeOfEncodeIsTheInstruction : Obligations.DecodeOfEncodeIsTheInstruction := by
  unfold Obligations.DecodeOfEncodeIsTheInstruction
  exact decode_encode_append

/-- How many operand bytes the layout of a row takes (30_encoding.md R90). -/
def rowOperandBytes : Row → Nat
  | .plain _ => 0
  | .byte _ => 1
  | .word _ => 2

/-- The layout of a row of the opcode map takes as many bytes as the mode of what it builds counts (30_encoding.md R91). -/
theorem len_build {op : Byte} {r : Row} (h : opcodeRow op = some r) (b1 b2 : Byte) :
    (r.build b1 b2).mode.len = rowOperandBytes r := by
  obtain ⟨n, rfl⟩ : ∃ n : Fin 256, op = BitVec.ofFin n := ⟨op.toFin, rfl⟩
  fin_cases n <;> cases h <;> rfl

/-- What a row builds encodes to the opcode and the bytes of the row's layout. -/
theorem encode_build_layout {op : Byte} {r : Row} (h : opcodeRow op = some r) (b1 b2 : Byte) :
    encode (r.build b1 b2) = op :: [b1, b2].take (rowOperandBytes r) := by
  rw [encode_build op r h, len_build h]

/-- Settles O16: the decoder answers by the opcode's row, and what the row builds encodes to the opcode and the bytes that
the decoder took. -/
theorem decodedBytesAreTheEncoding : Obligations.DecodedBytesAreTheEncoding := by
  unfold Obligations.DecodedBytesAreTheEncoding
  intro bs i rest h
  unfold decode at h
  split at h
  case h_1 => cases h
  case h_2 op tail =>
    split at h
    case h_1 => cases h
    case h_2 hrow =>
      cases h
      exact congrArg (· ++ rest) (encode_build_layout hrow 0 0).symm
    case h_3 f b tail hrow =>
      cases h
      exact congrArg (· ++ rest) (encode_build_layout hrow b 0).symm
    case h_4 f lo hi tail hrow =>
      cases h
      exact congrArg (· ++ rest) (encode_build_layout hrow lo hi).symm
    case h_5 => cases h

/-- The bytes that row `row` of the opcode map leaves undefined. -/
def undefinedInRow (row : Nat) : List Byte :=
  ((List.range 16).map fun column => BitVec.ofNat 8 (16 * row + column)).filter fun op => (opcodeRow op).isNone

/-- The list of R97 is that of the bytes with no entry in the opcode map, row by row. -/
theorem undefinedOpcodes_eq_flatMap : undefinedOpcodes = (List.range 16).flatMap undefinedInRow := by
  rfl

/-- The opcode map has no entry exactly for the listed opcodes (30_encoding.md R97). -/
theorem opcodeRow_eq_none_iff (op : Byte) : opcodeRow op = none ↔ op ∈ undefinedOpcodes := by
  simp only [undefinedOpcodes_eq_flatMap, undefinedInRow, List.mem_flatMap, List.mem_filter, List.mem_map, List.mem_range,
    Option.isNone_iff_eq_none]
  have hrow : op.toNat / 16 < 16 := by have := op.isLt; omega
  have hcell : BitVec.ofNat 8 (16 * (op.toNat / 16) + op.toNat % 16) = op := by
    rw [Nat.div_add_mod, BitVec.ofNat_toNat, BitVec.setWidth_eq]
  exact ⟨fun h => ⟨_, hrow, ⟨_, Nat.mod_lt _ (by decide), hcell⟩, h⟩, fun ⟨_, _, _, h⟩ => h⟩

/-- An opcode with a row is the opcode of whatever the row builds. -/
theorem opcode_build {op : Byte} {r : Row} (h : opcodeRow op = some r) (b1 b2 : Byte) :
    (r.build b1 b2).opcode = op := by
  have hencode := encode_build op r h b1 b2
  rw [encode] at hencode
  exact (List.cons.inj hencode).1

/-- The opcode of an instruction has a row. -/
theorem opcodeRow_opcode_ne_none (i : Instr) : opcodeRow i.opcode ≠ none := by
  intro h
  have hdecode := decodeOpcode_opcode i
  rw [decodeOpcode, h] at hdecode
  cases hdecode

/-- Settles O18: both clauses say that the opcode map has no row for the byte. -/
theorem undefinedOpcodesAreTheListed105 : Obligations.UndefinedOpcodesAreTheListed105 := by
  unfold Obligations.UndefinedOpcodesAreTheListed105
  intro op
  rw [← opcodeRow_eq_none_iff]
  refine ⟨⟨fun h => ?refusedHasNoRow, fun h rest => decode_undefined op rest h⟩, ⟨?opcodeHasRow, fun h => ?rowHasInstr⟩⟩
  case refusedHasNoRow =>
    have hthree := (decode_three op 0 0).symm.trans (h [0, 0])
    rcases hrow : opcodeRow op with _ | ⟨_ | _ | _⟩
    · rfl
    all_goals
      rw [hrow] at hthree
      cases hthree
  case opcodeHasRow =>
    rintro ⟨i, rfl⟩
    exact opcodeRow_opcode_ne_none i
  case rowHasInstr =>
    obtain ⟨r, hr⟩ := Option.ne_none_iff_exists'.mp h
    exact ⟨r.build 0 0, opcode_build hr 0 0⟩

/-- Settles O14: each word is a literal, on which the decoder evaluates. -/
theorem sampleWordsDecodeToTheirInstructions : Obligations.SampleWordsDecodeToTheirInstructions := by
  unfold Obligations.SampleWordsDecodeToTheirInstructions
  decide

/-! ### Memory by its reads, and the host's load (20_memory.md R60, R61, R72) -/

/-- Settles O5: every address in the 64 KiB is asked for, and beyond it canonical memories read as unlisted. -/
theorem canonicalMemoryIsDeterminedByReads : Obligations.CanonicalMemoryIsDeterminedByReads := by
  unfold Obligations.CanonicalMemoryIsDeterminedByReads
  refine ⟨State.write_wf, fun s t hs ht hread => Memory.ext_of_read s.mem t.mem 0 hs ht fun n => ?_⟩
  by_cases hn : n < 65536
  · have hword := hread (BitVec.ofNat 16 n)
    rwa [State.read, State.read, BitVec.toNat_ofNat, Nat.mod_eq_of_lt hn] at hword
  · rw [Memory.read_above s.mem 0 n hs (by omega), Memory.read_above t.mem 0 n ht (by omega)]

/-- What writing consecutive bytes does to every read: the distance from the first address, mod 65536, picks the byte. -/
theorem State.read_writeBytes (s : State) (start ad : Addr) (bs : List Byte) (hlen : bs.length ≤ 65536) :
    (s.writeBytes start bs).read ad = bs[(ad - start).toNat]?.getD (s.read ad) := by
  induction bs generalizing s start with
  | nil => rfl
  | cons v vs ih =>
    rw [List.length_cons] at hlen
    rw [State.writeBytes, ih _ _ (by omega)]
    by_cases had : ad = start
    · subst had
      have hfar : vs[(ad - (ad + 1)).toNat]? = none := List.getElem?_eq_none (by bv_omega)
      rw [hfar, Option.getD_none, State.read_write_same, BitVec.sub_self]
      rfl
    · have hstep : (ad - start).toNat = (ad - (start + 1)).toNat + 1 := by bv_omega
      rw [State.read_write_ne s start ad v had, hstep, List.getElem?_cons_succ]

/-- Settles O6: the bytes of an image that fits are the distances below its length, and no other address is that near. -/
theorem loadPlacesImageOrIsRefused : Obligations.LoadPlacesImageOrIsRefused := by
  unfold Obligations.LoadPlacesImageOrIsRefused
  intro s o bs
  refine ⟨fun hfit => ⟨_, if_pos hfit, s.writeBytes_mem _ bs, fun k hk => ?placed, fun ad had => ?kept⟩,
    fun hbig => if_neg (by omega)⟩
  case placed =>
    have hdist : (BitVec.ofNat 16 (o + k) - BitVec.ofNat 16 o).toNat = k := by
      simp only [BitVec.toNat_sub, BitVec.toNat_ofNat]
      omega
    rw [State.read_writeBytes s _ _ bs (by omega), hdist, List.getElem?_eq_getElem hk]
    rfl
  case kept =>
    have hdist : bs.length ≤ (ad - BitVec.ofNat 16 o).toNat := by
      have := ad.isLt
      simp only [BitVec.toNat_sub, BitVec.toNat_ofNat]
      omega
    rw [State.read_writeBytes s _ _ bs (by omega), List.getElem?_eq_none hdist]
    rfl

/-! ### The invariant of every run: each update of State keeps it (20_memory.md R60, 10_state.md R27) -/

/-- A state with the same memory and P has the invariant. -/
theorem State.Inv.congr {s t : State} (h : s.Inv) (hm : t.mem = s.mem) (hp : t.p = s.p) : t.Inv :=
  ⟨hm ▸ h.memory, by rw [State.reservedBitSet, hp]; exact h.reserved⟩

theorem State.Inv.setPC {s : State} (h : s.Inv) (w : Addr) : (s.setPC w).Inv := h.congr rfl rfl

theorem State.Inv.advance {s : State} (h : s.Inv) (m : Mode) : (s.advance m).Inv := h.setPC _

theorem State.Inv.setReg {s : State} (h : s.Inv) (r : Reg) (v : Byte) : (s.setReg r v).Inv :=
  h.congr (s.setReg_mem r v) (s.setReg_p r v)

theorem State.Inv.passBoundary {s : State} (h : s.Inv) : s.passBoundary.Inv := h.congr rfl rfl

theorem State.Inv.setFlag {s : State} (h : s.Inv) (f : Flag) (b : Bool) : (s.setFlag f b).Inv :=
  ⟨h.memory, putFlag_reserved f b s.p⟩

theorem State.Inv.setZN {s : State} (h : s.Inv) (v : Byte) : (s.setZN v).Inv := ⟨h.memory, putZN_reserved v s.p⟩

theorem State.Inv.setAdderFlags {s : State} (h : s.Inv) (m : Byte) (k : Nat) (nv : Byte) :
    (s.setAdderFlags m k nv).Inv :=
  ⟨h.memory, adderFlags_reserved m k nv s.p⟩

theorem State.Inv.setStatus {s : State} (h : s.Inv) (v : Byte) : (s.setStatus v).Inv :=
  ⟨h.memory, forceReserved_reserved v⟩

theorem State.Inv.write {s : State} (h : s.Inv) (ad : Addr) (v : Byte) : (s.write ad v).Inv :=
  ⟨s.write_wf ad v h.memory, h.reserved⟩

theorem State.Inv.push {s : State} (h : s.Inv) (v : Byte) : (s.push v).Inv := (h.write _ v).setReg .s _

theorem State.Inv.popped {s : State} (h : s.Inv) : s.popped.Inv := h.setReg .s _

theorem State.Inv.hostGap {s : State} (h : s.Inv) : s.hostGap.Inv := ⟨s.hostGap_wf h.memory, h.reserved⟩

theorem State.Inv.hostGaps {s : State} (h : s.Inv) (n : Nat) : (s.hostGaps n).Inv := by
  induction n with
  | zero => exact h
  | succ n ih => exact ih.hostGap

theorem State.Inv.gapAt {s : State} (h : s.Inv) (l : Location) : (s.gapAt l).Inv := by
  cases l with
  | acc => exact h
  | mem ea => exact h.hostGap

theorem State.Inv.writeLoc {s : State} (h : s.Inv) (l : Location) (v : Byte) : (s.writeLoc l v).Inv := by
  cases l with
  | acc => exact h.setReg .a v
  | mem ea => exact h.write ea v

theorem State.Inv.pushWord {s : State} (h : s.Inv) (w : Addr) : (s.pushWord w).Inv := (h.push _).hostGap.push _

theorem State.Inv.poppedWord {s : State} (h : s.Inv) : s.poppedWord.Inv := h.popped.hostGap.popped

theorem State.Inv.interruptEntry {s : State} (h : s.Inv) (ret : Addr) (b : Bool) : (s.interruptEntry ret b).Inv :=
  ((((h.pushWord ret).setFlag .b b).hostGap.push _).setFlag .i true).hostGap.setPC _

theorem State.Inv.returnFromInterrupt {s : State} (h : s.Inv) : s.returnFromInterrupt.Inv :=
  (h.popped.setStatus _).hostGap.poppedWord.setPC _

theorem State.Inv.fetched {s : State} (h : s.Inv) (i : Instr) : (s.fetched i).Inv := by
  rw [State.fetched]
  split
  · exact h.hostGap
  · exact h

/-! ### The shared operations of the meanings keep the invariant -/

section
variable {s t : State} (hs : s.Inv)
include hs

theorem load_inv {mn : Mnemonic} {r : Reg} {o : Operand} (h : load mn r o s = .next t) : t.Inv := by
  obtain ⟨m, -, rfl⟩ := load_next h
  exact (((hs.hostGaps _).setReg r m).setZN m).advance _

theorem store_inv {mn : Mnemonic} {r : Reg} {o : Operand} (h : store mn r o s = .next t) : t.Inv := by
  obtain ⟨ea, -, rfl⟩ := store_next h
  exact ((hs.hostGaps _).hostGap.write ea _).advance _

theorem addWithCarry_inv {mn : Mnemonic} {f : Byte → Byte} {op : Byte} {o : Operand}
    (h : addWithCarry mn f op o s = .next t) : t.Inv := by
  obtain ⟨m, -, rfl⟩ := addWithCarry_next h
  exact (((hs.hostGaps _).setAdderFlags _ _ _).setReg .a _).advance _

theorem logic_inv {mn : Mnemonic} {f : Byte → Byte → Byte} {o : Operand} (h : logic mn f o s = .next t) : t.Inv := by
  obtain ⟨m, -, rfl⟩ := logic_next h
  exact (((hs.hostGaps _).setReg .a _).setZN _).advance _

theorem shift_inv {mn : Mnemonic} {out : Byte → Bool} {res : Byte → Bool → Byte} {o : Operand}
    (h : shift mn out res o s = .next t) : t.Inv := by
  rw [shift_next h]
  exact ((((((hs.hostGaps _).gapAt _).gapAt _).setFlag .c _).writeLoc _ _).setZN _).advance _

theorem handleBit_inv {o : Operand} (h : handleBit o s = .next t) : t.Inv := by
  obtain ⟨m, -, h⟩ := withValue_next h
  cases h
  exact ((((hs.hostGaps _).setFlag .z _).setFlag .n _).setFlag .v _).advance _

theorem modifyMemory_inv {mn : Mnemonic} {f : Byte → Byte} {o : Operand} (h : modifyMemory mn f o s = .next t) :
    t.Inv := by
  obtain ⟨ea, -, rfl⟩ := modifyMemory_next h
  exact (((hs.hostGaps _).hostGap.hostGap.write ea _).setZN _).advance _

theorem compare_inv {mn : Mnemonic} {r : Reg} {o : Operand} (h : compare mn r o s = .next t) : t.Inv := by
  obtain ⟨m, -, rfl⟩ := compare_next h
  exact ((hs.hostGaps _).setAdderFlags _ _ _).advance _

theorem branch_inv {f : Flag} {want : Bool} {d : Byte} (h : branch f want d s = .next t) : t.Inv := by
  rw [branch_eq] at h
  split at h <;> cases h
  · exact hs.hostGap.setPC _
  · exact hs.setPC _

theorem handleJmp_inv {o : Operand} (h : handleJmp o s = .next t) : t.Inv := by
  obtain ⟨ea, -, h⟩ := withAddress_next h
  cases h
  exact (hs.hostGaps _).setPC ea

theorem handleJsr_inv {o : Operand} (h : handleJsr o s = .next t) : t.Inv := by
  obtain ⟨target, -, h⟩ := withAddress_next h
  cases h
  exact ((hs.hostGaps _).hostGap.pushWord _).setPC target

/-- A transfer or a count of a register. -/
theorem setReg_setZN_advance_inv (r : Reg) (v : Byte) (m : Mode) : (((s.setReg r v).setZN v).advance m).Inv :=
  ((hs.setReg r v).setZN v).advance m

/-- Every handler keeps the invariant, on any operand. -/
theorem handle_inv {mn : Mnemonic} {o : Operand} {op : Byte} (h : handle mn o op s = .next t) : t.Inv := by
  cases mn with
  | lda | ldx | ldy => exact load_inv hs h
  | sta | stx | sty => exact store_inv hs h
  | adc | sbc => exact addWithCarry_inv hs h
  | and | ora | eor => exact logic_inv hs h
  | asl | lsr | rol | ror =>
    simp only [handle, handleAsl, handleLsr, handleRol, handleRor] at h
    exact shift_inv hs h
  | bit => exact handleBit_inv hs h
  | inc | dec =>
    simp only [handle, handleInc, handleDec] at h
    exact modifyMemory_inv hs h
  | cmp | cpx | cpy => exact compare_inv hs h
  | jmp => exact handleJmp_inv hs h
  | jsr => exact handleJsr_inv hs h
  | bcc | bcs | beq | bmi | bne | bpl | bvc | bvs =>
    cases o with
    | relative d => exact branch_inv hs h
    | accumulator | implied | immediate | zeroPage | zeroPageXIndex | zeroPageYIndex | preIndexIndirect
    | postIndexIndirect | absolute | absoluteXIndex | absoluteYIndex | indirect => cases h
  | tax | tay | txa | tya | tsx | inx | iny | dex | dey =>
    cases h
    exact setReg_setZN_advance_inv hs _ _ _
  | txs =>
    cases h
    exact (hs.setReg .s _).advance _
  | rts =>
    cases h
    exact hs.hostGap.poppedWord.setPC _
  | pha | php =>
    cases h
    exact (hs.hostGap.push _).advance _
  | pla =>
    cases h
    exact ((hs.hostGap.popped.setReg .a _).setZN _).advance _
  | plp =>
    cases h
    exact (hs.hostGap.popped.setStatus _).advance _
  | clc | sec | cli | sei | cld | sed | clv =>
    cases h
    exact (hs.setFlag _ _).advance _
  | nop =>
    cases h
    exact hs.advance _
  | brk =>
    cases h
    exact hs.hostGap.interruptEntry _ _
  | rti =>
    cases h
    exact hs.hostGap.returnFromInterrupt

end

/-- Settles O52: a Step is the IRQ entry or a handler on the state past the fetch, and each keeps the invariant. -/
theorem everyStepKeepsTheInvariant : Obligations.EveryStepKeepsTheInvariant := by
  unfold Obligations.EveryStepKeepsTheInvariant
  intro s t hs h
  obtain ⟨-, ⟨-, rfl⟩ | ⟨-, i, -, hexec⟩⟩ := step_next h
  · exact hs.passBoundary.interruptEntry _ _
  · rw [exec_eq_handle] at hexec
    exact handle_inv (hs.fetched i).passBoundary hexec

/-- Settles O53: reset and construction list the given memory and P 0x20. -/
theorem resetHasTheInvariant : Obligations.ResetHasTheInvariant := by
  unfold Obligations.ResetHasTheInvariant
  have hp : (0x20 : Byte).getLsbD 5 = true := by decide
  exact ⟨⟨rfl, hp⟩, fun _ _ hm => ⟨hm, hp⟩⟩

/-! ### Every instruction completes, but for a refused ADC or SBC (43_alu.md R216) -/

/-- A meaning that completes for every operand completes in every mode of a mnemonic with an operand. -/
theorem withValue_completes {mn : Mnemonic} {o : Operand} {s : State} {k : Byte → Result} (ha : mn.allows o.mode = true)
    (hacc : mn.allows .accumulator = false) (himp : mn.allows .implied = false) (hk : ∀ m, ∃ t, k m = .next t) :
    ∃ t, withValue mn o s k = .next t := by
  obtain ⟨m, hm⟩ := operandValue_of_allows s ha hacc himp
  rw [withValue_eq ha hm]
  exact hk m

/-- A meaning that completes for every address completes in every mode of a mnemonic with an effective address. -/
theorem withAddress_completes {mn : Mnemonic} {o : Operand} {s : State} {k : Addr → Result}
    (ha : mn.allows o.mode = true) (hacc : mn.allows .accumulator = false) (himp : mn.allows .implied = false)
    (hk : ∀ ea, ∃ t, k ea = .next t) : ∃ t, withAddress mn o s k = .next t := by
  obtain ⟨ea, hea⟩ := resolve_of_allows s ha hacc himp
  rw [withAddress_eq ha hea]
  exact hk ea

/-- An operand in an allowed mode of a mnemonic with the Relative mode alone is a displacement. -/
theorem relative_of_allows {mn : Mnemonic} {o : Operand} (ha : mn.allows o.mode = true) (hmodes : mn.modes = [.relative]) :
    ∃ d, o = .relative d := by
  have hmode : o.mode = .relative := by simpa [Mnemonic.allows, hmodes] using ha
  cases o with
  | relative d => exact ⟨d, rfl⟩
  | accumulator | implied | immediate | zeroPage | zeroPageXIndex | zeroPageYIndex | preIndexIndirect
  | postIndexIndirect | absolute | absoluteXIndex | absoluteYIndex | indirect => cases hmode

/-- Every handler but those of ADC and SBC completes in the modes of its mnemonic, and these do with no decimal refusal. -/
theorem handle_completes {mn : Mnemonic} {o : Operand} {op : Byte} {s : State} (ha : mn.allows o.mode = true)
    (hd : mn = .adc ∨ mn = .sbc → s.decimalAllowed) : ∃ t, handle mn o op s = .next t := by
  cases mn with
  | lda | ldx | ldy | and | ora | eor | bit | cmp | cpx | cpy => exact withValue_completes ha rfl rfl fun _ => ⟨_, rfl⟩
  | sta | stx | sty | inc | dec | jmp | jsr => exact withAddress_completes ha rfl rfl fun _ => ⟨_, rfl⟩
  | adc | sbc =>
    simp only [handle, handleAdc, handleSbc, addWithCarry]
    rw [decimalCheck_eq (hd (by simp))]
    exact withValue_completes ha rfl rfl fun _ => ⟨_, rfl⟩
  | asl | lsr | rol | ror =>
    simp only [handle, handleAsl, handleLsr, handleRol, handleRor]
    exact ⟨_, shift_eq ha⟩
  | bcc | bcs | beq | bmi | bne | bpl | bvc | bvs =>
    obtain ⟨d, rfl⟩ := relative_of_allows ha rfl
    exact ⟨_, branch_eq _ _ d s⟩
  | tax | tay | txa | tya | tsx | txs | inx | iny | dex | dey | rts | pha | pla | php | plp | clc | sec | cli | sei | cld
  | sed | clv | nop | brk | rti => exact ⟨_, rfl⟩

theorem exec_completes {i : Instr} {s : State} (hd : i.mnemonic = .adc ∨ i.mnemonic = .sbc → s.decimalAllowed) :
    ∃ t, exec i s = .next t := by
  rw [exec_eq_handle]
  exact handle_completes i.allows_mode hd

/-- The refusal needs both the policy and D (43_alu.md R216). -/
theorem State.not_decimalAllowed_iff (s : State) :
    ¬ s.decimalAllowed ↔ s.cfg.decimalPolicy = .refuse ∧ s.flag .d = true := by
  rw [State.decimalAllowed]
  cases s.cfg.decimalPolicy <;> simp

theorem decimalCheck_refused {op : Byte} {s : State} {k : Result} (h : ¬ s.decimalAllowed) :
    decimalCheck op s k = .fault (.decimalRefused op) := by
  obtain ⟨hpolicy, hflag⟩ := s.not_decimalAllowed_iff.mp h
  exact if_pos ⟨hflag, hpolicy⟩

/-- Where a decimal refusal arises, ADC and SBC fault with their opcode. -/
theorem exec_refused {i : Instr} {s : State} (hmn : i.mnemonic = .adc ∨ i.mnemonic = .sbc) (h : ¬ s.decimalAllowed) :
    exec i s = .fault (.decimalRefused i.opcode) := by
  rw [exec_eq_handle]
  obtain hmn | hmn := hmn
  all_goals
    rw [hmn]
    exact decimalCheck_refused h

/-- An instruction that faults is a refused ADC or SBC. -/
theorem exec_fault {i : Instr} {s : State} {r : Fault} (h : exec i s = .fault r) :
    (i.mnemonic = .adc ∨ i.mnemonic = .sbc) ∧ ¬ s.decimalAllowed ∧ r = .decimalRefused i.opcode := by
  have hstuck : ¬ ((i.mnemonic = .adc ∨ i.mnemonic = .sbc) → s.decimalAllowed) := by
    intro hd
    obtain ⟨t, ht⟩ := exec_completes hd
    rw [ht] at h
    cases h
  obtain ⟨hmn, hd⟩ := Classical.not_imp.mp hstuck
  rw [exec_refused hmn hd] at h
  cases h
  exact ⟨hmn, hd, rfl⟩

/-- An instruction that completes is no refused ADC or SBC. -/
theorem decimalAllowed_of_exec_next {i : Instr} {s t : State} (h : exec i s = .next t)
    (hmn : i.mnemonic = .adc ∨ i.mnemonic = .sbc) : s.decimalAllowed := by
  by_contra hd
  rw [exec_refused hmn hd] at h
  cases h

/-- Settles O26: ADC and SBC complete where no refusal arises, so the fault tells the policy and D; and no other
instruction faults at all. -/
theorem decimalPolicyRefusesOnlyWithDSet : Obligations.DecimalPolicyRefusesOnlyWithDSet := by
  unfold Obligations.DecimalPolicyRefusesOnlyWithDSet
  refine ⟨fun i s hmn => ?refusal, fun i s op h => ?source⟩
  case refusal =>
    rw [← State.not_decimalAllowed_iff]
    exact ⟨fun h => (exec_fault h).2.1, exec_refused hmn⟩
  case source =>
    obtain ⟨hmn, -, hop⟩ := exec_fault h
    exact ⟨hmn, Fault.decimalRefused.inj hop⟩

/-! ### The adder's result and overflow as numbers (40_flag_engine.md, consequences) -/

theorem getLsbD_seven (v : Byte) : v.getLsbD 7 = decide (128 ≤ v.toNat) := BitVec.msb_eq_decide v

/-- The overflow formula compares three sign bits. -/
theorem overflowOf_iff_signs (m nv r : Byte) :
    overflowOf m nv r = true ↔ m.getLsbD 7 = nv.getLsbD 7 ∧ r.getLsbD 7 ≠ m.getLsbD 7 := by
  have hmask : (0x80 : Byte) = BitVec.twoPow 8 7 := by decide
  rw [overflowOf_iff, hmask, BitVec.and_twoPow, BitVec.getLsbD_and, BitVec.getLsbD_xor, BitVec.getLsbD_xor]
  generalize m.getLsbD 7 = x, nv.getLsbD 7 = y, r.getLsbD 7 = z
  revert x y z
  decide

/-- Overflow of the adder on two bytes and a carry: the signed sum does not fit. -/
theorem overflowOf_adderResult_iff (m nv : Byte) (c : Bool) :
    overflowOf m nv (adderResult m (nv.toNat + c.toNat)) = true ↔
      m.toInt + nv.toInt + c.toNat < -128 ∨ 127 < m.toInt + nv.toInt + c.toNat := by
  have hc := c.toNat_le
  have hm := m.isLt
  have hn := nv.isLt
  simp only [overflowOf_iff_signs, getLsbD_seven, adderResult_toNat, BitVec.toInt_eq_toNat_cond, ne_eq, decide_eq_decide]
  split <;> split <;> omega

/-- The complement that SBC adds, as a number. -/
theorem toNat_complement (m : Byte) : (~~~m).toNat = 255 - m.toNat := BitVec.toNat_not

theorem toInt_complement (m : Byte) : (~~~m).toInt = -1 - m.toInt := by
  have hm := m.isLt
  simp only [BitVec.toInt_eq_toNat_cond, toNat_complement]
  split <;> split <;> omega

/-! ### ADC and SBC -/

/-- What the adder leaves: A is the wrapped sum, C the carry, V the comparison of signs, Z and N from A. -/
theorem adder_values {s t : State} {nv : Byte} (ha : t.a = adderResult s.a (nv.toNat + (s.flag .c).toNat))
    (hp : t.p = (s.setAdderFlags s.a (nv.toNat + (s.flag .c).toNat) nv).p) :
    t.a.toNat = (s.a.toNat + nv.toNat + (s.flag .c).toNat) % 256 ∧
      (t.flag .c = true ↔ 256 ≤ s.a.toNat + nv.toNat + (s.flag .c).toNat) ∧
      (t.flag .v = true ↔ s.a.getLsbD 7 = nv.getLsbD 7 ∧ t.a.getLsbD 7 ≠ s.a.getLsbD 7) ∧
      t.flag .z = (t.a == 0) ∧ t.flag .n = t.a.getLsbD 7 := by
  have hflag := fun f => State.flag_congr _ t hp f
  refine ⟨?sum, ?carry, ?overflow, ?zero, ?negative⟩
  case sum => rw [ha, adderResult_toNat, Nat.add_assoc]
  case carry => rw [hflag, State.flag_setAdderFlags_c, carryOfSum_iff, Nat.add_assoc]
  case overflow => rw [hflag, State.flag_setAdderFlags_v, overflowOf_iff_signs, ha]
  case zero => rw [hflag, State.flag_setAdderFlags_z, ha]
  case negative => rw [hflag, State.flag_setAdderFlags_n, BitVec.msb_eq_getLsbD_last, ha]

/-- ADC and SBC complete in every mode of theirs where no decimal refusal arises; memory is as the other owner leaves it at
the operand read. -/
theorem addWithCarry_completes {mn : Mnemonic} {o : Operand} (f : Byte → Byte) (op : Byte) {s : State}
    (hd : s.decimalAllowed) (ha : mn.allows o.mode = true) (hacc : mn.allows .accumulator = false)
    (himp : mn.allows .implied = false) :
    ∃ m n t, operandValue o s = some m ∧ n = f m ∧ addWithCarry mn f op o s = .next t ∧
      t.a.toNat = (s.a.toNat + n.toNat + (s.flag .c).toNat) % 256 ∧
      (t.flag .c = true ↔ 256 ≤ s.a.toNat + n.toNat + (s.flag .c).toNat) ∧
      (t.flag .v = true ↔ s.a.getLsbD 7 = n.getLsbD 7 ∧ t.a.getLsbD 7 ≠ s.a.getLsbD 7) ∧
      t.flag .z = (t.a == 0) ∧ t.flag .n = t.a.getLsbD 7 ∧
      t.pc = s.pc + BitVec.ofNat 16 (1 + o.mode.len) ∧ (s.afterRead o).changesOnly t [.a] [.c, .v, .z, .n] [] := by
  obtain ⟨m, hm⟩ := operandValue_of_allows s ha hacc himp
  have hnext := addWithCarry_eq (f := f) (op := op) hd ha hm
  obtain ⟨hresult, hflags⟩ := addWithCarry_calls_adder hm hnext
  obtain ⟨hsum, hcarry, hoverflow, hzero, hnegative⟩ := adder_values hresult hflags
  refine ⟨m, f m, _, hm, rfl, hnext, hsum, hcarry, hoverflow, hzero, hnegative, addWithCarry_pc hnext, ?_⟩
  exact (((State.changesOnly_refl _).setAdderFlags _ _ _).setReg .a _).advance o.mode

/-- Settles O23: each handler is `addWithCarry`, ADC on the operand and SBC on its complement, and its points between
primitives are those of the operand read. -/
theorem adcAndSbcAddWithCarry : Obligations.AdcAndSbcAddWithCarry := by
  unfold Obligations.AdcAndSbcAddWithCarry
  refine ⟨mnemonic_eq_iff_opcode_mem .adc, mnemonic_eq_iff_opcode_mem .sbc, fun i s hd hmn => ?_⟩
  have ha := i.allows_mode
  rw [exec_eq_handle, State.interleaved, accesses]
  obtain hmn | hmn := hmn
  · rw [hmn] at ha ⊢
    exact addWithCarry_completes (fun m => m) _ hd ha rfl rfl
  · rw [hmn] at ha ⊢
    exact addWithCarry_completes (fun m => ~~~m) _ hd ha rfl rfl

/-- Settles O24: ADC is the adder on A, the operand and C, and the overflow formula says that their signed sum does not
fit. -/
theorem adcOverflowIsSignedOverflow : Obligations.AdcOverflowIsSignedOverflow := by
  unfold Obligations.AdcOverflowIsSignedOverflow
  intro i s t m hmn hm h
  rw [exec_eq_handle, hmn] at h
  obtain ⟨hresult, hflags⟩ := addWithCarry_calls_adder hm h
  obtain ⟨-, hcarry, -⟩ := adder_values hresult hflags
  refine ⟨?_, hcarry⟩
  rw [State.flag_congr _ t hflags, State.flag_setAdderFlags_v, overflowOf_adderResult_iff]

/-- Settles O25: SBC is the adder on A, the complement of the operand and C; adding `255 - m` and C is subtracting `m` and
the borrow, beyond a carry of 256. -/
theorem sbcSubtractsWithBorrow : Obligations.SbcSubtractsWithBorrow := by
  unfold Obligations.SbcSubtractsWithBorrow
  intro i s t m borrow hmn hm hborrow h
  rw [exec_eq_handle, hmn] at h
  obtain ⟨hresult, hflags⟩ := addWithCarry_calls_adder hm h
  obtain ⟨hsum, hcarry, -⟩ := adder_values hresult hflags
  have hc : (s.flag .c).toNat + borrow = 1 := by rw [hborrow]; cases s.flag .c <;> rfl
  have hm' := m.isLt
  have ha' := s.a.isLt
  rw [toNat_complement] at hsum hcarry
  refine ⟨?difference, ?noBorrow, ?overflow⟩
  case difference =>
    apply BitVec.eq_of_toNat_eq
    rw [hsum]
    simp only [BitVec.toNat_sub, BitVec.toNat_ofNat]
    omega
  case noBorrow =>
    rw [hcarry]
    omega
  case overflow =>
    rw [State.flag_congr _ t hflags, State.flag_setAdderFlags_v, overflowOf_adderResult_iff, toInt_complement]
    omega

/-! ### Increment and decrement (43_alu.md section 5) -/

/-- INC and DEC complete in every mode of theirs; memory is as the other owner leaves it before the write, but for the byte
at the effective address. -/
theorem modifyMemory_completes {mn : Mnemonic} {o : Operand} (f : Byte → Byte) {s : State} {ea : Addr}
    (ha : mn.allows o.mode = true) (hind : mn.allows .indirect = false) (hpre : mn.allows .preIndexIndirect = false)
    (hpost : mn.allows .postIndexIndirect = false) (hea : resolve o s = some ea) {r : Byte}
    (hr : f (s.hostGap.read ea) = r) :
    ∃ t, modifyMemory mn f o s = .next t ∧ t.read ea = r ∧ t.flag .z = (r == 0) ∧ t.flag .n = r.getLsbD 7 ∧
      t.pc = s.pc + BitVec.ofNat 16 (1 + o.mode.len) ∧ (s.hostGaps 2).changesOnly t [] [.z, .n] [ea] := by
  have hnext := modifyMemory_eq (f := f) ha hea
  rw [s.afterPointer_of_allows ha hind hpre hpost, hr] at hnext
  refine ⟨_, hnext, ?byte, ?zero, ?negative, ?counter, ?frame⟩
  case byte => rw [State.read_advance, State.read_setZN, State.read_write_same]
  case zero => rw [State.flag_advance, State.flag_setZN_z]
  case negative => rw [State.flag_advance, State.flag_setZN_n_eq_getLsbD]
  case counter => simp
  case frame => exact (((State.changesOnly_refl (s.hostGaps 2)).write ea r).setZN r).advance o.mode

/-- Settles O30: each handler is `modifyMemory` for its function, whose points are the two before its read and its write. -/
theorem incAndDecChangeMemoryByOne : Obligations.IncAndDecChangeMemoryByOne := by
  unfold Obligations.IncAndDecChangeMemoryByOne
  refine ⟨mnemonic_eq_iff_opcode_mem .inc, mnemonic_eq_iff_opcode_mem .dec, fun i s ea r hea hmodify => ?_⟩
  have ha := i.allows_mode
  rw [exec_eq_handle, State.interleaved, accesses]
  simp only [List.mem_cons, List.not_mem_nil, or_false, Prod.mk.injEq] at hmodify
  obtain ⟨hmn, rfl⟩ | ⟨hmn, rfl⟩ := hmodify
  · rw [hmn] at ha ⊢
    exact modifyMemory_completes (fun v => v + 1) ha rfl rfl rfl hea rfl
  · rw [hmn] at ha ⊢
    exact modifyMemory_completes (fun v => v - 1) ha rfl rfl rfl hea rfl

/-- Settles O31: each of the four gives its register a value, with Z and N from it. -/
theorem indexRegistersCountByOne : Obligations.IndexRegistersCountByOne := by
  unfold Obligations.IndexRegistersCountByOne
  intro i s r v hcount
  simp only [List.mem_cons, List.not_mem_nil, or_false, Prod.mk.injEq] at hcount
  obtain ⟨rfl, rfl, rfl⟩ | ⟨rfl, rfl, rfl⟩ | ⟨rfl, rfl, rfl⟩ | ⟨rfl, rfl, rfl⟩ := hcount
  all_goals exact ⟨_, rfl, s.setReg_setZN_advance _ _ .implied rfl⟩

/-! ### Compare (44_control_flow.md R240) -/

/-- A compare's operand for the adder, as a number. -/
theorem negatedOperand_eq (m : Byte) : negatedOperand m = 256 - m.toNat := by
  have hm := m.isLt
  rw [negatedOperand, toNat_complement]
  omega

theorem ofNat_negatedOperand (m : Byte) : BitVec.ofNat 8 (negatedOperand m) = 0 - m := by
  apply BitVec.eq_of_toNat_eq
  simp [negatedOperand_eq]

theorem adderResult_negatedOperand (r m : Byte) : adderResult r (negatedOperand m) = r - m := by
  apply BitVec.eq_of_toNat_eq
  rw [adderResult_toNat, negatedOperand_eq, BitVec.toNat_sub, Nat.add_comm]

theorem carryOfSum_negatedOperand_iff (r m : Byte) :
    carryOfSum (r.toNat + negatedOperand m) = true ↔ m.toNat ≤ r.toNat := by
  have hm := m.isLt
  rw [carryOfSum_iff, negatedOperand_eq]
  omega

/-- A compare completes in every mode of its mnemonic; memory is as the other owner leaves it at the operand read. -/
theorem compare_completes {mn : Mnemonic} {o : Operand} (r : Reg) (s : State) (ha : mn.allows o.mode = true)
    (hacc : mn.allows .accumulator = false) (himp : mn.allows .implied = false) :
    ∃ m t, operandValue o s = some m ∧ compare mn r o s = .next t ∧
      (t.flag .c = true ↔ m.toNat ≤ (s.reg r).toNat) ∧ (t.flag .z = true ↔ s.reg r = m) ∧
      t.flag .n = (s.reg r - m).getLsbD 7 ∧
      (t.flag .v = true ↔ (s.reg r).getLsbD 7 = (0 - m).getLsbD 7 ∧ (s.reg r - m).getLsbD 7 ≠ (s.reg r).getLsbD 7) ∧
      t.pc = s.pc + BitVec.ofNat 16 (1 + o.mode.len) ∧ (s.afterRead o).changesOnly t [] [.c, .v, .z, .n] [] := by
  obtain ⟨m, hm⟩ := operandValue_of_allows s ha hacc himp
  have hnext := compare_eq (r := r) ha hm
  refine ⟨m, _, hm, hnext, ?carry, ?zero, ?negative, ?overflow, compare_pc hnext, ?frame⟩
  case carry =>
    rw [State.flag_advance, State.setCompareFlags, State.flag_setAdderFlags_c, carryOfSum_negatedOperand_iff]
  case zero =>
    rw [State.flag_advance, State.setCompareFlags, State.flag_setAdderFlags_z, adderResult_negatedOperand, beq_iff_eq,
      sub_eq_zero]
  case negative =>
    rw [State.flag_advance, State.setCompareFlags, State.flag_setAdderFlags_n, adderResult_negatedOperand,
      BitVec.msb_eq_getLsbD_last]
  case overflow =>
    rw [State.flag_advance, State.setCompareFlags, State.flag_setAdderFlags_v, adderResult_negatedOperand,
      ofNat_negatedOperand, overflowOf_iff_signs]
  case frame => exact ((State.changesOnly_refl _).setAdderFlags _ _ _).advance o.mode

/-- Settles O32: each handler is `compare` for its register, and its points between primitives are those of the operand
read. -/
theorem compareOrdersRegisterAndOperand : Obligations.CompareOrdersRegisterAndOperand := by
  unfold Obligations.CompareOrdersRegisterAndOperand
  refine ⟨mnemonic_eq_iff_opcode_mem .cmp, mnemonic_eq_iff_opcode_mem .cpx, mnemonic_eq_iff_opcode_mem .cpy,
    fun i s r hcompare => ?_⟩
  have ha := i.allows_mode
  rw [exec_eq_handle, State.interleaved, accesses]
  simp only [List.mem_cons, List.not_mem_nil, or_false, Prod.mk.injEq] at hcompare
  obtain ⟨hmn, rfl⟩ | ⟨hmn, rfl⟩ | ⟨hmn, rfl⟩ := hcompare
  all_goals
    rw [hmn] at ha ⊢
    exact compare_completes _ s ha rfl rfl

/-! ### Construction (10_state.md R40, 70_reset_and_hazards.md R360) -/

/-- A constructed core has the P of reset, so each flag is 0. -/
theorem flag_construct (cfg : Config) (m : Memory) (f : Flag) : (construct cfg m).flag f = false :=
  (State.flag_congr State.reset (construct cfg m) rfl f).trans (State.flag_reset f)

/-- Settles O1: the registers are those the constructor writes, and the vector of a memory that lists nothing is 0x0000. -/
theorem constructionAndBootGiveTheResetState : Obligations.ConstructionAndBootGiveTheResetState := by
  unfold Obligations.ConstructionAndBootGiveTheResetState
  have hstatus : forceReserved 0x20 = 0x20 := by decide
  refine ⟨fun cfg m => ⟨rfl, rfl, rfl, rfl, rfl, hstatus, flag_construct cfg m, rfl, rfl, rfl⟩, ?booted, rfl⟩
  case booted => exact boot_of_running rfl

/-! ### Effective addresses by an index or a pointer (41_addressing.md R148 to R152) -/

theorem add_zext16 (w : Addr) (v : Byte) : w + zext16 v = BitVec.ofNat 16 ((w.toNat + v.toNat) % 65536) := by
  apply BitVec.eq_of_toNat_eq
  rw [zext16_eq_ofNat]
  simp

/-- A zero-page pointer at `p`: the low byte there, the high byte at the next address of the 64 KiB or of page zero, which
is one point later (41_addressing.md R151, R152). -/
theorem State.readPointer_eq (s : State) (zp : Byte) {p q : Nat} {u : State} (hp : p = zp.toNat)
    (hq : q = if s.cfg.zpPointerWrap = .word16 then (p + 1) % 65536 else (p + 1) % 256)
    (hu : u = if s.cfg.zpPointerWrap = .word16 then s.hostGap else s.hostGap.hostGap) :
    s.readPointer zp = wordOfBytes (s.hostGap.read (BitVec.ofNat 16 p)) (u.read (BitVec.ofNat 16 q)) := by
  subst hp hq hu
  rw [State.readPointer, ← zext16_eq_ofNat]
  cases s.cfg.zpPointerWrap with
  | word16 =>
    have hlow : (zext16 zp).toNat = zp.toNat := BitVec.toNat_setWidth_of_le (by decide)
    simp only [State.readWord, addr_add_one, hlow, if_true]
  | zeropage =>
    have hhigh : zext16 (zp + 1) = BitVec.ofNat 16 ((zp.toNat + 1) % 256) := zext16_add zp 1
    simp only [hhigh, reduceCtorEq, if_false]

/-- Settles O11: the indexed modes add the register mod 65536, and the pointers are read where `readPointer` says. -/
theorem resolverIndexesAndFollowsPointers : Obligations.ResolverIndexesAndFollowsPointers := by
  unfold Obligations.ResolverIndexesAndFollowsPointers
  intro s
  refine ⟨fun w => congrArg some (add_zext16 w s.x), fun w => congrArg some (add_zext16 w s.y), fun _ => rfl,
    fun zp p q u hp hq hu => ?preIndexed, fun zp p q u hp hq hu => ?postIndexed⟩
  case preIndexed =>
    exact congrArg some (s.readPointer_eq (zp + s.x) (hp.trans (BitVec.toNat_add zp s.x).symm) hq hu)
  case postIndexed => rw [resolve, s.readPointer_eq zp hp hq hu, zext16_eq_ofNat]

/-! ### Branches (44_control_flow.md R247) -/

theorem branchNext_eq (pc : Addr) : pc + 2 = BitVec.ofInt 16 (pc.toNat + 2) := by
  rw [BitVec.ofInt_add, BitVec.ofInt_natCast, BitVec.ofNat_toNat, BitVec.setWidth_eq]
  rfl

/-- The target of a taken branch is a sum of integers, mod 65536. -/
theorem branchTarget_eq (pc : Addr) (d : Byte) :
    pc + 2 + sext16 d = BitVec.ofInt 16 (pc.toNat + 2 + d.toInt) := by
  rw [BitVec.ofInt_add, ← branchNext_eq]
  rfl

theorem branch_taken {f : Flag} {want : Bool} (d : Byte) {s : State} (h : s.flag f = want) :
    branch f want d s = .next { s.hostGap with pc := BitVec.ofInt 16 (s.pc.toNat + 2 + d.toInt) } := by
  rw [branch_eq, if_pos h, branchTarget_eq, State.setPC]

theorem branch_not_taken {f : Flag} {want : Bool} (d : Byte) {s : State} (h : s.flag f ≠ want) :
    branch f want d s = .next { s with pc := BitVec.ofInt 16 (s.pc.toNat + 2) } := by
  rw [branch_eq, if_neg h, branchNext_eq, State.setPC]

/-- Settles O37: each of the eight is `branch` for its flag and value. -/
theorem branchesTestOneFlag : Obligations.BranchesTestOneFlag := by
  unfold Obligations.BranchesTestOneFlag
  intro i s d f want hbranch
  have hexec : exec i s = branch f want d s := by
    simp only [List.mem_cons, List.not_mem_nil, or_false, Prod.mk.injEq] at hbranch
    obtain ⟨rfl, rfl, rfl⟩ | ⟨rfl, rfl, rfl⟩ | ⟨rfl, rfl, rfl⟩ | ⟨rfl, rfl, rfl⟩ | ⟨rfl, rfl, rfl⟩ | ⟨rfl, rfl, rfl⟩ |
      ⟨rfl, rfl, rfl⟩ | ⟨rfl, rfl, rfl⟩ := hbranch
    all_goals rfl
  rw [hexec]
  exact ⟨branch_taken d, branch_not_taken d⟩

/-! ### Stack pointer transfers, PLA and the flag instructions -/

/-- Settles O22: TSX is a transfer, and TXS writes S alone. -/
theorem stackPointerTransfers : Obligations.StackPointerTransfers := by
  unfold Obligations.StackPointerTransfers
  exact ⟨transfer_completes .s .x, fun s => ⟨_, rfl, rfl, rfl, ((State.changesOnly_refl s).setReg .s s.x).advance _⟩⟩

/-- Settles O41: past the one point before the pop, A takes the byte popped, with Z and N from it. -/
theorem plaPullsAccumulator : Obligations.PlaPullsAccumulator := by
  unfold Obligations.PlaPullsAccumulator
  rintro s _ rfl
  obtain ⟨hregister, hzero, hnegative, hcounter, -⟩ :=
    s.hostGap.popped.setReg_setZN_advance .a s.hostGap.popValue .implied rfl
  exact ⟨_, rfl, hregister, hzero, hnegative, rfl, hcounter,
    (((State.changesOnly_refl s.hostGap).popped.setReg .a _).setZN _).advance _⟩

/-- Settles O42: each of the seven writes its flag and advances PC, and NOP advances PC alone. -/
theorem flagInstructionsWriteOneFlag : Obligations.FlagInstructionsWriteOneFlag := by
  unfold Obligations.FlagInstructionsWriteOneFlag
  refine ⟨fun i s f b hwrite => ?_, fun _ => rfl⟩
  have hexec : exec i s = .next ((s.setFlag f b).advance .implied) := by
    simp only [List.mem_cons, List.not_mem_nil, or_false, Prod.mk.injEq] at hwrite
    obtain ⟨rfl, rfl, rfl⟩ | ⟨rfl, rfl, rfl⟩ | ⟨rfl, rfl, rfl⟩ | ⟨rfl, rfl, rfl⟩ | ⟨rfl, rfl, rfl⟩ | ⟨rfl, rfl, rfl⟩ |
      ⟨rfl, rfl, rfl⟩ := hwrite
    all_goals rfl
  exact ⟨_, hexec, s.flag_setFlag_same f b, rfl, ((State.changesOnly_refl s).setFlag f b).advance _⟩

/-! ### Frames of a call or an interrupt and its return -/

/-- What changes from one state to a second and then to a third. -/
theorem State.changesOnly.trans {s t u : State} {R R' : List Reg} {F F' : List Flag} {M M' : List Addr}
    (h : s.changesOnly t R F M) (h' : t.changesOnly u R' F' M') : s.changesOnly u (R ++ R') (F ++ F') (M ++ M') := by
  obtain ⟨hregs, hflags, hmem, hhalt, hcfg, hlevels, hwrites⟩ := h
  obtain ⟨hregs', hflags', hmem', hhalt', hcfg', hlevels', hwrites'⟩ := h'
  simp only [State.changesOnly, State.keepsRegs, State.keepsFlags, State.keepsMemory, List.mem_append, not_or]
  exact ⟨fun r hr => (hregs' r hr.2).trans (hregs r hr.1), fun f hf => (hflags' f hf.2).trans (hflags f hf.1),
    fun ad had => (hmem' ad had.2).trans (hmem ad had.1), hhalt'.trans hhalt, hcfg'.trans hcfg,
    hlevels'.trans hlevels, hwrites'.trans hwrites⟩

/-- A register or flag that has its old value again may leave a frame. -/
theorem State.changesOnly.restored {s t : State} {R R' : List Reg} {F F' : List Flag} {M : List Addr}
    (h : s.changesOnly t R F M) (hR : ∀ r ∈ R, r ∉ R' → t.reg r = s.reg r)
    (hF : ∀ f ∈ F, f ∉ F' → t.flag f = s.flag f) : s.changesOnly t R' F' M := by
  obtain ⟨hregs, hflags, hmem, hrest⟩ := h
  refine ⟨fun r hr => ?_, fun f hf => ?_, hmem, hrest⟩
  · by_cases hlisted : r ∈ R
    · exact hR r hlisted hr
    · exact hregs r hlisted
  · by_cases hlisted : f ∈ F
    · exact hF f hlisted hf
    · exact hflags f hlisted

theorem State.undisturbed.hostGaps {s : State} {ads : List Addr} (h : s.undisturbed ads) (n : Nat) :
    (s.hostGaps n).undisturbed ads := by
  induction n with
  | zero => exact h
  | succ n ih => exact ih.hostGap

/-- A listed address reads the same after any number of points. -/
theorem State.undisturbed.read_hostGaps {s : State} {ads : List Addr} (h : s.undisturbed ads) {ad : Addr}
    (had : ad ∈ ads) (n : Nat) : (s.hostGaps n).read ad = s.read ad := by
  induction n with
  | zero => rfl
  | succ n ih => rw [State.hostGaps_succ, (h.hostGaps n).read had, ih]

theorem State.undisturbed.mono {s : State} {ads ads' : List Addr} (h : s.undisturbed ads)
    (hsub : ∀ ad ∈ ads', ad ∈ ads) : s.undisturbed ads' :=
  h.imp_right fun hwrites ws hws w hw had => hwrites ws hws w hw (hsub _ had)

/-- The other owner's coming writes are kept by a frame. -/
theorem State.changesOnly.undisturbed {s t : State} {R : List Reg} {F : List Flag} {M ads : List Addr}
    (h : s.changesOnly t R F M) (hs : s.undisturbed ads) : t.undisturbed ads := by
  obtain ⟨-, -, -, -, hcfg, -, hwrites⟩ := h
  exact hs.congr hcfg hwrites

theorem byte_sub_one_sub_one (v : Byte) : v - 1 - 1 = v - 2 := by bv_omega

theorem byte_sub_one_thrice (v : Byte) : v - 1 - 1 - 1 = v - 3 := by bv_omega

/-! ### JSR and RTS (44_control_flow.md R245, R246) -/

/-- Settles O34: past the point before the first push, JSR pushes a word and jumps. -/
theorem jsrPushesItsLastByteAddress : Obligations.JsrPushesItsLastByteAddress := by
  unfold Obligations.JsrPushesItsLastByteAddress
  intro s w
  have hexec : exec (.jsrAbs w) s = .next ((s.hostGap.pushWord (s.pc + 2)).setPC w) := rfl
  refine ⟨_, hexec, rfl, byte_sub_one_sub_one s.sp, fun hs => ?high, ?low, (s.hostGap.changesOnly_pushWord _).setPC w⟩
  case high =>
    rw [State.read_setPC]
    exact s.hostGap.read_pushWord_hi _ (hs.hostGap.burst List.mem_cons_self)
  case low =>
    rw [State.read_setPC]
    exact s.hostGap.read_pushWord_lo _

/-- Settles O36: the two stack bytes are as JSR left them when RTS pops them, and S is back. -/
theorem rtsAfterJsrResumesAfterTheCall : Obligations.RtsAfterJsrResumesAfterTheCall := by
  unfold Obligations.RtsAfterJsrResumesAfterTheCall
  intro s w hs
  obtain ⟨t, hjsr, -, hsp, hhigh, hlow, hcall⟩ := jsrPushesItsLastByteAddress s w
  change (s.hostGaps 2).changesOnly t _ _ _ at hcall
  have ht := hcall.undisturbed (hs.hostGaps 2)
  have hlowAt : t.sp + 1 = s.sp - 1 := by rw [hsp]; bv_omega
  have hhighAt : t.sp + 2 = s.sp := by rw [hsp]; bv_omega
  have hword : wordOfBytes ((t.hostGaps 1).read (stackAddr (t.sp + 1))) ((t.hostGaps 2).read (stackAddr (t.sp + 2))) =
      s.pc + 2 := by
    rw [hlowAt, hhighAt, ht.read_hostGaps (by simp), ht.read_hostGaps (by simp), hlow, hhigh (hs.mono (by simp)),
      wordOfBytes_lo_hi]
  have hback : s.pc + 2 + 1 = s.pc + 3 := BitVec.add_assoc s.pc 2 1
  refine ⟨t, _, hjsr, rtsReturnsToPoppedAddressPlusOne.2 t, (congrArg (· + 1) hword).trans hback, ?frame⟩
  case frame =>
    exact ((hcall.hostGap.hostGap.setReg .s (t.sp + 2)).setPC _).restored (by simpa using hhighAt) (by simp)

/-! ### BRK and RTI (46_flags_and_system.md R298, R299; 60_exceptions.md R330 to R333) -/

theorem State.flag_interruptEntry (s : State) (ret : Addr) (b : Bool) (f : Flag) :
    (s.interruptEntry ret b).flag f = if f = .i then true else if f = .b then b else s.flag f := by
  rw [State.flag, State.interruptEntry_p, getFlag_putFlag, getFlag_putFlag]
  rfl

/-- The three bytes that an entry stacks, where the other owner writes on none of them, the last one flag by flag. -/
theorem State.interruptEntry_stacked {s : State} (ret : Addr) (b : Bool)
    (h : s.undisturbed [stackAddr s.sp, stackAddr (s.sp - 1), stackAddr (s.sp - 2)]) {t : State}
    (ht : s.interruptEntry ret b = t) :
    t.read (stackAddr s.sp) = hiByte ret ∧ t.read (stackAddr (s.sp - 1)) = loByte ret ∧
      (t.read (stackAddr (s.sp - 2))).getLsbD 5 = true ∧
      ∀ f : Flag, (t.read (stackAddr (s.sp - 2))).getLsbD f.bit = if f = .b then b else s.flag f := by
  subst ht
  rw [← byte_sub_one_sub_one] at h ⊢
  obtain ⟨hhigh, hlow, hstatus⟩ := s.read_interruptEntry ret b h
  refine ⟨hhigh, hlow, by rw [hstatus, forceReserved_reserved], fun f => ?_⟩
  rw [hstatus]
  exact (getFlag_forceReserved f _).trans (getFlag_putFlag .b f b s.p)

theorem State.interruptEntry_sp_eq (s : State) (ret : Addr) (b : Bool) : (s.interruptEntry ret b).sp = s.sp - 3 := by
  rw [State.interruptEntry_sp, byte_sub_one_thrice]

/-- The frame of an entry, its three stack bytes counted down from S. -/
theorem State.interruptEntry_changesOnly (s : State) (ret : Addr) (b : Bool) :
    (s.hostGaps 3).changesOnly (s.interruptEntry ret b) [.s] [.b, .i]
      [stackAddr s.sp, stackAddr (s.sp - 1), stackAddr (s.sp - 2)] := by
  rw [← byte_sub_one_sub_one]
  exact s.changesOnly_interruptEntry ret b

/-- Settles O43: past the point before the first push, BRK is the entry with return address PC + 2 and B = 1. -/
theorem brkTakesTheInterruptEntry : Obligations.BrkTakesTheInterruptEntry := by
  unfold Obligations.BrkTakesTheInterruptEntry
  intro s
  have hexec : exec .brk s = .next (s.hostGap.interruptEntry (s.pc + 2) true) := rfl
  refine ⟨_, hexec, fun hs => State.interruptEntry_stacked _ _ hs.hostGap rfl, s.hostGap.interruptEntry_sp_eq _ _,
    ?breakFlag, ?disable, s.hostGap.interruptEntry_pc _ _, s.hostGap.interruptEntry_changesOnly _ _⟩
  case breakFlag => rw [State.flag_interruptEntry]; rfl
  case disable => rw [State.flag_interruptEntry]; rfl

theorem byte_add_one_thrice (v : Byte) : v + 1 + 1 + 1 = v + 3 := by bv_omega

/-- Settles O44: past the point before the first pop, RTI is the return from an exception, three pops and a jump. -/
theorem rtiRestoresStatusAndPC : Obligations.RtiRestoresStatusAndPC := by
  unfold Obligations.RtiRestoresStatusAndPC
  intro s
  have hexec : exec .rti s = .next s.hostGap.returnFromInterrupt := rfl
  refine ⟨_, hexec, fun f => ?flag, ?reserved, ?counter, ?pointer, ?frame⟩
  case flag => exact getFlag_forceReserved f s.hostGap.popValue
  case reserved => exact forceReserved_reserved s.hostGap.popValue
  case counter =>
    rw [State.returnFromInterrupt_pc, byte_add_one_thrice, byte_add_one_add_one]
    rfl
  case pointer => rw [State.returnFromInterrupt_sp, byte_add_one_thrice, State.hostGap_sp]
  case frame =>
    exact (((((State.changesOnly_refl s.hostGap).popped.setStatus _).hostGap.popped).hostGap.popped).setPC _).mono
      (by simp) (by simp) (by simp)

/-- Settles O45: the three stack bytes are as BRK left them when RTI pops them, and S is back. -/
theorem rtiAfterBrkResumesTwoBytesOn : Obligations.RtiAfterBrkResumesTwoBytesOn := by
  unfold Obligations.RtiAfterBrkResumesTwoBytesOn
  intro s hs
  obtain ⟨t, hbrk, hstacked, hsp, -, -, -, hentry⟩ := brkTakesTheInterruptEntry s
  obtain ⟨hhigh, hlow, -, hstatus⟩ := hstacked hs
  obtain ⟨u, hrti, hflag, -, hpc, hsp', hreturn⟩ := rtiRestoresStatusAndPC t
  change (s.hostGaps 4).changesOnly t _ _ _ at hentry
  change (t.hostGaps 3).changesOnly u _ _ _ at hreturn
  have ht := hentry.undisturbed (hs.hostGaps 4)
  have hstatusAt : t.sp + 1 = s.sp - 2 := by rw [hsp]; bv_omega
  have hlowAt : t.sp + 2 = s.sp - 1 := by rw [hsp]; bv_omega
  have hhighAt : t.sp + 3 = s.sp := by rw [hsp]; bv_omega
  have hback : u.sp = s.sp := hsp'.trans hhighAt
  have hflags : ∀ f, u.flag f = if f = .b then true else s.flag f := fun f => by
    rw [hflag, hstatusAt, ht.read_hostGaps (by simp), hstatus]
  refine ⟨t, u, hbrk, hrti, ?counter, ?breakFlag, ?frame⟩
  case counter =>
    rw [hpc, hlowAt, hhighAt, ht.read_hostGaps (by simp), ht.read_hostGaps (by simp), hlow, hhigh, wordOfBytes_lo_hi]
  case breakFlag => exact hflags .b
  case frame =>
    have hboth := hentry.hostGap.hostGap.hostGap.trans hreturn
    rw [List.append_nil] at hboth
    exact hboth.restored (by simp [hback]) (by simp +contextual [hflags])

/-! ### Handlers on a mode without meaning (30_encoding.md R98, 41_addressing.md R156) -/

theorem withValue_not_allowed {mn : Mnemonic} {o : Operand} (s : State) (k : Byte → Result)
    (h : mn.allows o.mode = false) : withValue mn o s k = .fault (.invalidAddressingMode mn o.mode) := by
  simp [withValue, invalidMode, h]

theorem withLocation_not_allowed {mn : Mnemonic} {o : Operand} (s : State) (k : Location → Result)
    (h : mn.allows o.mode = false) : withLocation mn o s k = .fault (.invalidAddressingMode mn o.mode) := by
  simp [withLocation, invalidMode, h]

theorem shift_not_allowed {mn : Mnemonic} {o : Operand} (s : State) (out : Byte → Bool) (res : Byte → Bool → Byte)
    (h : mn.allows o.mode = false) : shift mn out res o s = .fault (.invalidAddressingMode mn o.mode) :=
  withLocation_not_allowed s _ h

theorem allows_eq_false {mn : Mnemonic} {m : Mode} (h : m ∉ mn.modes) : mn.allows m = false := by
  simpa [Mnemonic.allows] using h

/-- The decimal check of ADC and SBC comes before the check of the mode (43_alu.md R216). -/
theorem addWithCarry_not_allowed {mn : Mnemonic} {o : Operand} (s : State) (f : Byte → Byte) (op : Byte)
    (h : mn.allows o.mode = false) :
    (s.decimalAllowed → addWithCarry mn f op o s = .fault (.invalidAddressingMode mn o.mode)) ∧
      (¬ s.decimalAllowed → addWithCarry mn f op o s = .fault (.decimalRefused op)) :=
  ⟨fun hd => (decimalCheck_eq hd).trans (withValue_not_allowed s _ h), decimalCheck_refused⟩

/-- Settles O60: each handler asks for its operand's value, address or location, which an allowed mode alone gives. -/
theorem handlersFaultOnModesWithoutMeaning : Obligations.HandlersFaultOnModesWithoutMeaning := by
  unfold Obligations.HandlersFaultOnModesWithoutMeaning
  refine ⟨fun s o mn h hhandler hmode => ⟨?_, rfl⟩, fun s o op mn h hhandler hmode => ?_⟩
  · have ha := allows_eq_false hmode
    simp only [List.mem_cons, List.not_mem_nil, or_false, Prod.mk.injEq] at hhandler
    obtain ⟨rfl, rfl⟩ | ⟨rfl, rfl⟩ | ⟨rfl, rfl⟩ | ⟨rfl, rfl⟩ | ⟨rfl, rfl⟩ | ⟨rfl, rfl⟩ | ⟨rfl, rfl⟩ | ⟨rfl, rfl⟩ |
      ⟨rfl, rfl⟩ | ⟨rfl, rfl⟩ | ⟨rfl, rfl⟩ | ⟨rfl, rfl⟩ | ⟨rfl, rfl⟩ | ⟨rfl, rfl⟩ | ⟨rfl, rfl⟩ | ⟨rfl, rfl⟩ | ⟨rfl, rfl⟩ |
      ⟨rfl, rfl⟩ | ⟨rfl, rfl⟩ | ⟨rfl, rfl⟩ | ⟨rfl, rfl⟩ := hhandler
    -- In the order of the list: loads, stores, logic, shifts and rotates, BIT, INC and DEC, compares, JMP and JSR.
    case _ | _ | _ => exact withValue_not_allowed s _ ha
    case _ | _ | _ => exact withAddress_not_allowed s _ ha
    case _ | _ | _ => exact withValue_not_allowed s _ ha
    case _ | _ | _ | _ => exact shift_not_allowed s _ _ ha
    case _ => exact withValue_not_allowed s _ ha
    case _ | _ => exact withAddress_not_allowed s _ ha
    case _ | _ | _ => exact withValue_not_allowed s _ ha
    case _ | _ => exact withAddress_not_allowed s _ ha
  · have ha := allows_eq_false hmode
    simp only [List.mem_cons, List.not_mem_nil, or_false, Prod.mk.injEq] at hhandler
    obtain ⟨rfl, rfl⟩ | ⟨rfl, rfl⟩ := hhandler
    · exact addWithCarry_not_allowed s (fun m => m) op ha
    · exact addWithCarry_not_allowed s (fun m => ~~~m) op ha

/-! ### The fetch and the dispatch of a Step (30_encoding.md R97, R102, R103) -/

/-- Settles O46: three bytes that decode are what the Step fetches. -/
theorem stepRunsTheDecodedInstruction : Obligations.StepRunsTheDecodedInstruction := by
  unfold Obligations.StepRunsTheDecodedInstruction
  refine ⟨fun s i => ?fetched, fun s i rest hh hi hdecode => ?step⟩
  case fetched =>
    rw [State.fetched]
    cases i.mode <;> rfl
  case step => rw [step_of_fetch hh hi (fetch_of_decode hdecode), State.passBoundary, State.fetched_irqLevels]

theorem opcode_of_fetch {s : State} {i : Instr} (h : fetch s = .ok i) : i.opcode = s.read s.pc := by
  rw [fetch_eq] at h
  split at h
  case h_1 => cases h
  case h_2 r hr =>
    cases h
    exact opcode_build hr _ _

theorem fetch_of_defined {s : State} (h : s.read s.pc ∉ undefinedOpcodes) : ∃ i, fetch s = .ok i := by
  rw [← opcodeRow_eq_none_iff] at h
  obtain ⟨r, hr⟩ := Option.ne_none_iff_exists'.mp h
  rw [fetch_eq, hr]
  exact ⟨_, rfl⟩

theorem fetch_of_undefined {s : State} (h : s.read s.pc ∈ undefinedOpcodes) :
    fetch s = .error (.illegalOpcode (s.read s.pc)) := by
  rw [fetch_eq, (opcodeRow_eq_none_iff _).mpr h]

theorem fetch_error {s : State} {r : Fault} (h : fetch s = .error r) : r = .illegalOpcode (s.read s.pc) := by
  rw [fetch_eq] at h
  split at h <;> cases h
  rfl

/-- The decimal refusal does not depend on the point after the opcode read or on the tape. -/
theorem decimalAllowed_fetched (s : State) (i : Instr) :
    (s.fetched i).passBoundary.decimalAllowed ↔ s.decimalAllowed := by
  simp [State.decimalAllowed]

theorem mem_adcSbcOpcodes_iff (i : Instr) : i.opcode ∈ adcSbcOpcodes ↔ i.mnemonic = .adc ∨ i.mnemonic = .sbc := by
  have hrows : adcSbcOpcodes = mnemonicOpcodes .adc ++ mnemonicOpcodes .sbc := rfl
  rw [hrows, List.mem_append, mnemonic_eq_iff_opcode_mem, mnemonic_eq_iff_opcode_mem]

/-- Settles O51: the byte at PC tells whether an instruction is fetched, and the instruction whether a refusal arises. -/
theorem runningCoreStepsOrFaultsByName : Obligations.RunningCoreStepsOrFaultsByName := by
  unfold Obligations.RunningCoreStepsOrFaultsByName
  intro s hh
  refine ⟨fun hi => ⟨_, step_of_irq hh hi⟩,
    fun hi => ⟨fun hop => ?undefined, fun hop hpolicy hflag => ?refused, fun hop hallowed => ?completes⟩⟩
  case undefined => exact ⟨step_of_fetch_error hh hi (fetch_of_undefined hop), rfl⟩
  case refused =>
    have hrow : ∀ op ∈ adcSbcOpcodes, (opcodeRow op).isSome := by decide
    have hdefined : s.read s.pc ∉ undefinedOpcodes := by
      rw [← opcodeRow_eq_none_iff]
      exact Option.isSome_iff_ne_none.mp (hrow _ hop)
    obtain ⟨i, hf⟩ := fetch_of_defined hdefined
    rw [← opcode_of_fetch hf, mem_adcSbcOpcodes_iff] at hop
    have hd : ¬ s.decimalAllowed := s.not_decimalAllowed_iff.mpr ⟨hpolicy, hflag⟩
    rw [← decimalAllowed_fetched s i] at hd
    exact ⟨by rw [step_of_fetch hh hi hf, exec_refused hop hd, opcode_of_fetch hf], rfl⟩
  case completes =>
    obtain ⟨i, hf⟩ := fetch_of_defined hop
    rw [← State.not_decimalAllowed_iff, ← opcode_of_fetch hf, mem_adcSbcOpcodes_iff, not_and, not_not] at hallowed
    rw [step_of_fetch hh hi hf]
    exact exec_completes fun hmn => (decimalAllowed_fetched s i).mpr (hallowed hmn)

/-! ### Faults and the halted core (60_exceptions.md R321, R322) -/

/-- Settles O49: the step, the boot and the host's Step all ask for the halt record first. -/
theorem haltedCoreHasNoStepAndNoBoot : Obligations.HaltedCoreHasNoStepAndNoBoot := by
  unfold Obligations.HaltedCoreHasNoStepAndNoBoot
  intro s r h
  refine ⟨step_of_halted h, by simp only [boot, h], fun irq => ?_⟩
  have hstep : step { s with irqLevels := irq :: s.irqLevels } = .refused (.coreHalted r) := step_of_halted h
  rw [hostStep, hstep, h]

/-- A Step that faults fetched no instruction, or a refused ADC or SBC; the reason names the byte at PC. -/
theorem step_fault {s : State} {r : Fault} (h : step s = .fault r) :
    r = .illegalOpcode (s.read s.pc) ∨ r = .decimalRefused (s.read s.pc) := by
  unfold step at h
  split at h
  · cases h
  split at h
  · cases h
  split at h
  case h_1 i hf =>
    obtain ⟨-, -, hr⟩ := exec_fault h
    rw [opcode_of_fetch hf] at hr
    exact .inr hr
  case h_2 r' hf =>
    cases h
    exact .inl (fetch_error hf)

/-- A host Step that reports a fault from a running core is a Step that faults, recorded. -/
theorem hostStep_fault {s : State} {irq : Bool} {r : Fault} (hh : s.halted = none) (h : (hostStep irq s).2 = some r) :
    step { s with irqLevels := irq :: s.irqLevels } = .fault r ∧ (hostStep irq s).1 = s.haltWith r := by
  unfold hostStep at h ⊢
  split at h <;> simp_all

/-- Settles O50: the reason comes from the Step, and the state with the record is halted. -/
theorem faultsArePreciseAndRecorded : Obligations.FaultsArePreciseAndRecorded := by
  unfold Obligations.FaultsArePreciseAndRecorded
  intro s irq r hh h
  obtain ⟨hstep, hstate⟩ := hostStep_fault hh h
  have hreason := step_fault hstep
  rw [hstate]
  obtain ⟨-, hboot, hstuck⟩ := haltedCoreHasNoStepAndNoBoot (s.haltWith r) r rfl
  exact ⟨rfl, hreason, hstuck, hboot⟩

/-! ### A stored instruction is the next one run (20_memory.md R80) -/

/-- No instruction is longer than the fetch looks. -/
theorem encode_length_le (i : Instr) : (encode i).length ≤ 3 := by
  rw [encode_length, Instr.length]
  cases i.mode <;> decide

/-- A list of at most three items, read out item by item. -/
theorem take_getD_eq_self (bs : List Byte) (h : bs.length ≤ 3) (x y z : Byte) :
    [bs[0]?.getD x, bs[1]?.getD y, bs[2]?.getD z].take bs.length = bs := by
  match bs, h with
  | [], _ | [_], _ | [_, _], _ | [_, _, _], _ => rfl

theorem State.read_writeBytes_add (s : State) (start : Addr) (bs : List Byte) (hlen : bs.length ≤ 65536) (k : Addr) :
    (s.writeBytes start bs).read (start + k) = bs[k.toNat]?.getD (s.read (start + k)) := by
  have hdist : start + k - start = k := by bv_omega
  rw [State.read_writeBytes s start _ bs hlen, hdist]

/-- What does not depend on memory is kept by writing bytes. -/
theorem State.writeBytes_keeps {α : Type} (f : State → α) (hf : ∀ (s : State) (m : Memory), f { s with mem := m } = f s)
    (s : State) (start : Addr) (bs : List Byte) : f (s.writeBytes start bs) = f s :=
  (hf _ s.mem).symm.trans (congrArg f (s.writeBytes_mem start bs))

@[simp] theorem State.writeBytes_pc (s : State) (start : Addr) (bs : List Byte) : (s.writeBytes start bs).pc = s.pc :=
  State.writeBytes_keeps State.pc (fun _ _ => rfl) s start bs

@[simp] theorem State.writeBytes_halted (s : State) (start : Addr) (bs : List Byte) :
    (s.writeBytes start bs).halted = s.halted :=
  State.writeBytes_keeps State.halted (fun _ _ => rfl) s start bs

@[simp] theorem State.writeBytes_takesIrq (s : State) (start : Addr) (bs : List Byte) :
    (s.writeBytes start bs).takesIrq = s.takesIrq :=
  State.writeBytes_keeps State.takesIrq (fun _ _ => rfl) s start bs

theorem State.undisturbed.writeBytes {s : State} {ads : List Addr} (h : s.undisturbed ads) (start : Addr)
    (bs : List Byte) : (s.writeBytes start bs).undisturbed ads :=
  h.congr (State.writeBytes_keeps State.cfg (fun _ _ => rfl) s start bs)
    (State.writeBytes_keeps State.hostWrites (fun _ _ => rfl) s start bs)

/-- An instruction stored at PC, whose later bytes the other owner does not write, is fetched. -/
theorem fetch_writeBytes_encode (s : State) (i : Instr) (hs : s.undisturbed [s.pc + 1, s.pc + 2]) :
    fetch (s.writeBytes s.pc (encode i)) = .ok i := by
  have hu := hs.writeBytes s.pc (encode i)
  have hlen := encode_length_le i
  have hread := s.read_writeBytes_add s.pc (encode i) (by omega)
  have hread0 := hread 0
  rw [add_zero] at hread0
  rw [fetchedInstructionCarriesItsBytes, State.writeBytes_pc, hu.read (by simp), hu.read (by simp), hread0, hread, hread,
    ← encode_length]
  exact take_getD_eq_self _ hlen _ _ _

/-- Settles O47: the stored instruction is the one fetched, and storing it changes memory alone. -/
theorem storedInstructionIsTheNextOneRun : Obligations.StoredInstructionIsTheNextOneRun := by
  unfold Obligations.StoredInstructionIsTheNextOneRun
  intro s i hh hi hs
  exact step_of_fetch (by rw [State.writeBytes_halted, hh]) (by rw [State.writeBytes_takesIrq, hi])
    (fetch_writeBytes_encode s i hs)

/-! ### An IRQ (60_exceptions.md R327, R330) -/

/-- The gate of an IRQ (60_exceptions.md R327). -/
theorem State.takesIrq_iff (s : State) : s.takesIrq = true ↔ s.irqLevels.head? = some true ∧ s.flag .i = false := by
  rw [State.takesIrq, State.irqLine, Bool.and_eq_true, Bool.not_eq_true']
  cases s.irqLevels <;> simp

/-- The other owner does the same before and after the boundary's level is consumed. -/
theorem State.hostGaps_passBoundary (s : State) (n : Nat) : s.passBoundary.hostGaps n = (s.hostGaps n).passBoundary := by
  induction n with
  | zero => rfl
  | succ n ih => exact congrArg State.hostGap ih

/-- Settles O48: an open gate makes the Step the entry with return address PC and B = 0, past the boundary. -/
theorem enabledIrqIsTakenInPlaceOfTheInstruction : Obligations.EnabledIrqIsTakenInPlaceOfTheInstruction := by
  unfold Obligations.EnabledIrqIsTakenInPlaceOfTheInstruction
  refine ⟨State.takesIrq_iff, fun s levels hh hlevels hi => ?_⟩
  have hirq : s.takesIrq = true := s.takesIrq_iff.mpr ⟨by rw [hlevels]; rfl, hi⟩
  have hpc := s.passBoundary.interruptEntry_pc s.pc false
  obtain ⟨hregs, hflags, hmem, -, -, -, hwrites⟩ := s.passBoundary.interruptEntry_changesOnly s.pc false
  rw [State.hostGaps_passBoundary] at hpc hregs hflags hmem hwrites
  refine ⟨_, step_of_irq hh hirq, fun hs => State.interruptEntry_stacked (s := s.passBoundary) s.pc false hs rfl,
    s.passBoundary.interruptEntry_sp_eq _ _, ?breakFlag, ?disable, hpc, ?tape, ?halt, ?config, hwrites, ?regs, ?flags, hmem⟩
  case breakFlag => exact s.passBoundary.flag_interruptEntry s.pc false .b
  case disable => exact s.passBoundary.flag_interruptEntry s.pc false .i
  case tape =>
    rw [State.irqEntry, State.interruptEntry_irqLevels, State.passBoundary_irqLevels, hlevels, List.tail_cons]
  case halt => exact (s.passBoundary.interruptEntry_halted _ _).trans hh
  case config => exact s.passBoundary.interruptEntry_cfg _ _
  case regs => exact fun r hr => (hregs r hr).trans (by simp)
  case flags => exact fun f hf => (hflags f hf).trans (by simp)

/-! ### What each instruction may change (10_state.md R22 to R31, 20_memory.md section 5) -/

/-- The registers that the instructions of a mnemonic write, by mode (10_state.md R22 to R26). -/
def writtenRegs (mn : Mnemonic) (m : Mode) : List Reg :=
  match mn with
  | .lda | .txa | .tya | .adc | .sbc | .and | .ora | .eor => [.a]
  | .asl | .lsr | .rol | .ror => if m = .accumulator then [.a] else []
  | .ldx | .tax | .tsx | .inx | .dex => [.x]
  | .ldy | .tay | .iny | .dey => [.y]
  | .txs | .pha | .php | .plp | .jsr | .rts | .brk | .rti => [.s]
  | .pla => [.a, .s]
  | .sta | .stx | .sty | .bit | .inc | .dec | .cmp | .cpx | .cpy | .jmp | .bcc | .bcs | .beq | .bmi | .bne | .bpl | .bvc
  | .bvs | .clc | .sec | .cli | .sei | .cld | .sed | .clv | .nop => []

/-- The flags that the instructions of a mnemonic write (10_state.md R28 to R31). -/
def writtenFlags : Mnemonic → List Flag
  | .lda | .ldx | .ldy | .tax | .tay | .txa | .tya | .tsx | .pla | .and | .ora | .eor | .inc | .dec | .inx | .iny | .dex
  | .dey => [.z, .n]
  | .adc | .sbc | .cmp | .cpx | .cpy => [.c, .v, .z, .n]
  | .asl | .lsr | .rol | .ror => [.c, .z, .n]
  | .bit => [.z, .n, .v]
  | .clc | .sec => [.c]
  | .cli | .sei => [.i]
  | .cld | .sed => [.d]
  | .clv => [.v]
  | .brk => [.b, .i]
  | .plp | .rti => [.c, .z, .i, .d, .b, .v, .n]
  | .sta | .stx | .sty | .txs | .jmp | .jsr | .rts | .bcc | .bcs | .beq | .bmi | .bne | .bpl | .bvc | .bvs | .pha | .php
  | .nop => []

theorem load_changesOnly {mn : Mnemonic} {r : Reg} {o : Operand} {s t : State} (h : load mn r o s = .next t) :
    (s.afterRead o).changesOnly t [r] [.z, .n] [] := by
  obtain ⟨m, -, rfl⟩ := load_next h
  exact (((State.changesOnly_refl _).setReg r m).setZN m).advance _

theorem addWithCarry_changesOnly {mn : Mnemonic} {f : Byte → Byte} {op : Byte} {o : Operand} {s t : State}
    (h : addWithCarry mn f op o s = .next t) : (s.afterRead o).changesOnly t [.a] [.c, .v, .z, .n] [] := by
  obtain ⟨m, -, rfl⟩ := addWithCarry_next h
  exact (((State.changesOnly_refl _).setAdderFlags _ _ _).setReg .a _).advance _

theorem logic_changesOnly {mn : Mnemonic} {f : Byte → Byte → Byte} {o : Operand} {s t : State}
    (h : logic mn f o s = .next t) : (s.afterRead o).changesOnly t [.a] [.z, .n] [] := by
  obtain ⟨m, -, rfl⟩ := logic_next h
  exact (((State.changesOnly_refl _).setReg .a _).setZN _).advance _

theorem compare_changesOnly {mn : Mnemonic} {r : Reg} {o : Operand} {s t : State} (h : compare mn r o s = .next t) :
    (s.afterRead o).changesOnly t [] [.c, .v, .z, .n] [] := by
  obtain ⟨m, -, rfl⟩ := compare_next h
  exact ((State.changesOnly_refl _).setAdderFlags _ _ _).advance _

theorem handleBit_changesOnly {o : Operand} {s t : State} (h : handleBit o s = .next t) :
    (s.afterRead o).changesOnly t [] [.z, .n, .v] [] := by
  obtain ⟨m, -, h⟩ := withValue_next h
  cases h
  exact (((((State.changesOnly_refl _).setFlag .z _).setFlag .n _).setFlag .v _).advance _).mono
    (by simp) (by simp) (by simp)

/-- A store writes at the address of the resolver. -/
theorem store_changesOnly {mn : Mnemonic} {r : Reg} {o : Operand} {s t : State} {M : List Addr}
    (hM : ∀ ea, resolve o s = some ea → M = [ea]) (h : store mn r o s = .next t) :
    (s.afterPointer o).hostGap.changesOnly t [] [] M := by
  obtain ⟨ea, hea, rfl⟩ := store_next h
  rw [hM ea hea]
  exact ((State.changesOnly_refl _).write ea _).advance _

/-- INC and DEC write at the address of the resolver, past two points. -/
theorem modifyMemory_changesOnly {mn : Mnemonic} {f : Byte → Byte} {o : Operand} {s t : State} {M : List Addr}
    (ha : s.afterPointer o = s) (hM : ∀ ea, resolve o s = some ea → M = [ea]) (h : modifyMemory mn f o s = .next t) :
    (s.hostGaps 2).changesOnly t [] [.z, .n] M := by
  obtain ⟨ea, hea, rfl⟩ := modifyMemory_next h
  rw [hM ea hea, ha]
  exact (((State.changesOnly_refl (s.hostGaps 2)).write ea _).setZN _).advance _

/-- A mode with no address that a shift allows is the Accumulator. -/
theorem mode_eq_accumulator {mn : Mnemonic} {o : Operand} {s : State} (ha : mn.allows o.mode = true)
    (himp : mn.allows .implied = false) (h : resolve o s = none) : o.mode = .accumulator := by
  cases o <;> simp_all [resolve, Operand.mode]

/-- A shift or rotate writes the accumulator past no point, or at the address of the resolver past two. -/
theorem shift_changesOnly {mn : Mnemonic} {out : Byte → Bool} {res : Byte → Bool → Byte} {o : Operand} {s t : State}
    {n : Nat} {M : List Addr} (ha : mn.allows o.mode = true) (hmn : mn ∈ shiftMnemonics)
    (himp : mn.allows .implied = false) (hacc : locate o s = .acc → n = 0) (hmem : ∀ ea, locate o s = .mem ea → n = 2)
    (hM : ∀ ea, resolve o s = some ea → M = [ea]) (h : shift mn out res o s = .next t) :
    (s.hostGaps n).changesOnly t (if o.mode = .accumulator then [.a] else []) [.c, .z, .n] M := by
  rw [shift_next h, s.afterPointer_of_shift hmn ha]
  cases hea : resolve o s with
  | none =>
    have hl := locate_of_resolve_none hea
    rw [hl, hacc hl, if_pos (mode_eq_accumulator ha himp hea)]
    exact (State.changesOnly_shifted_acc out res o.mode s).mono (by simp) (by simp) (by simp)
  | some ea =>
    have hl := locate_of_resolve hea
    rw [hl, hmem ea hl, hM ea hea]
    exact (State.changesOnly_shifted_mem out res o.mode ea s.hostGap).mono (by simp) (by simp) (by simp)

theorem handleJmp_changesOnly {o : Operand} {s t : State} (h : handleJmp o s = .next t) :
    (s.afterPointer o).changesOnly t [] [] [] := by
  obtain ⟨ea, -, h⟩ := withAddress_next h
  cases h
  exact (State.changesOnly_refl _).setPC ea

theorem handleJsr_changesOnly {o : Operand} {s t : State} (ha : s.afterPointer o = s) (h : handleJsr o s = .next t) :
    (s.hostGaps 2).changesOnly t [.s] [] [stackAddr s.sp, stackAddr (s.sp - 1)] := by
  obtain ⟨target, -, h⟩ := withAddress_next h
  cases h
  rw [ha]
  exact (s.hostGap.changesOnly_pushWord _).setPC target

theorem branch_changesOnly {f : Flag} {want : Bool} {d : Byte} {s t : State} (h : branch f want d s = .next t) :
    (s.hostGaps (if s.flag f = want then 1 else 0)).changesOnly t [] [] [] := by
  rw [branch_eq] at h
  cases h
  split
  · exact (State.changesOnly_refl s.hostGap).setPC _
  · exact (State.changesOnly_refl s).setPC _

/-- The operand of a mnemonic with the Implied mode alone. -/
theorem operand_eq_implied {mn : Mnemonic} {o : Operand} (ha : mn.allows o.mode = true) (hmodes : mn.modes = [.implied]) :
    o = .implied := by
  have hmode := mode_eq_implied ha hmodes
  cases o with
  | implied => rfl
  | accumulator | relative | immediate | zeroPage | zeroPageXIndex | zeroPageYIndex | preIndexIndirect
  | postIndexIndirect | absolute | absoluteXIndex | absoluteYIndex | indirect => cases hmode

/-- The frame of every instruction: beyond what the other owner does between its primitives, only the listed registers and
flags, PC and the bytes at the store addresses change. -/
theorem exec_changesOnly {i : Instr} {s t : State} (h : exec i s = .next t) :
    (s.interleaved i).changesOnly t (writtenRegs i.mnemonic i.mode) (writtenFlags i.mnemonic) (storeAddresses i s) := by
  have ha := i.allows_mode
  rw [exec_eq_handle] at h
  rw [State.interleaved, accesses, storeAddresses, Instr.mode, ← Instr.operand]
  generalize i.mnemonic = mn, i.operand = o, i.opcode = op at h ha ⊢
  cases mn with
  | lda | ldx | ldy => exact load_changesOnly h
  | adc | sbc => exact addWithCarry_changesOnly h
  | and | ora | eor => exact logic_changesOnly h
  | cmp | cpx | cpy => exact compare_changesOnly h
  | bit => exact handleBit_changesOnly h
  | sta | stx | sty => exact store_changesOnly (fun ea hea => by rw [hea]) h
  | inc | dec =>
    simp only [handle, handleInc, handleDec] at h
    exact modifyMemory_changesOnly (s.afterPointer_of_allows ha rfl rfl rfl) (fun ea hea => by rw [hea]) h
  | asl | lsr | rol | ror =>
    simp only [handle, handleAsl, handleLsr, handleRol, handleRor] at h
    exact shift_changesOnly ha (by decide) rfl (fun hl => by rw [hl]) (fun ea hl => by rw [hl])
      (fun ea hea => by rw [hea]) h
  | jmp => exact handleJmp_changesOnly h
  | jsr => exact handleJsr_changesOnly (s.afterPointer_of_allows ha rfl rfl rfl) h
  | bcc | bcs | beq | bmi | bne | bpl | bvc | bvs =>
    obtain ⟨d, rfl⟩ := relative_of_allows ha rfl
    exact branch_changesOnly h
  | tax | tay | txa | tya | tsx | inx | iny | dex | dey =>
    obtain rfl := operand_eq_implied ha rfl
    cases h
    exact (((State.changesOnly_refl s).setReg _ _).setZN _).advance _
  | txs =>
    obtain rfl := operand_eq_implied ha rfl
    cases h
    exact ((State.changesOnly_refl s).setReg .s _).advance _
  | rts =>
    cases h
    exact ((State.changesOnly_refl s.hostGap).popped.hostGap.popped.setPC _).mono (by simp [writtenRegs]) (by simp)
      (by simp)
  | pha | php =>
    cases h
    exact ((State.changesOnly_refl s.hostGap).push _).advance _
  | pla =>
    cases h
    exact (((State.changesOnly_refl s.hostGap).popped.setReg .a _).setZN _).advance _
  | plp =>
    cases h
    exact ((State.changesOnly_refl s.hostGap).popped.setStatus _).advance _
  | clc | sec | cli | sei | cld | sed | clv =>
    obtain rfl := operand_eq_implied ha rfl
    cases h
    exact ((State.changesOnly_refl s).setFlag _ _).advance _
  | nop =>
    obtain rfl := operand_eq_implied ha rfl
    cases h
    exact (State.changesOnly_refl s).advance _
  | brk =>
    cases h
    exact s.hostGap.interruptEntry_changesOnly _ _
  | rti =>
    cases h
    exact ((((State.changesOnly_refl s.hostGap).popped.setStatus _).hostGap.popped.hostGap.popped).setPC _).mono
      (by simp [writtenRegs]) (by simp [writtenFlags]) (by simp)

/-! ### Registers and flags (10_state.md R22 to R31) -/

@[simp] theorem State.reg_interleaved (s : State) (i : Instr) (r : Reg) : (s.interleaved i).reg r = s.reg r :=
  s.reg_hostGaps _ r

@[simp] theorem State.flag_interleaved (s : State) (i : Instr) (f : Flag) : (s.interleaved i).flag f = s.flag f :=
  s.flag_hostGaps _ f

/-- A register that an instruction changed is one it writes. -/
theorem mem_writtenRegs_of_changed {i : Instr} {s t : State} (h : exec i s = .next t) {r : Reg}
    (hne : t.reg r ≠ s.reg r) : r ∈ writtenRegs i.mnemonic i.mode := by
  obtain ⟨hregs, -⟩ := exec_changesOnly h
  by_contra hr
  exact hne ((hregs r hr).trans (s.reg_interleaved i r))

/-- A flag that an instruction changed is one it writes. -/
theorem mem_writtenFlags_of_changed {i : Instr} {s t : State} (h : exec i s = .next t) {f : Flag}
    (hne : t.flag f ≠ s.flag f) : f ∈ writtenFlags i.mnemonic := by
  obtain ⟨-, hflags, -⟩ := exec_changesOnly h
  by_contra hf
  exact hne ((hflags f hf).trans (s.flag_interleaved i f))

/-- The mnemonics that write each register in every mode of theirs (10_state.md R22 to R26). -/
def regWriters : Reg → List Mnemonic
  | .a => [.lda, .txa, .tya, .pla, .adc, .sbc, .and, .ora, .eor]
  | .x => [.ldx, .tax, .tsx, .inx, .dex]
  | .y => [.ldy, .tay, .iny, .dey]
  | .s => [.txs, .pha, .php, .pla, .plp, .jsr, .rts, .brk, .rti]

/-- `regWriters` reads the table `writtenRegs` by register, but for the shifts of A. -/
theorem mem_regWriters {mn : Mnemonic} {m : Mode} :
    ∀ {r}, r ∈ writtenRegs mn m → r = .a ∧ m = .accumulator ∨ mn ∈ regWriters r := by
  cases mn <;> simp [writtenRegs, regWriters]

/-- Settles O56: a changed register is written by the mnemonic. -/
theorem registersChangeOnlyByTheListedInstructions : Obligations.RegistersChangeOnlyByTheListedInstructions := by
  unfold Obligations.RegistersChangeOnlyByTheListedInstructions
  intro i s t h
  obtain ⟨-, -, -, hrest⟩ := exec_changesOnly h
  have hwriter : ∀ r, t.reg r ≠ s.reg r → r = .a ∧ i.mode = .accumulator ∨ i.mnemonic ∈ regWriters r := fun r hne =>
    mem_regWriters (mem_writtenRegs_of_changed h hne)
  exact ⟨fun hne => (hwriter .a hne).imp_left And.right, fun hne => (hwriter .x hne).resolve_left (by simp),
    fun hne => (hwriter .y hne).resolve_left (by simp), fun hne => (hwriter .s hne).resolve_left (by simp), hrest⟩

/-- The mnemonics that write each flag (10_state.md R28 to R31). -/
def flagWriters : Flag → List Mnemonic
  | .c => [.adc, .sbc, .cmp, .cpx, .cpy, .asl, .rol, .lsr, .ror, .clc, .sec, .plp, .rti]
  | .z | .n => [.lda, .ldx, .ldy, .tax, .tay, .txa, .tya, .tsx, .pla, .adc, .sbc, .and, .ora, .eor, .asl, .lsr, .rol, .ror,
      .inc, .dec, .inx, .iny, .dex, .dey, .cmp, .cpx, .cpy, .bit, .plp, .rti]
  | .i => [.sei, .cli, .brk, .plp, .rti]
  | .d => [.sed, .cld, .plp, .rti]
  | .b => [.brk, .plp, .rti]
  | .v => [.adc, .sbc, .cmp, .cpx, .cpy, .bit, .clv, .plp, .rti]

/-- `flagWriters` reads the table `writtenFlags` by flag. -/
theorem mem_flagWriters {mn : Mnemonic} : ∀ {f}, f ∈ writtenFlags mn → mn ∈ flagWriters f := by
  cases mn <;> simp [writtenFlags, flagWriters]

/-- Settles O57: a changed flag is written by the mnemonic. -/
theorem flagsChangeOnlyByTheListedInstructions : Obligations.FlagsChangeOnlyByTheListedInstructions := by
  unfold Obligations.FlagsChangeOnlyByTheListedInstructions
  intro i s t h
  have hwriter : ∀ f, t.flag f ≠ s.flag f → i.mnemonic ∈ flagWriters f := fun f hne =>
    mem_flagWriters (mem_writtenFlags_of_changed h hne)
  exact ⟨hwriter .c, fun hne => hne.elim (hwriter .z) (hwriter .n), hwriter .i, hwriter .d, hwriter .b, hwriter .v⟩

/-! ### Memory (20_memory.md section 5) -/

/-- After several writes an address reads as the last of them to it, else as before. -/
theorem Memory.read_writeEach (ws : List (Addr × Byte)) (m : Memory) (ad : Addr) :
    (m.writeEach ws).read ad.toNat = ((ws.reverse.find? fun w => w.1 == ad).map Prod.snd).getD (m.read ad.toNat) := by
  induction ws generalizing m with
  | nil => rfl
  | cons w ws ih =>
    rw [Memory.writeEach, ih, List.reverse_cons, List.find?_append, Memory.read_write]
    cases ws.reverse.find? fun w => w.1 == ad with
    | some last => rfl
    | none =>
      by_cases had : w.1 = ad
      · simp [had]
      · have hne : ad.toNat ≠ w.1.toNat := fun e => had (BitVec.eq_of_toNat_eq e.symm)
        simp [had, hne]

/-- Under `per_primitive` a point takes the first entry of the schedule. -/
theorem State.hostGap_of_scheduled {s : State} {ws : List (Addr × Byte)} {rest : List (List (Addr × Byte))}
    (h : s.cfg.hostInterleave = .perPrimitive) (hw : s.hostWrites = ws :: rest) :
    s.hostGap = { s with mem := s.mem.writeEach ws, hostWrites := rest } := by
  simp [State.hostGap, State.hostBurst, State.hostRest, h, hw]

/-- Under `per_primitive` a point for which nothing is scheduled writes nothing. -/
theorem State.hostGap_of_unscheduled {s : State} (h : s.cfg.hostInterleave = .perPrimitive) (hw : s.hostWrites = []) :
    s.hostGap = s := by
  have hsame : s.hostGap = { s with hostWrites := [] } := by
    simp [State.hostGap, State.hostBurst, State.hostRest, h, hw, Memory.writeEach]
  rw [hsame, ← hw]

/-- Settles O55: the frame of each instruction, and what the other owner does at a point by its setting and schedule. -/
theorem memoryChangesOnlyAtStoreAddresses : Obligations.MemoryChangesOnlyAtStoreAddresses := by
  unfold Obligations.MemoryChangesOnlyAtStoreAddresses
  refine ⟨fun i s t h => ?frame, State.hostGap_none, fun s => State.hostGap_of_unscheduled,
    fun s ws rest h hw => ⟨?kept, ?rest, fun ad => ?read⟩⟩
  case frame =>
    obtain ⟨-, -, hmem, -⟩ := exec_changesOnly h
    exact hmem
  case kept => rw [State.hostGap_of_scheduled h hw]
  case rest => rw [State.hostGap_of_scheduled h hw]
  case read =>
    rw [State.hostGap_of_scheduled h hw, State.read, Memory.read_writeEach]
    cases ws.reverse.find? fun w => w.1 == ad <;> rfl

/-! ### Updates that the meanings do not see -/

/-- An update of the state that the meanings do not see: it keeps all that they read but D, and commutes with the point
between two primitives and with each update that they make but a write of D or of P whole. -/
structure Unseen (g : State → State) : Prop where
  reg : ∀ s q, (g s).reg q = s.reg q
  pc : ∀ s, (g s).pc = s.pc
  cfg : ∀ s, (g s).cfg = s.cfg
  read : ∀ s ad, (g s).read ad = s.read ad
  flag : ∀ s {f}, f ≠ .d → (g s).flag f = s.flag f
  setReg : ∀ s q v, (g s).setReg q v = g (s.setReg q v)
  setPC : ∀ s w, (g s).setPC w = g (s.setPC w)
  setFlag : ∀ s {f} b, f ≠ .d → (g s).setFlag f b = g (s.setFlag f b)
  write : ∀ s ad v, (g s).write ad v = g (s.write ad v)
  hostGap : ∀ s, (g s).hostGap = g s.hostGap

/-- An answer with its next state updated. -/
def mapNext (g : State → State) : Result → Result
  | .next t => .next (g t)
  | .fault r => .fault r
  | .refused r => .refused r

namespace Unseen

section
variable {g : State → State} (hg : Unseen g) (s : State)
include hg

theorem hostGaps (n : Nat) : (g s).hostGaps n = g (s.hostGaps n) := by
  induction n with
  | zero => rfl
  | succ n ih => rw [State.hostGaps_succ, ih, hg.hostGap, State.hostGaps_succ]

theorem afterPointer (o : Operand) : (g s).afterPointer o = g (s.afterPointer o) := by
  rw [State.afterPointer, hg.cfg, hg.hostGaps, State.afterPointer]

theorem afterRead (o : Operand) : (g s).afterRead o = g (s.afterRead o) := by
  rw [State.afterRead, hg.cfg, hg.hostGaps, State.afterRead]

theorem readWord (ad : Addr) : (g s).readWord ad = s.readWord ad := by
  rw [State.readWord, hg.read, hg.read, State.readWord]

theorem readPointer (p : Byte) : (g s).readPointer p = s.readPointer p := by
  simp only [State.readPointer, hg.cfg, hg.hostGap, hg.readWord, hg.read]

theorem resolve (o : Operand) : resolve o (g s) = resolve o s := by
  have hx : (g s).x = s.x := hg.reg s .x
  have hy : (g s).y = s.y := hg.reg s .y
  cases o <;> simp only [Machine.resolve, hx, hy, hg.pc, hg.hostGap, hg.readWord, hg.readPointer]

theorem operandValue (o : Operand) : operandValue o (g s) = operandValue o s := by
  have hread : (g (s.afterRead o)).read = (s.afterRead o).read := funext (hg.read _)
  cases o <;> simp only [Machine.operandValue, hg.resolve, hg.afterRead, hread]

theorem locate (o : Operand) : locate o (g s) = locate o s := by
  simp only [Machine.locate, hg.resolve]

theorem gapAt (l : Location) : (g s).gapAt l = g (s.gapAt l) := by
  cases l with
  | acc => rfl
  | mem ea => exact hg.hostGap s

theorem readLoc (l : Location) : (g s).readLoc l = s.readLoc l := by
  cases l with
  | acc => exact hg.reg s .a
  | mem ea => exact hg.read s ea

theorem writeLoc (l : Location) (v : Byte) : (g s).writeLoc l v = g (s.writeLoc l v) := by
  cases l with
  | acc => exact hg.setReg s .a v
  | mem ea => exact hg.write s ea v

theorem advance (m : Mode) : (g s).advance m = g (s.advance m) := by
  rw [State.advance, hg.pc, hg.setPC, State.advance]

/-- `ZN` writes two flags, neither of them D. -/
theorem setZN (v : Byte) : (g s).setZN v = g (s.setZN v) := by
  have hflags : ∀ u : State, u.setZN v = (u.setFlag .z (v == 0)).setFlag .n v.msb := fun _ => rfl
  rw [hflags, hflags, hg.setFlag _ _ (by decide), hg.setFlag _ _ (by decide)]

/-- The adder writes four flags, none of them D. -/
theorem setAdderFlags (m : Byte) (k : Nat) (nv : Byte) : (g s).setAdderFlags m k nv = g (s.setAdderFlags m k nv) := by
  have hflags : ∀ u : State, u.setAdderFlags m k nv = ((u.setFlag .c (carryOfSum (m.toNat + k))).setFlag .v
      (overflowOf m nv (adderResult m k))).setZN (adderResult m k) := fun _ => rfl
  rw [hflags, hflags, hg.setFlag _ _ (by decide), hg.setFlag _ _ (by decide), hg.setZN]

theorem push (v : Byte) : (g s).push v = g (s.push v) := by
  have hsp : (g s).sp = s.sp := hg.reg s .s
  rw [State.push, hsp, hg.write, hg.setReg, State.push]

theorem pushWord (w : Addr) : (g s).pushWord w = g (s.pushWord w) := by
  rw [State.pushWord, hg.push, hg.hostGap, hg.push, State.pushWord]

theorem popped : (g s).popped = g s.popped := by
  have hsp : (g s).sp = s.sp := hg.reg s .s
  rw [State.popped, hsp, hg.setReg, State.popped]

theorem popValue : (g s).popValue = s.popValue := by
  have hsp : (g s).sp = s.sp := hg.reg s .s
  rw [State.popValue, hsp, hg.read, State.popValue]

theorem poppedWord : (g s).poppedWord = g s.poppedWord := by
  rw [State.poppedWord, hg.popped, hg.hostGap, hg.popped, State.poppedWord]

theorem popWordValue : (g s).popWordValue = s.popWordValue := by
  rw [State.popWordValue, hg.popValue, hg.popped, hg.hostGap, hg.popValue, State.popWordValue]

/-! #### The shared operations of the meanings -/

theorem withValue {mn : Mnemonic} {o : Operand} {k k' : Byte → Result} (hk : ∀ m, k' m = mapNext g (k m)) :
    withValue mn o (g s) k' = mapNext g (withValue mn o s k) := by
  simp only [Machine.withValue, hg.operandValue]
  split
  · split
    · exact hk _
    · rfl
  · rfl

theorem withAddress {mn : Mnemonic} {o : Operand} {k k' : Addr → Result} (hk : ∀ ea, k' ea = mapNext g (k ea)) :
    withAddress mn o (g s) k' = mapNext g (withAddress mn o s k) := by
  simp only [Machine.withAddress, hg.resolve]
  split
  · split
    · exact hk _
    · rfl
  · rfl

theorem withLocation {mn : Mnemonic} {o : Operand} {k k' : Location → Result} (hk : ∀ l, k' l = mapNext g (k l)) :
    withLocation mn o (g s) k' = mapNext g (withLocation mn o s k) := by
  simp only [Machine.withLocation, hg.locate]
  split
  · exact hk _
  · rfl

theorem load (mn : Mnemonic) (r : Reg) (o : Operand) : load mn r o (g s) = mapNext g (load mn r o s) :=
  hg.withValue s fun m => by rw [hg.afterRead, hg.setReg, hg.setZN, hg.advance, mapNext]

theorem logic (mn : Mnemonic) (f : Byte → Byte → Byte) (o : Operand) :
    logic mn f o (g s) = mapNext g (logic mn f o s) :=
  hg.withValue s fun m => by
    have ha : (g s).a = s.a := hg.reg s .a
    rw [ha, hg.afterRead, hg.setReg, hg.setZN, hg.advance, mapNext]

theorem compare (mn : Mnemonic) (r : Reg) (o : Operand) : compare mn r o (g s) = mapNext g (compare mn r o s) :=
  hg.withValue s fun m => by
    rw [hg.reg, hg.afterRead, State.setCompareFlags, hg.setAdderFlags, hg.advance, mapNext, State.setCompareFlags]

theorem handleBit (o : Operand) : handleBit o (g s) = mapNext g (handleBit o s) :=
  hg.withValue s fun m => by
    have ha : (g s).a = s.a := hg.reg s .a
    rw [ha, hg.afterRead, hg.setFlag _ _ (by decide), hg.setFlag _ _ (by decide), hg.setFlag _ _ (by decide), hg.advance,
      mapNext]

/-- Where no refusal arises on either side. -/
theorem addWithCarry {mn : Mnemonic} {f : Byte → Byte} {op : Byte} {o : Operand} (hd : s.decimalAllowed)
    (hd' : (g s).decimalAllowed) : addWithCarry mn f op o (g s) = mapNext g (addWithCarry mn f op o s) := by
  rw [Machine.addWithCarry, Machine.addWithCarry, decimalCheck_eq hd, decimalCheck_eq hd']
  refine hg.withValue s fun m => ?_
  have ha : (g s).a = s.a := hg.reg s .a
  have hc : (g s).carryIn = s.carryIn := congrArg Bool.toNat (hg.flag s (by decide))
  simp only [ha, hc, hg.afterRead, hg.setAdderFlags, hg.setReg, hg.advance, mapNext]

theorem store (mn : Mnemonic) (r : Reg) (o : Operand) : store mn r o (g s) = mapNext g (store mn r o s) :=
  hg.withAddress s fun ea => by rw [hg.reg, hg.afterPointer, hg.hostGap, hg.write, hg.advance, mapNext]

theorem modifyMemory (mn : Mnemonic) (f : Byte → Byte) (o : Operand) :
    modifyMemory mn f o (g s) = mapNext g (modifyMemory mn f o s) :=
  hg.withAddress s fun ea => by
    simp only [hg.afterPointer, hg.hostGap, hg.read, hg.write, hg.setZN, hg.advance, mapNext]

theorem shift (mn : Mnemonic) (out : Byte → Bool) (res : Byte → Bool → Byte) (o : Operand) :
    shift mn out res o (g s) = mapNext g (shift mn out res o s) :=
  hg.withLocation s fun l => by
    have hc : (g s).flag .c = s.flag .c := hg.flag s (by decide)
    simp only [hc, hg.afterPointer, hg.gapAt, hg.readLoc, hg.setFlag _ _ (show Flag.c ≠ .d by decide), hg.writeLoc,
      hg.setZN, hg.advance, mapNext]

theorem handleJmp (o : Operand) : handleJmp o (g s) = mapNext g (handleJmp o s) :=
  hg.withAddress s fun ea => by rw [hg.afterPointer, hg.setPC, mapNext]

theorem handleJsr (o : Operand) : handleJsr o (g s) = mapNext g (handleJsr o s) :=
  hg.withAddress s fun target => by
    rw [hg.pc, hg.afterPointer, hg.hostGap, hg.pushWord, hg.setPC, mapNext]

theorem branch {f : Flag} (hf : f ≠ .d) (want : Bool) (d : Byte) :
    branch f want d (g s) = mapNext g (branch f want d s) := by
  rw [branch_eq, branch_eq, hg.flag s hf, hg.pc, hg.hostGap, hg.setPC, hg.setPC, mapNext]
  split <;> rfl

theorem transfer (src dst : Reg) : transfer src dst (g s) = mapNext g (transfer src dst s) := by
  rw [Machine.transfer, hg.reg, hg.setReg, hg.setZN, hg.advance, Machine.transfer, mapNext]

theorem modifyRegister (f : Byte → Byte) (r : Reg) : modifyRegister f r (g s) = mapNext g (modifyRegister f r s) := by
  rw [Machine.modifyRegister, hg.reg, hg.setReg, hg.setZN, hg.advance, Machine.modifyRegister, mapNext]

theorem execTxs : execTxs (g s) = mapNext g (execTxs s) := by
  have hx : (g s).x = s.x := hg.reg s .x
  rw [Machine.execTxs, hx, hg.setReg, hg.advance, Machine.execTxs, mapNext]

theorem execRts : execRts (g s) = mapNext g (execRts s) := by
  rw [Machine.execRts, hg.hostGap, hg.poppedWord, hg.popWordValue, hg.setPC, Machine.execRts, mapNext]

theorem execPha : execPha (g s) = mapNext g (execPha s) := by
  have ha : (g s).a = s.a := hg.reg s .a
  rw [Machine.execPha, ha, hg.hostGap, hg.push, hg.advance, Machine.execPha, mapNext]

theorem execPla : execPla (g s) = mapNext g (execPla s) := by
  simp only [Machine.execPla, hg.hostGap, hg.popValue, hg.popped, hg.setReg, hg.setZN, hg.advance, mapNext]

theorem execNop : execNop (g s) = mapNext g (execNop s) := by
  rw [Machine.execNop, hg.advance, Machine.execNop, mapNext]

/-- CLC, SEC, CLI, SEI and CLV. -/
theorem setFlag_advance {f : Flag} (hf : f ≠ .d) (b : Bool) :
    (.next (((g s).setFlag f b).advance .implied) : Result) = mapNext g (.next ((s.setFlag f b).advance .implied)) := by
  rw [hg.setFlag s b hf, hg.advance, mapNext]

end

end Unseen

/-- The mnemonics that move D itself: they read or write P whole, or write D (10_state.md R29). -/
def decimalMovers : List Mnemonic := [.php, .brk, .plp, .rti, .cld, .sed]

/-- Every handler but those that move D. -/
theorem Unseen.handle {g : State → State} (hg : Unseen g) (s : State) {mn : Mnemonic} {o : Operand} {op : Byte}
    (ha : mn.allows o.mode = true) (hmn : mn ∉ decimalMovers)
    (hd : mn = .adc ∨ mn = .sbc → s.decimalAllowed ∧ (g s).decimalAllowed) :
    handle mn o op (g s) = mapNext g (handle mn o op s) := by
  cases mn with
  | lda | ldx | ldy => exact hg.load s _ _ o
  | sta | stx | sty => exact hg.store s _ _ o
  | adc | sbc =>
    obtain ⟨hs, hs'⟩ := hd (by simp)
    exact hg.addWithCarry s hs hs'
  | and | ora | eor => exact hg.logic s _ _ o
  | asl | lsr | rol | ror =>
    simp only [Machine.handle, handleAsl, handleLsr, handleRol, handleRor]
    exact hg.shift s _ _ _ o
  | bit => exact hg.handleBit s o
  | inc | dec =>
    simp only [Machine.handle, handleInc, handleDec]
    exact hg.modifyMemory s _ _ o
  | cmp | cpx | cpy => exact hg.compare s _ _ o
  | jmp => exact hg.handleJmp s o
  | jsr => exact hg.handleJsr s o
  | bcc | bcs | beq | bmi | bne | bpl | bvc | bvs =>
    obtain ⟨d, rfl⟩ := relative_of_allows ha rfl
    exact hg.branch s (by decide) _ d
  | tax | tay | txa | tya | tsx => exact hg.transfer s _ _
  | inx | iny | dex | dey =>
    simp only [Machine.handle, execInx, execIny, execDex, execDey]
    exact hg.modifyRegister s _ _
  | txs => exact hg.execTxs s
  | rts => exact hg.execRts s
  | pha => exact hg.execPha s
  | pla => exact hg.execPla s
  | clc | sec | cli | sei | clv => exact hg.setFlag_advance s (by decide) _
  | nop => exact hg.execNop s
  | php | brk | plp | rti | cld | sed => exact absurd (by decide) hmn

/-- An instruction that does not move D answers, from the updated state, its answer updated. -/
theorem Unseen.exec {g : State → State} (hg : Unseen g) {i : Instr} {s t : State} (hmn : i.mnemonic ∉ decimalMovers)
    (hd : s.decimalAllowed → (g s).decimalAllowed) (h : exec i s = .next t) : exec i (g s) = .next (g t) := by
  have hallowed := fun hadd => decimalAllowed_of_exec_next h hadd
  rw [exec_eq_handle] at h ⊢
  rw [hg.handle s i.allows_mode hmn fun hadd => ⟨hallowed hadd, hd (hallowed hadd)⟩, h, mapNext]

/-! ### D (43_alu.md R216) -/

/-- Writes of two flags commute. -/
theorem putFlag_comm {f f' : Flag} (b b' : Bool) (p : Byte) (hf : f ≠ f') :
    putFlag f b (putFlag f' b' p) = putFlag f' b' (putFlag f b p) := by
  refine status_ext _ _ (putFlag_reserved _ _ _) (putFlag_reserved _ _ _) fun g => ?_
  simp only [getFlag_putFlag]
  by_cases h : g = f
  · have h' : g ≠ f' := fun e => hf (h.symm.trans e)
    simp [h, hf]
  · simp [h]

/-- D is read by the decimal check and as a bit of P alone. -/
theorem unseen_setDecimal (b : Bool) : Unseen fun s => s.setFlag .d b where
  reg := fun s q => s.reg_setFlag .d b q
  pc := fun _ => rfl
  cfg := fun _ => rfl
  read := fun _ _ => rfl
  flag := fun s f hf => by rw [State.flag_setFlag, if_neg hf]
  setReg := fun s q v => by cases q <;> rfl
  setPC := fun _ _ => rfl
  setFlag := fun s f b' hf => by simp only [State.setFlag, putFlag_comm b' b s.p hf]
  write := fun _ _ _ => rfl
  hostGap := fun _ => rfl

/-- Settles O59: writing D is an update that the other instructions do not see, and under the binary policy no refusal
arises. -/
theorem decimalFlagChangesNoOtherResult : Obligations.DecimalFlagChangesNoOtherResult := by
  unfold Obligations.DecimalFlagChangesNoOtherResult
  intro i s t b hpolicy hmn h
  have hexec := (unseen_setDecimal b).exec hmn (fun _ => .inl hpolicy) h
  refine ⟨_, hexec, rfl, rfl, rfl, rfl, rfl, rfl, fun f hf => ?_, t.flag_setFlag_same .d b⟩
  rw [State.flag_setFlag, if_neg (by simpa using hf)]

/-! ### The schedule of the other owner's writes under exclusive use (20_memory.md R68) -/

/-- The schedule replaced where it is not read, under `HOST_INTERLEAVE = none`. -/
def State.reschedule (ws : List (List (Addr × Byte))) (s : State) : State :=
  { s with hostWrites := if s.cfg.hostInterleave = .none then ws else s.hostWrites }

theorem State.reschedule_of_none {s : State} (ws : List (List (Addr × Byte))) (h : s.cfg.hostInterleave = .none) :
    s.reschedule ws = { s with hostWrites := ws } := by
  rw [State.reschedule, if_pos h]

theorem State.reschedule_of_shared {s : State} (ws : List (List (Addr × Byte))) (h : s.cfg.hostInterleave ≠ .none) :
    s.reschedule ws = s := by
  rw [State.reschedule, if_neg h]

theorem State.hostGap_reschedule (ws : List (List (Addr × Byte))) (s : State) :
    (s.reschedule ws).hostGap = s.hostGap.reschedule ws := by
  by_cases h : s.cfg.hostInterleave = .none
  · rw [State.hostGap_none s h, State.hostGap_none (s.reschedule ws) h]
  · rw [State.reschedule_of_shared ws h, State.reschedule_of_shared (s := s.hostGap) ws h]

/-- The schedule is read at the points between two primitives alone. -/
theorem unseen_reschedule (ws : List (List (Addr × Byte))) : Unseen (State.reschedule ws) where
  reg := fun s q => by cases q <;> rfl
  pc := fun _ => rfl
  cfg := fun _ => rfl
  read := fun _ _ => rfl
  flag := fun _ _ _ => rfl
  setReg := fun s q v => by cases q <;> rfl
  setPC := fun _ _ => rfl
  setFlag := fun _ _ _ _ => rfl
  write := fun _ _ _ => rfl
  hostGap := State.hostGap_reschedule ws

section
variable (ws : List (List (Addr × Byte))) (s : State)

theorem State.setFlag_reschedule (f : Flag) (b : Bool) :
    (s.reschedule ws).setFlag f b = (s.setFlag f b).reschedule ws := rfl

theorem State.setStatus_reschedule (v : Byte) : (s.reschedule ws).setStatus v = (s.setStatus v).reschedule ws := rfl

theorem State.status_reschedule : (s.reschedule ws).status = s.status := rfl

theorem State.interruptEntry_reschedule (ret : Addr) (b : Bool) :
    (s.reschedule ws).interruptEntry ret b = (s.interruptEntry ret b).reschedule ws := by
  have hg := unseen_reschedule ws
  simp only [State.interruptEntry, hg.pushWord, State.setFlag_reschedule, State.status_reschedule, hg.hostGap, hg.push,
    hg.readWord, hg.setPC]

theorem State.returnFromInterrupt_reschedule :
    (s.reschedule ws).returnFromInterrupt = s.returnFromInterrupt.reschedule ws := by
  have hg := unseen_reschedule ws
  simp only [State.returnFromInterrupt, hg.popped, hg.popValue, State.setStatus_reschedule, hg.hostGap, hg.poppedWord,
    hg.popWordValue, hg.setPC]

/-- The handlers that move D see no more of the schedule than the others. -/
theorem handle_reschedule_of_decimalMover {mn : Mnemonic} {o : Operand} {op : Byte} (hmn : mn ∈ decimalMovers) :
    handle mn o op (s.reschedule ws) = mapNext (State.reschedule ws) (handle mn o op s) := by
  have hg := unseen_reschedule ws
  simp only [decimalMovers, List.mem_cons, List.not_mem_nil, or_false] at hmn
  obtain rfl | rfl | rfl | rfl | rfl | rfl := hmn
  · simp only [handle, execPhp, hg.hostGap, State.status_reschedule, hg.push, hg.advance, mapNext]
  · have hpc : (s.reschedule ws).pc = s.pc := rfl
    simp only [handle, execBrk, hg.hostGap, hpc, State.interruptEntry_reschedule, mapNext]
  · simp only [handle, execPlp, hg.hostGap, hg.popped, hg.popValue, State.setStatus_reschedule, hg.advance, mapNext]
  · simp only [handle, execRti, hg.hostGap, State.returnFromInterrupt_reschedule, mapNext]
  · simp only [handle, execCld, State.setFlag_reschedule, hg.advance, mapNext]
  · simp only [handle, execSed, State.setFlag_reschedule, hg.advance, mapNext]

end

theorem exec_reschedule (ws : List (List (Addr × Byte))) {i : Instr} {s t : State} (h : exec i s = .next t) :
    exec i (s.reschedule ws) = .next (t.reschedule ws) := by
  by_cases hmn : i.mnemonic ∈ decimalMovers
  · rw [exec_eq_handle] at h ⊢
    rw [handle_reschedule_of_decimalMover ws s hmn, h, mapNext]
  · exact (unseen_reschedule ws).exec hmn id h

theorem fetch_reschedule (ws : List (List (Addr × Byte))) (s : State) : fetch (s.reschedule ws) = fetch s := by
  have hg := unseen_reschedule ws
  simp only [fetch, fetchBytes, hg.pc, hg.hostGap, hg.read]

theorem fetched_reschedule (ws : List (List (Addr × Byte))) (s : State) (i : Instr) :
    (s.reschedule ws).fetched i = (s.fetched i).reschedule ws := by
  rw [State.fetched, State.fetched, State.hostGap_reschedule]
  split <;> rfl

/-- A Step sees the schedule at the points alone. -/
theorem step_reschedule (ws : List (List (Addr × Byte))) {s t : State} (h : step s = .next t) :
    step (s.reschedule ws) = .next (t.reschedule ws) := by
  obtain ⟨hh, ⟨hi, rfl⟩ | ⟨hi, i, hf, hexec⟩⟩ := step_next h
  · have hstep := step_of_irq (s := s.reschedule ws) hh hi
    exact hstep.trans (congrArg _ (s.passBoundary.interruptEntry_reschedule ws s.pc false))
  · rw [← fetch_reschedule ws] at hf
    rw [step_of_fetch (s := s.reschedule ws) hh hi hf, fetched_reschedule]
    exact exec_reschedule ws hexec

/-- What a Step keeps of the host's fields, and the level it consumes. -/
theorem step_keeps {s t : State} (h : step s = .next t) :
    t.halted = s.halted ∧ t.cfg = s.cfg ∧ t.irqLevels = s.irqLevels.tail ∧
      (s.cfg.hostInterleave = .none → t.hostWrites = s.hostWrites) := by
  obtain ⟨-, ⟨-, rfl⟩ | ⟨-, i, -, hexec⟩⟩ := step_next h
  · refine ⟨State.interruptEntry_halted .., State.interruptEntry_cfg .., State.interruptEntry_irqLevels .., fun hnone => ?_⟩
    rw [State.irqEntry, State.interruptEntry_hostWrites, State.hostGaps_none s.passBoundary _ hnone,
      State.passBoundary_hostWrites]
  · obtain ⟨-, -, -, hhalted, hcfg, htape, hwrites⟩ := exec_changesOnly hexec
    simp only [State.interleaved, State.hostGaps_halted, State.hostGaps_cfg, State.hostGaps_irqLevels,
      State.passBoundary_halted, State.passBoundary_cfg, State.passBoundary_irqLevels, State.fetched_halted,
      State.fetched_cfg, State.fetched_irqLevels] at hhalted hcfg htape
    refine ⟨hhalted, hcfg, htape, fun hnone => ?_⟩
    rw [hwrites, State.fetched_none s i hnone, State.interleaved, State.hostGaps_none s.passBoundary _ hnone,
      State.passBoundary_hostWrites]

/-- Settles O54: the frame of a Step, and the Step from the state with the schedule replaced. -/
theorem stepKeepsParametersAndConsumesOneLevel : Obligations.StepKeepsParametersAndConsumesOneLevel := by
  unfold Obligations.StepKeepsParametersAndConsumesOneLevel
  intro s t h
  obtain ⟨hrunning, -⟩ := step_next h
  obtain ⟨hhalted, hcfg, htape, hwrites⟩ := step_keeps h
  refine ⟨hrunning, hhalted.trans hrunning, hcfg, htape, fun hnone => ⟨hwrites hnone, fun ws => ?_⟩⟩
  rw [← State.reschedule_of_none ws hnone, ← State.reschedule_of_none (s := t) ws (by rw [hcfg, hnone])]
  exact step_reschedule ws h

end Sys2Proof.Machine
